-- ==== Sys2Proof/Word.lean ====
section
/-! DEFINITION. The word types of the machine (00_scope.md R7, R10; 10_state.md R13, R20). -/

namespace Sys2Proof

/-- A byte of memory or of an instruction (R20: "a byte is 8 bits"). -/
abbrev Byte := BitVec 8

/-- One FP16 pattern, the element type of the instruction (R10). -/
abbrev Half := BitVec 16

/-- A 64-bit register or linear address (R17, R18, R20). -/
abbrev Quad := BitVec 64

/-- The 512 bits of a vector register as its 32 elements: lane `i` is `X.fp16[i]`, bits
`[16*i+15 : 16*i]` (R7, R13). DESIGN CHOICE (safe, log 5): lanes and 512 bits are in one-to-one
correspondence; `lanesBits` of Machine/Ops.lean gives the 512-bit number. -/
abbrev Lanes := Vector Half 32

end Sys2Proof
end

