-- ==== Sys2Proof/Config.lean ====
section
/-! DEFINITION. What the spec fixes for the machine or leaves as a named parameter (00_scope.md R6).
The parameters `MODE64`, `CPUID_AVX512_FP16`, `CPUID_AVX512VL`, `OS_ENABLED` and `AC_ENABLED` are not here:
they are computed from the control state that State holds (10_state.md R21, R23), so every value is covered. -/

namespace Sys2Proof

/-- `PE_POLICY` (R6, R62): which inexact step reports the precision exception. -/
inductive PePolicy where
  /-- Only the rounding of `src - tmp` to FP16 reports (the value decision D8 fixes). -/
  | finalSubtractionOnly
  /-- The literal reading of the pseudocode: the rounding to an integer reports too. -/
  | roundStepOrSubtraction
  deriving DecidableEq, Repr

/-- The policy the spec takes (R62, D8). UNSAFE for a processor that follows the literal reading (log 18). -/
def Config.pePolicy : PePolicy := .finalSubtractionOnly

/-- `FAULT_SUPPRESSION` (R6, R32, D12): bytes of a masked-off element are not read and cannot fault (log 19). -/
def Config.faultSuppression : Bool := true

/-- The width of a canonical linear address: bit `linearBits - 1` is copied into every bit above it
(R29: "bits 63:48 equal to bit 47 with 4-level paging; the width is a platform parameter"). DESIGN CHOICE (log 9). -/
def Config.linearBits : Nat := 48

/-- The longest instruction in bytes (R39). -/
def Config.maxLength : Nat := 15

end Sys2Proof
end

