-- ==== Sys2Proof/Syntax.lean ====
section
/-! DEFINITION. The instruction as syntax: one constructor of `Instr` per row of opcode_table.json
(00_scope.md R2, 30_encoding.md R38 to R50). Every bit an encoding leaves free is kept in some field, so that an
instruction is its bytes (Decode.lean states `encode`). -/

namespace Sys2Proof

/-- The processor mode as far as decoding depends on it (R6 `MODE64`, R21 CS.D): outside 64-bit mode the default
address size is 32 or 16 bits. -/
inductive Mode where
  | mode64
  | mode32
  | mode16
  deriving DecidableEq, Repr

/-- The legacy bytes R52 accepts before the `62H` byte. -/
inductive LegacyByte where
  /-- 26H -/
  | es
  /-- 2EH -/
  | cs
  /-- 36H -/
  | ss
  /-- 3EH -/
  | ds
  /-- 64H -/
  | fs
  /-- 65H -/
  | gs
  /-- 67H, address size -/
  | addrSize
  deriving DecidableEq, Repr

/-- The displacement of a memory operand with a base register: ModRM.mod = 00, 01, 10 (R39, R43). -/
inductive Disp where
  | zero
  | disp8 (d : BitVec 8)
  | disp32 (d : BitVec 32)
  deriving DecidableEq, Repr

/-- A memory operand (R28, R42). `x` and `b` are the true values of the EVEX bits X and B in the forms that do not
use them, kept so that no bit of the encoding is lost. -/
inductive Mem where
  /-- mod = 00, rm = 101: `rip`-relative in 64-bit mode, a plain disp32 outside it (R28, R53). -/
  | ripRel (x b : Bool) (d : BitVec 32)
  /-- No SIB byte: `base` is `B ‖ rm`. -/
  | based (x : Bool) (base : BitVec 4) (d : Disp)
  /-- A SIB byte with a base: `index` is `X ‖ SIB.index`, and 0100B means no index. -/
  | sib (scale : BitVec 2) (index base : BitVec 4) (d : Disp)
  /-- A SIB byte with mod = 00 and SIB.base = 101: no base, disp32. -/
  | sibNoBase (b : Bool) (scale : BitVec 2) (index : BitVec 4) (d : BitVec 32)
  deriving DecidableEq, Repr

/-- The source operand of the plain forms (R27, R46, R49). -/
inductive Source where
  /-- ModRM.mod = 11: vector register `X ‖ B ‖ rm`. -/
  | reg (n : BitVec 5)
  /-- EVEX.b = 0: `VL/8` bytes of memory. -/
  | full (m : Mem)
  /-- EVEX.b = 1: one element of memory at every position (`m16bcst`). -/
  | bcst (m : Mem)
  deriving DecidableEq, Repr

/-- The operands every form has (R45 to R48). -/
structure Operands where
  /-- The legacy bytes before `62H`, in order (R52). -/
  legacy : List LegacyByte
  /-- The destination register `R' ‖ R ‖ ModRM.reg` (R46). -/
  dst : BitVec 5
  /-- The field `aaa`: 000 is no writemask, else `K[aaa]` (R47). -/
  mask : BitVec 3
  /-- The field `z` (R48). -/
  zeroing : Bool
  /-- `imm8` (R45). -/
  imm : BitVec 8
  deriving DecidableEq, Repr

/-- The four rows of opcode_table.json. -/
inductive Instr where
  /-- `VREDUCEPH xmm1{k1}{z}, xmm2/m128/m16bcst, imm8` (row 1, R67). -/
  | vreducephXmm (o : Operands) (src : Source)
  /-- `VREDUCEPH ymm1{k1}{z}, ymm2/m256/m16bcst, imm8` (row 2, R68). -/
  | vreducephYmm (o : Operands) (src : Source)
  /-- `VREDUCEPH zmm1{k1}{z}, zmm2/m512/m16bcst, imm8` (row 3, R69). -/
  | vreducephZmm (o : Operands) (src : Source)
  /-- `VREDUCEPH zmm1{k1}{z}, zmm2{sae}, imm8` (row 4, R70); `ll` is the ignored field L'L (R49). -/
  | vreducephZmmSae (o : Operands) (src : BitVec 5) (ll : BitVec 2)
  deriving DecidableEq, Repr

end Sys2Proof
end

