-- ==== Sys2Proof/WellFormed.lean ====
section
/-! DEFINITION. Which instructions a mode can encode (30_encoding.md R39, R48, R51 to R53). -/

namespace Sys2Proof

/-- The address size of a memory operand: 67H switches 64 to 32 in 64-bit mode and 32 with 16 outside it
(R28, R52, R53). -/
inductive AddrSize where
  | a64
  | a32
  | a16
  deriving DecidableEq, Repr

/-- The address size a mode and the legacy bytes select. -/
def addrSizeOf (m : Mode) (legacy : List LegacyByte) : AddrSize :=
  match m, legacy.contains .addrSize with
  | .mode64, false => .a64
  | .mode64, true => .a32
  | .mode32, false => .a32
  | .mode32, true => .a16
  | .mode16, false => .a16
  | .mode16, true => .a32

/-- The bytes of a displacement (R39). -/
def Disp.count : Disp → Nat
  | .zero => 0
  | .disp8 _ => 1
  | .disp32 _ => 4

/-- The bytes of SIB and displacement (R39). -/
def Mem.count : Mem → Nat
  | .ripRel _ _ _ => 4
  | .based _ _ d => d.count
  | .sib _ _ _ d => 1 + d.count
  | .sibNoBase _ _ _ _ => 5

/-- The bytes a source operand adds after ModRM. -/
def Source.count : Source → Nat
  | .reg _ => 0
  | .full m => m.count
  | .bcst m => m.count

/-- The length `L` in bytes of a plain form: legacy bytes, `62 P0 P1 P2 56 ModRM`, SIB, displacement, `imm8` (R39). -/
def plainLength (o : Operands) (src : Source) : Nat := o.legacy.length + 7 + src.count

/-- The length `L` of an instruction (R39). -/
def Instr.length : Instr → Nat
  | .vreducephXmm o src => plainLength o src
  | .vreducephYmm o src => plainLength o src
  | .vreducephZmm o src => plainLength o src
  | .vreducephZmmSae o n _ => plainLength o (.reg n)

/-- The form a register number and a displacement must have to be encoded without a clash: rm = 100 announces SIB;
mod = 00 with a base of 101 means no base (R39, R42). -/
def Mem.wf : Mem → Bool
  | .ripRel _ _ _ => true
  | .based _ base d =>
      base.extractLsb' 0 3 != 4#3 && (d != .zero || base.extractLsb' 0 3 != 5#3)
  | .sib _ _ base d => d != .zero || base.extractLsb' 0 3 != 5#3
  | .sibNoBase _ _ _ _ => true

/-- Outside 64-bit mode X and B are stored as 1, so every register of an address is one of the first eight (R53). -/
def Mem.low : Mem → Bool
  | .ripRel x b _ => !x && !b
  | .based x base _ => !x && !base.getLsbD 3
  | .sib _ index base _ => !index.getLsbD 3 && !base.getLsbD 3
  | .sibNoBase b _ index _ => !b && !index.getLsbD 3

/-- A memory operand in a mode. -/
def Mem.wfIn (m : Mode) (legacy : List LegacyByte) (a : Mem) : Bool :=
  a.wf && (m == .mode64 || a.low) && addrSizeOf m legacy != .a16

/-- A vector register number in a mode: only registers 0 to 7 exist outside 64-bit mode (R53). -/
def regIn (m : Mode) (n : BitVec 5) : Bool := m == .mode64 || n.extractLsb' 3 2 == 0#2

/-- A source operand in a mode. -/
def Source.wfIn (m : Mode) (legacy : List LegacyByte) : Source → Bool
  | .reg n => regIn m n
  | .full a => a.wfIn m legacy
  | .bcst a => a.wfIn m legacy

/-- Zeroing needs a writemask: `z = 1` with `aaa = 000` is no encoding (R48, R51). -/
def Operands.wf (m : Mode) (o : Operands) : Bool :=
  regIn m o.dst && (!o.zeroing || o.mask != 0#3)

/-- A well-formed plain form: the operands, the source, and at most 15 bytes (R39). -/
def plainWf (m : Mode) (o : Operands) (src : Source) : Bool :=
  o.wf m && src.wfIn m o.legacy && decide (plainLength o src ≤ Config.maxLength)

/-- The instructions a mode can encode. -/
def Instr.wf (m : Mode) : Instr → Bool
  | .vreducephXmm o src => plainWf m o src
  | .vreducephYmm o src => plainWf m o src
  | .vreducephZmm o src => plainWf m o src
  | .vreducephZmmSae o n _ => plainWf m o (.reg n)

end Sys2Proof
end

