-- ==== Sys2Proof/Decode.lean ====
section
/-! DEFINITION. Bytes to instruction and back (30_encoding.md R38 to R53). `decode` is total on any bytes and rejects
by name; `encode` is written from the same layout. -/

namespace Sys2Proof

/-- Why an encoding is #UD (R51, R52). -/
inductive UdCause where
  /-- `P0` bit 3 = 1. -/
  | p0Bit3
  /-- `P1` bit 2 = 0. -/
  | p1Bit2
  /-- `pp` = 10 or 11. -/
  | pp
  /-- `W` = 1. -/
  | w
  /-- Stored `vvvv` ≠ 1111. -/
  | vvvv
  /-- Stored `V'` = 0, in 64-bit mode. -/
  | vPrime
  /-- `L'L` = 11 and not (`b` = 1 and `mod` = 11). -/
  | vectorLength
  /-- `z` = 1 with `aaa` = 000. -/
  | zeroingWithoutMask
  /-- 66H, F2H, F3H, F0H or 40H to 4FH before `62H`. -/
  | legacy
  deriving DecidableEq, Repr

/-- Why bytes are not an instruction of this model. -/
inductive DecodeError where
  /-- An encoding the spec calls #UD. -/
  | invalidOpcode (cause : UdCause)
  /-- Longer than 15 bytes: #GP(0) (R39, R51). -/
  | tooLong
  /-- Fewer than 15 bytes were given and they end inside the instruction. -/
  | truncated
  /-- Not EVEX, or another opcode or map: not a VREDUCEPH (R51, U5). -/
  | otherInstruction
  /-- `pp` = 01: VREDUCEPS or VREDUCEPD (R51, U5). -/
  | neighbour
  /-- `62H` outside 64-bit mode with the next two bits not 11: BOUND (R53). -/
  | bound
  /-- Outside 64-bit mode with stored `B`, `R'` or `V'` = 0: the spec refuses it (R53, U6).
  `narrow` says that the form needs AVX512VL. -/
  | extendedOutside64 (narrow : Bool)
  /-- A memory operand with 16-bit addressing: the spec refuses it (R4, R53, D3). -/
  | addressing16 (narrow : Bool)
  deriving DecidableEq, Repr

/-! ## Legacy bytes (R52) -/

/-- The byte of a legacy byte's name. -/
def LegacyByte.code : LegacyByte → Byte
  | .es => 0x26#8
  | .cs => 0x2E#8
  | .ss => 0x36#8
  | .ds => 0x3E#8
  | .fs => 0x64#8
  | .gs => 0x65#8
  | .addrSize => 0x67#8

/-- The accepted legacy byte a byte is, if any (R52). The rule names a segment for 64H and 65H only; PRESUMED (UNSAFE
outside 64-bit mode, log 31): 26H, 2EH, 36H, 3EH stand for ES, CS, SS, DS. -/
def legacyOf (b : Byte) : Option LegacyByte :=
  if b = 0x26#8 then some .es
  else if b = 0x2E#8 then some .cs
  else if b = 0x36#8 then some .ss
  else if b = 0x3E#8 then some .ds
  else if b = 0x64#8 then some .fs
  else if b = 0x65#8 then some .gs
  else if b = 0x67#8 then some .addrSize
  else none

/-- The bytes that make the instruction #UD when they stand before `62H` (R52). -/
def forbiddenLegacy (b : Byte) : Bool :=
  b == 0x66#8 || b == 0xF2#8 || b == 0xF3#8 || b == 0xF0#8 || b.extractLsb' 4 4 == 4#4

/-- The legacy bytes at the front: the accepted ones in order, whether a forbidden one stands among them, and the
bytes after them. -/
def splitLegacy : List Byte → List LegacyByte × Bool × List Byte
  | [] => ([], false, [])
  | b :: rest =>
    match legacyOf b with
    | some p =>
      let r := splitLegacy rest
      (p :: r.1, r.2.1, r.2.2)
    | none =>
      if forbiddenLegacy b then
        let r := splitLegacy rest
        (r.1, true, r.2.2)
      else ([], false, b :: rest)

/-! ## The EVEX bytes and ModRM (R40, R42) -/

/-- The four free bytes of an EVEX instruction: `P0`, `P1`, `P2`, ModRM. -/
structure Evex where
  p0 : Byte
  p1 : Byte
  p2 : Byte
  modrm : Byte
  deriving DecidableEq, Repr

def evexMod (e : Evex) : BitVec 2 := e.modrm.extractLsb' 6 2
def evexReg (e : Evex) : BitVec 3 := e.modrm.extractLsb' 3 3
def evexRm (e : Evex) : BitVec 3 := e.modrm.extractLsb' 0 3
/-- The true values of R, X, B, R' (stored inverted). -/
def evexR (e : Evex) : Bool := !e.p0.getLsbD 7
def evexX (e : Evex) : Bool := !e.p0.getLsbD 6
def evexB (e : Evex) : Bool := !e.p0.getLsbD 5
def evexR' (e : Evex) : Bool := !e.p0.getLsbD 4
def evexPp (e : Evex) : BitVec 2 := e.p1.extractLsb' 0 2
def evexZ (e : Evex) : Bool := e.p2.getLsbD 7
def evexLL (e : Evex) : BitVec 2 := e.p2.extractLsb' 5 2
/-- The source's `EVEX.b`: broadcast or `{sae}` (R49). -/
def evexBit (e : Evex) : Bool := e.p2.getLsbD 4
def evexAaa (e : Evex) : BitVec 3 := e.p2.extractLsb' 0 3

/-- The destination register number `R' ‖ R ‖ reg` (R46). -/
def evexDst (e : Evex) : BitVec 5 :=
  BitVec.ofBool (evexR' e) ++ BitVec.ofBool (evexR e) ++ evexReg e

/-- The source register number `X ‖ B ‖ rm` (R46). -/
def evexSrcReg (e : Evex) : BitVec 5 :=
  BitVec.ofBool (evexX e) ++ BitVec.ofBool (evexB e) ++ evexRm e

/-- `b = 1` with a register source: the `{sae}` form (R49). -/
def evexSae (e : Evex) : Bool := evexBit e && evexMod e == 3#2

/-- The form needs AVX512VL: VL = 128 or 256 (R2, R50). -/
def evexNarrow (e : Evex) : Bool := !evexSae e && evexLL e != 2#2

/-- The #UD patterns of R51 and R52, by name. -/
def udCause (m : Mode) (forbidden : Bool) (e : Evex) : Option UdCause :=
  if forbidden then some .legacy
  else if e.p0.getLsbD 3 then some .p0Bit3
  else if !e.p1.getLsbD 2 then some .p1Bit2
  else if evexPp e != 0#2 then some .pp
  else if e.p1.getLsbD 7 then some .w
  else if e.p1.extractLsb' 3 4 != 15#4 then some .vvvv
  else if m == .mode64 && !e.p2.getLsbD 3 then some .vPrime
  else if evexLL e == 3#2 && !evexSae e then some .vectorLength
  else if evexZ e && evexAaa e == 0#3 then some .zeroingWithoutMask
  else none

/-! ## SIB and displacement (R39, R42, R43) -/

/-- Four bytes, little-endian (R25, R43). -/
def le32 (b0 b1 b2 b3 : Byte) : BitVec 32 := b3 ++ b2 ++ b1 ++ b0

/-- A disp32 and the bytes after it. -/
def takeDisp32 : List Byte → Option (BitVec 32 × List Byte)
  | b0 :: b1 :: b2 :: b3 :: rest => some (le32 b0 b1 b2 b3, rest)
  | _ => none

/-- The displacement ModRM.mod announces with a base register. -/
def takeDisp (mod : BitVec 2) (bs : List Byte) : Option (Disp × List Byte) :=
  if mod = 1#2 then
    match bs with
    | d :: rest => some (.disp8 d, rest)
    | [] => none
  else if mod = 2#2 then (takeDisp32 bs).map fun r => (.disp32 r.1, r.2)
  else some (.zero, bs)

/-- A base or index register number: an EVEX bit above three bits. -/
def gprNumber (hi : Bool) (lo : BitVec 3) : BitVec 4 := BitVec.ofBool hi ++ lo

/-- The memory operand (mod ≠ 11) and the bytes after it; `none` when the bytes end. -/
def takeMem (e : Evex) (bs : List Byte) : Option (Mem × List Byte) :=
  if evexRm e = 4#3 then
    match bs with
    | [] => none
    | sib :: rest =>
      if evexMod e = 0#2 ∧ sib.extractLsb' 0 3 = 5#3 then
        (takeDisp32 rest).map fun r =>
          (.sibNoBase (evexB e) (sib.extractLsb' 6 2) (gprNumber (evexX e) (sib.extractLsb' 3 3)) r.1, r.2)
      else
        (takeDisp (evexMod e) rest).map fun r =>
          (.sib (sib.extractLsb' 6 2) (gprNumber (evexX e) (sib.extractLsb' 3 3))
            (gprNumber (evexB e) (sib.extractLsb' 0 3)) r.1, r.2)
  else if evexMod e = 0#2 ∧ evexRm e = 5#3 then
    (takeDisp32 bs).map fun r => (.ripRel (evexX e) (evexB e) r.1, r.2)
  else
    (takeDisp (evexMod e) bs).map fun r => (.based (evexX e) (gprNumber (evexB e) (evexRm e)) r.1, r.2)

/-! ## The instruction -/

/-- The operands of R45 to R48. -/
def evexOperands (legacy : List LegacyByte) (e : Evex) (imm : Byte) : Operands :=
  { legacy := legacy, dst := evexDst e, mask := evexAaa e, zeroing := evexZ e, imm := imm }

/-- The plain form `L'L` selects (R50); `L'L` = 11 has been rejected before. -/
def plainForm (ll : BitVec 2) (o : Operands) (src : Source) : Instr :=
  if ll = 0#2 then .vreducephXmm o src
  else if ll = 1#2 then .vreducephYmm o src
  else .vreducephZmm o src

/-- The operand bytes after ModRM, once the fixed fields are known to be good. -/
def decodeOperands (m : Mode) (legacy : List LegacyByte) (e : Evex) (bs : List Byte) :
    Except DecodeError Instr :=
  if evexMod e = 3#2 then
    match bs with
    | [] => .error .truncated
    | imm :: _ =>
      if evexBit e then .ok (.vreducephZmmSae (evexOperands legacy e imm) (evexSrcReg e) (evexLL e))
      else .ok (plainForm (evexLL e) (evexOperands legacy e imm) (.reg (evexSrcReg e)))
  else if addrSizeOf m legacy = .a16 then .error (.addressing16 (evexNarrow e))
  else
    match takeMem e bs with
    | some (a, imm :: _) =>
      .ok (plainForm (evexLL e) (evexOperands legacy e imm) (if evexBit e then .bcst a else .full a))
    | _ => .error .truncated

/-- An EVEX instruction of map 0F3A with opcode 56H: the neighbours, the #UD patterns, the bits that name no operand
outside 64-bit mode, then the operands (R51 to R53). -/
def decodeEvex (m : Mode) (legacy : List LegacyByte) (forbidden : Bool) (e : Evex) (bs : List Byte) :
    Except DecodeError Instr :=
  if evexPp e = 1#2 then .error .neighbour
  else
    match udCause m forbidden e with
    | some c => .error (.invalidOpcode c)
    | none =>
      if m ≠ .mode64 ∧ (evexB e || evexR' e || !e.p2.getLsbD 3) then
        .error (.extendedOutside64 (evexNarrow e))
      else decodeOperands m legacy e bs

/-- The bytes after the legacy bytes: `62 P0 P1 P2 56 ModRM …` (R39, R41). DESIGN CHOICE (UNSAFE, log 13): nothing after
`P0` is looked at unless ModRM is there, so fifteen bytes that end at the opcode byte or earlier are too long, #GP(0),
even where they show a #UD pattern or another map or opcode; the spec does not rank the length. -/
def decodeBody (m : Mode) (legacy : List LegacyByte) (forbidden : Bool) (bs : List Byte) :
    Except DecodeError Instr :=
  match bs with
  | [] => .error .truncated
  | b0 :: r0 =>
    if b0 ≠ 0x62#8 then .error .otherInstruction
    else
      match r0 with
      | [] => .error .truncated
      | p0 :: r1 =>
        if m ≠ .mode64 ∧ p0.extractLsb' 6 2 ≠ 3#2 then .error .bound
        else
          match r1 with
          | p1 :: p2 :: op :: modrm :: rest =>
            if p0.extractLsb' 0 3 ≠ 3#3 ∨ op ≠ 0x56#8 then .error .otherInstruction
            else decodeEvex m legacy forbidden ⟨p0, p1, p2, modrm⟩ rest
          | _ => .error .truncated

/-- Decoding: the instruction the bytes begin with, found by decoding the fields in order (R39). No instruction has
more than 15 bytes: what does not end within them is too long, when nothing else has been found before (log 13). -/
def decode (m : Mode) (bs : List Byte) : Except DecodeError Instr :=
  let r := splitLegacy (bs.take Config.maxLength)
  match decodeBody m r.1 r.2.1 r.2.2 with
  | .error .truncated => if Config.maxLength ≤ bs.length then .error .tooLong else .error .truncated
  | x => x

/-! ## Encoding -/

/-- What a source operand contributes to the encoding: the true EVEX bits X and B, ModRM.mod and ModRM.rm, and the
bytes after ModRM. -/
structure RmPart where
  x : Bool
  b : Bool
  mod : BitVec 2
  rm : BitVec 3
  tail : List Byte
  deriving DecidableEq, Repr

/-- The bytes of a disp32 (R43). -/
def disp32Bytes (d : BitVec 32) : List Byte :=
  [d.extractLsb' 0 8, d.extractLsb' 8 8, d.extractLsb' 16 8, d.extractLsb' 24 8]

/-- ModRM.mod of a displacement. -/
def Disp.mod : Disp → BitVec 2
  | .zero => 0#2
  | .disp8 _ => 1#2
  | .disp32 _ => 2#2

/-- The bytes of a displacement. -/
def Disp.bytes : Disp → List Byte
  | .zero => []
  | .disp8 d => [d]
  | .disp32 d => disp32Bytes d

/-- The SIB byte (R42). -/
def sibByte (scale : BitVec 2) (index base : BitVec 3) : Byte := scale ++ index ++ base

/-- The encoding of a memory operand (R28, R39, R42). -/
def Mem.part : Mem → RmPart
  | .ripRel x b d => ⟨x, b, 0#2, 5#3, disp32Bytes d⟩
  | .based x base d => ⟨x, base.getLsbD 3, d.mod, base.extractLsb' 0 3, d.bytes⟩
  | .sib scale index base d =>
      ⟨index.getLsbD 3, base.getLsbD 3, d.mod, 4#3,
        sibByte scale (index.extractLsb' 0 3) (base.extractLsb' 0 3) :: d.bytes⟩
  | .sibNoBase b scale index d =>
      ⟨index.getLsbD 3, b, 0#2, 4#3, sibByte scale (index.extractLsb' 0 3) 5#3 :: disp32Bytes d⟩

/-- The encoding of a register source (R46). -/
def regPart (n : BitVec 5) : RmPart := ⟨n.getLsbD 4, n.getLsbD 3, 3#2, n.extractLsb' 0 3, []⟩

/-- The encoding of a source operand. -/
def Source.part : Source → RmPart
  | .reg n => regPart n
  | .full a => a.part
  | .bcst a => a.part

/-- `EVEX.b` of a plain form (R49). -/
def Source.bit : Source → Bool
  | .reg _ => false
  | .full _ => false
  | .bcst _ => true

/-- `P0`: the inverted R, X, B, R', a zero, and map 011 (R40, R41). -/
def p0Byte (dst : BitVec 5) (x b : Bool) : Byte :=
  BitVec.ofBool (!dst.getLsbD 3) ++ BitVec.ofBool (!x) ++ BitVec.ofBool (!b) ++
    BitVec.ofBool (!dst.getLsbD 4) ++ 3#4

/-- `P2`: `z`, `L'L`, `b`, the inverted `V'` stored as 1, `aaa` (R40). -/
def p2Byte (z : Bool) (ll : BitVec 2) (b : Bool) (aaa : BitVec 3) : Byte :=
  BitVec.ofBool z ++ ll ++ BitVec.ofBool b ++ 1#1 ++ aaa

/-- ModRM (R42). -/
def modrmByte (mod : BitVec 2) (reg rm : BitVec 3) : Byte := mod ++ reg ++ rm

/-- The bytes of an instruction from its parts (R39, R41). -/
def encodeParts (o : Operands) (p : RmPart) (ll : BitVec 2) (b : Bool) : List Byte :=
  o.legacy.map LegacyByte.code ++
    ([0x62#8, p0Byte o.dst p.x p.b, 0x7C#8, p2Byte o.zeroing ll b o.mask, 0x56#8,
      modrmByte p.mod (o.dst.extractLsb' 0 3) p.rm] ++ (p.tail ++ [o.imm]))

/-- The bytes of an instruction, first byte first. -/
def encode : Instr → List Byte
  | .vreducephXmm o src => encodeParts o src.part 0#2 src.bit
  | .vreducephYmm o src => encodeParts o src.part 1#2 src.bit
  | .vreducephZmm o src => encodeParts o src.part 2#2 src.bit
  | .vreducephZmmSae o n ll => encodeParts o (regPart n) ll true

/-! ## The opcode table's numbering -/

/-- The 15 bytes of an instruction word numbered as opcode_table.json numbers it: byte `k` is bits `8k+7..8k`, and
every bit from `nbits` up is 0. -/
def tableBytes (nbits w : Nat) : List Byte :=
  (List.range Config.maxLength).map fun k => BitVec.ofNat 8 ((w % 2 ^ nbits) / 2 ^ (8 * k))

/-- The instruction the decoder reads, in 64-bit mode, from such a word. -/
def decodeTableWord (nbits w : Nat) : Option Instr :=
  match decode .mode64 (tableBytes nbits w) with
  | .ok i => some i
  | .error _ => none

end Sys2Proof
end

