-- ==== Sys2Proof/Machine/State.lean ====
section
/-! DEFINITION. The state of the machine as plain data (10_state.md R13 to R24), the reasons a step can stop
(60_exceptions.md R76, R82), and the state after reset (R24, R91). -/

namespace Sys2Proof.Machine

/-- A segment register outside 64-bit mode; in 64-bit mode only the base of FS and GS is used (R18, R28, R29).
`readable` is the type check's verdict on a data read (log 12). -/
structure Segment where
  base : Quad
  limit : BitVec 32
  readable : Bool
  deriving DecidableEq, Repr

/-- The six segment registers (R18). -/
structure Segments where
  es : Segment
  cs : Segment
  ss : Segment
  ds : Segment
  fs : Segment
  gs : Segment
  deriving DecidableEq, Repr

/-- What the launch memory says of a byte that is not plain readable memory (R33, R34, R81, D25, U9; log 7). -/
inductive Verdict where
  /-- #PF with this error code (R34, R76). PRESUMED (log 34): 32 bits, a width the spec does not give. -/
  | pageFault (code : BitVec 32)
  /-- #GP(0). -/
  | generalProtection
  /-- #SS(0). -/
  | stackFault
  /-- No named fault, for instance a device register: the read is refused. -/
  | unnamed
  deriving DecidableEq, Repr

/-- A range of linear addresses with one verdict. -/
structure Region where
  base : Nat
  size : Nat
  verdict : Verdict
  deriving DecidableEq, Repr

/-- The control state that decides whether and how the instruction executes (R21). No step writes it. -/
structure Control where
  /-- CR0: PE 0, TS 3, AM 18. -/
  cr0 : Quad
  /-- CR4: OSXMMEXCPT 10, OSXSAVE 18. -/
  cr4 : Quad
  /-- XCR0: bits 2:1 and 7:5. -/
  xcr0 : Quad
  /-- RFLAGS: AC 18, VM 17 (log 20). -/
  rflags : Quad
  /-- IA32_EFER: LMA 10 (log 20). -/
  efer : Quad
  /-- The current privilege level. -/
  cpl : BitVec 2
  /-- CS.L: with LMA, 64-bit mode. -/
  csL : Bool
  /-- CS.D: the default address size outside 64-bit mode. -/
  csD : Bool
  deriving DecidableEq, Repr

/-- The two CPUID feature flags, parameters of the machine (R6, R21, D17). No step writes them. -/
structure Cpuid where
  avx512Fp16 : Bool
  avx512vl : Bool
  deriving DecidableEq, Repr

/-- Memory: the listed bytes, in rising address order, none equal to what an unlisted address reads as
(`memUnlisted` and `Memory.wf` of Machine/Ops.lean). -/
abbrev Memory := List Host.Cell

/-- Everything the spec gives the machine: "The state of the model is exactly: the vector register file, the opmask
register file, MXCSR, `rip`, the registers that feed an effective address (read only), the memory, and the
configuration of rule R21" (10_state.md). -/
structure State where
  /-- `ZMM[0] .. ZMM[31]` (R13). -/
  zmm : Vector Lanes 32
  /-- `K[0] .. K[7]` (R15). -/
  k : Vector Quad 8
  /-- MXCSR (R16). -/
  mxcsr : BitVec 32
  /-- `rip`, the address of the instruction's first byte (R17). -/
  rip : Quad
  /-- `GPR[0] .. GPR[15]` (R18). -/
  gpr : Vector Quad 16
  /-- The segment registers (R18). -/
  seg : Segments
  /-- The bytes of memory (R20). -/
  mem : Memory
  /-- Where memory is not plain readable memory (R33, R34); the first region that holds an address decides. -/
  regions : List Region
  /-- Control state (R21). -/
  ctl : Control
  /-- Feature flags (R21). -/
  cpuid : Cpuid
  deriving DecidableEq, Repr

/-- The faults of R76. Each is a terminal outcome that records the `rip` of the instruction and MXCSR at the fault
(R82, R85, D24). SAFE: no claim about what a handler does can be proved (log 8). -/
inductive Fault where
  /-- #UD, invalid opcode: an illegal encoding (R51, R52), a missing feature or disabled state (R79), or an unmasked
  SIMD floating-point exception with CR4.OSXMMEXCPT = 0 (R78). Raised by the fetch and by the four forms. Safe. -/
  | ud (rip : Quad) (mxcsr : BitVec 32)
  /-- #NM, device not available: CR0.TS = 1 (R79). Raised by the four forms. Safe. -/
  | nm (rip : Quad) (mxcsr : BitVec 32)
  /-- #SS(0): a memory operand in SS that is non-canonical or outside the limit, or a byte the launch memory gives
  this fault (R29, R76, R81). Raised by the forms with a memory source. Safe. -/
  | ss (rip : Quad) (mxcsr : BitVec 32)
  /-- #GP(0): a memory operand in another segment that is non-canonical or outside the limit, a byte the launch memory
  gives this fault, or an instruction longer than 15 bytes (R29, R39, R76, R81). Safe. -/
  | gp (rip : Quad) (mxcsr : BitVec 32)
  /-- #PF: a byte of an active element is not readable; records the faulting linear address and the error code
  (R34, R76, R81), which is 32 bits wide (PRESUMED, log 34). Raised by the forms with a memory source. Safe. -/
  | pf (rip : Quad) (mxcsr : BitVec 32) (addr : Quad) (code : BitVec 32)
  /-- #AC(0): alignment checking is on and a broadcast element is at an odd address (R30). Safe. -/
  | ac (rip : Quad) (mxcsr : BitVec 32)
  /-- #XM: an unmasked Invalid or Precision exception with CR4.OSXMMEXCPT = 1 (R71, R78). Safe. -/
  | xm (rip : Quad) (mxcsr : BitVec 32)
  deriving DecidableEq, Repr

/-- The situations the spec gives no meaning. All are SAFE: nothing can be proved of what follows. -/
inductive Refusal where
  /-- An instruction of the table without a meaning; no arm of `exec` uses it. Safe. -/
  | notModelled (mnemonic : String)
  /-- The bytes at `rip` are not a VREDUCEPH (R4, R51, U5). Raised by the fetch. Safe. -/
  | otherInstruction
  /-- VREDUCEPS or VREDUCEPD, outside the spec (R51, U5). Raised by the fetch. Safe. -/
  | neighbourInstruction
  /-- Outside 64-bit mode, an encoding with extension bits the spec gives no meaning (R53, U6). Safe. -/
  | extendedOutside64
  /-- 16-bit addressing (R4, R53, D3, U6). Safe. -/
  | addressing16
  /-- A byte of the instruction cannot be fetched: fetch faults are outside the model (R83, U17). Safe. -/
  | fetchOutside
  /-- A byte of an active element lies where the launch memory names no fault, for instance a device (R31, U9).
  Raised by the forms with a memory source. Safe. -/
  | unnamedRegion (addr : Quad)
  deriving DecidableEq, Repr

/-- One step's outcome. -/
abbrev Result := Host.Outcome State Fault Refusal

/-- A segment after reset, with its base (PRESUMED, the family's; log 2). -/
def Segment.reset (base : Quad) : Segment := { base := base, limit := 0xFFFF#32, readable := true }

/-- The machine right after a hardware reset. The spec gives MXCSR = 1F80H, XCR0 = 1 and CR0.TS, CR4.OSXSAVE and
CR4.OSXMMEXCPT = 0 (R24, R91). PRESUMED (UNSAFE, logs 1 and 2): every other register holds the family's value.
DESIGN CHOICE (UNSAFE, logs 3 and 6): both feature flags are present and no region is denied. -/
def State.reset : State where
  zmm := Vector.replicate 32 (Vector.replicate 32 0#16)
  k := Vector.replicate 8 0#64
  mxcsr := 0x1F80#32
  rip := 0xFFF0#64
  gpr := Vector.replicate 16 0#64
  seg :=
    { es := Segment.reset 0#64, cs := Segment.reset 0xFFFF0000#64, ss := Segment.reset 0#64,
      ds := Segment.reset 0#64, fs := Segment.reset 0#64, gs := Segment.reset 0#64 }
  mem := []
  regions := []
  ctl :=
    { cr0 := 0x60000010#64, cr4 := 0#64, xcr0 := 1#64, rflags := 2#64, efer := 0#64, cpl := 0#2,
      csL := false, csD := false }
  cpuid := { avx512Fp16 := true, avx512vl := true }

end Sys2Proof.Machine
end

