-- ==== Sys2Proof/Machine/Ops.lean ====
section
/-! DEFINITION. The named operations over memory, registers and control state, raising a fault, and fetching an
instruction. Nothing else of the model reads or writes a field of State that these name. -/

namespace Sys2Proof.Machine

/-! ## Registers (R8, R13 to R18) -/

/-- `ZMM[n]` (R8). -/
def zmmRead (s : State) (n : BitVec 5) : Lanes := s.zmm[n.toNat]'n.isLt

/-- `ZMM[n] <- v`: all 512 bits (R8). -/
def zmmWrite (s : State) (n : BitVec 5) (v : Lanes) : State :=
  { s with zmm := s.zmm.set n.toNat v n.isLt }

/-- `K[n]` (R8). -/
def kRead (s : State) (n : BitVec 3) : Quad := s.k[n.toNat]'n.isLt

/-- `GPR[n]` (R8). -/
def gprRead (s : State) (n : BitVec 4) : Quad := s.gpr[n.toNat]'n.isLt

/-- The first `n` elements of a register as one number, element 0 lowest (R7). -/
def lanesBits (v : Lanes) : Nat → Nat
  | 0 => 0
  | n + 1 => lanesBits v n + (if h : n < 32 then v[n].toNat else 0) * 2 ^ (16 * n)

/-- `XMM[n]`: bits 127:0 of `ZMM[n]` (R14). -/
def xmmRead (s : State) (n : BitVec 5) : BitVec 128 := BitVec.ofNat 128 (lanesBits (zmmRead s n) 8)

/-- `YMM[n]`: bits 255:0 of `ZMM[n]` (R14). -/
def ymmRead (s : State) (n : BitVec 5) : BitVec 256 := BitVec.ofNat 256 (lanesBits (zmmRead s n) 16)

/-! ## Control state (R21, R23) -/

/-- CR0.PE, bit 0. -/
def cr0PE (c : Control) : Bool := c.cr0.getLsbD 0
/-- CR0.TS, bit 3. -/
def cr0TS (c : Control) : Bool := c.cr0.getLsbD 3
/-- CR0.AM, bit 18. -/
def cr0AM (c : Control) : Bool := c.cr0.getLsbD 18
/-- CR4.OSXMMEXCPT, bit 10. -/
def cr4OSXMMEXCPT (c : Control) : Bool := c.cr4.getLsbD 10
/-- CR4.OSXSAVE, bit 18. -/
def cr4OSXSAVE (c : Control) : Bool := c.cr4.getLsbD 18
/-- RFLAGS.AC, bit 18. -/
def rflagsAC (c : Control) : Bool := c.rflags.getLsbD 18
/-- RFLAGS.VM, bit 17 (PRESUMED, log 20): virtual-8086 mode. -/
def rflagsVM (c : Control) : Bool := c.rflags.getLsbD 17
/-- IA32_EFER.LMA, bit 10 (PRESUMED, log 20). -/
def eferLMA (c : Control) : Bool := c.efer.getLsbD 10

/-- XCR0[2:1] = 11B and XCR0[7:5] = 111B (R21, R23). -/
def xcr0Enabled (c : Control) : Bool := c.xcr0.extractLsb' 1 2 == 3#2 && c.xcr0.extractLsb' 5 3 == 7#3

/-- `MODE64` and the default address size (R6, R21): 64-bit mode when LMA and CS.L, else CS.D decides. -/
def modeOf (s : State) : Mode :=
  if eferLMA s.ctl && s.ctl.csL then .mode64
  else if s.ctl.csD then .mode32
  else .mode16

/-- The part of `OS_ENABLED` whose failure is #UD (R21, R23, R79). -/
def osStateEnabled (c : Control) : Bool :=
  cr0PE c && !rflagsVM c && cr4OSXSAVE c && xcr0Enabled c

/-- `OS_ENABLED` (R23). -/
def osEnabled (c : Control) : Bool := osStateEnabled c && !cr0TS c

/-- `AC_ENABLED`: CR0.AM = 1, RFLAGS.AC = 1, CPL = 3 (R6, R30). -/
def acEnabled (c : Control) : Bool := cr0AM c && rflagsAC c && c.cpl == 3#2

/-! ## Raising a fault (R82, R85) -/

/-- The step ends with a fault that records `rip` and MXCSR at the fault: the state is the one before the
instruction, but for MXCSR flags already set (R82). The entry of the fault (IDT, stack frame) is not in the spec (R4). -/
def raise (mk : Quad → BitVec 32 → Fault) (s : State) : Result := .fault (mk s.rip s.mxcsr)

/-- The vector number of a fault (R76). -/
def faultVector : Fault → Nat
  | .ud _ _ => 6
  | .nm _ _ => 7
  | .ss _ _ => 12
  | .gp _ _ => 13
  | .pf _ _ _ _ => 14
  | .ac _ _ => 17
  | .xm _ _ => 19

/-- The error code of a fault, where it has one (R76). PRESUMED (log 34): 32 bits, a width the spec does not give. -/
def faultErrorCode : Fault → Option (BitVec 32)
  | .ss _ _ => some 0#32
  | .gp _ _ => some 0#32
  | .pf _ _ _ code => some code
  | .ac _ _ => some 0#32
  | .ud _ _ => none
  | .nm _ _ => none
  | .xm _ _ => none

/-- A required CPUID flag is 0 or the state is not enabled: #UD (R79). `narrow` is a 128- or 256-bit form, which
needs AVX512VL as well. -/
def platformUd (narrow : Bool) (s : State) : Bool :=
  !(osStateEnabled s.ctl && s.cpuid.avx512Fp16 && (!narrow || s.cpuid.avx512vl))

/-- The fault, if any, that the platform raises before any operand is looked at: the #UD conditions, then #NM when
CR0.TS = 1 (R79, R83). -/
def platformFault (narrow : Bool) (s : State) : Option (Quad → BitVec 32 → Fault) :=
  if platformUd narrow s then some .ud
  else if cr0TS s.ctl then some .nm
  else none

/-! ## Memory (R20, R25, R33, R34) -/

/-- What an address that no entry lists reads as (DESIGN CHOICE, UNSAFE; log 6). -/
def memUnlisted : Byte := 0#8

/-- The byte at an address. -/
def memGet : Memory → Nat → Byte
  | [], _ => memUnlisted
  | (b, v) :: rest, a => if a = b then v else memGet rest a

/-- Store a byte, keeping the canonical form: entries in rising order, none that reads as an unlisted byte does. -/
def memSet : Memory → Nat → Byte → Memory
  | [], a, v => if v = memUnlisted then [] else [(a, v)]
  | (b, w) :: rest, a, v =>
    if a < b then (if v = memUnlisted then (b, w) :: rest else (a, v) :: (b, w) :: rest)
    else if a = b then (if v = memUnlisted then rest else (a, v) :: rest)
    else (b, w) :: memSet rest a v

/-- `a` is above the bound, if there is one. -/
def memAbove : Option Nat → Nat → Bool
  | none, _ => true
  | some l, a => decide (l < a)

/-- Every address of the list is above `lo`, they rise strictly, each is a 64-bit address, and no entry holds what an
unlisted address reads as. -/
def memCanonFrom : Option Nat → Memory → Bool
  | _, [] => true
  | lo, (a, v) :: rest =>
    memAbove lo a && decide (a < 2 ^ 64) && v != memUnlisted && memCanonFrom (some a) rest

/-- The canonical form of memory: equal memories are equal lists. -/
def Memory.wf (m : Memory) : Bool := memCanonFrom none m

/-- The byte at a linear address. -/
def memRead (m : Memory) (a : Quad) : Byte := memGet m a.toNat

/-- Store a byte at a linear address. -/
def memWrite (m : Memory) (a : Quad) (v : Byte) : Memory := memSet m a.toNat v

/-- `MemRead(addr, 2)`: two bytes, little-endian, at two byte addresses (R25, R26). -/
def memRead16 (m : Memory) (lo hi : Quad) : Half := memRead m hi ++ memRead m lo

/-- Store a list of bytes at rising addresses given by a function of the position. -/
def memWriteList (m : Memory) (addr : Nat → Quad) : Nat → List Byte → Memory
  | _, [] => m
  | k, b :: rest => memWriteList (memWrite m (addr k) b) addr (k + 1) rest

/-- Whether a region holds an address. -/
def regionHolds (r : Region) (a : Quad) : Bool := decide (r.base ≤ a.toNat) && decide (a.toNat < r.base + r.size)

/-- The launch memory's verdict on a byte: none when it is plain readable memory (R34, D25). -/
def verdictOf (s : State) (a : Quad) : Option Verdict :=
  (s.regions.find? fun r => regionHolds r a).map Region.verdict

/-- A canonical linear address: the bits above bit 47 equal it (R29, `Config.linearBits`). -/
def canonical (a : Quad) : Bool :=
  (BitVec.signExtend 64 (a.extractLsb' 0 Config.linearBits)) == a

/-! ## Instruction pointer (R17, R73) -/

/-- `rip + L`, modulo `2^64` in 64-bit mode and `2^32` outside it (R17, D4). -/
def ripAdvance (s : State) (len : Nat) : Quad :=
  match modeOf s with
  | .mode64 => s.rip + BitVec.ofNat 64 len
  | .mode32 => ((s.rip + BitVec.ofNat 64 len).setWidth 32).setWidth 64
  | .mode16 => ((s.rip + BitVec.ofNat 64 len).setWidth 32).setWidth 64

/-! ## Fetch (R17, R20, R39) -/

/-- The linear address of instruction byte `k`: `rip + k` in 64-bit mode, `CS.base + eip + k` modulo `2^32` outside
it (PRESUMED for CS.base; log 22). -/
def fetchAddr (s : State) (k : Nat) : Quad :=
  match modeOf s with
  | .mode64 => s.rip + BitVec.ofNat 64 k
  | .mode32 => ((s.seg.cs.base + s.rip + BitVec.ofNat 64 k).setWidth 32).setWidth 64
  | .mode16 => ((s.seg.cs.base + s.rip + BitVec.ofNat 64 k).setWidth 32).setWidth 64

/-- Whether instruction byte `k` can be fetched: a canonical address in 64-bit mode, within the limit of CS outside
it, and plain readable memory (log 22). -/
def fetchable (s : State) (k : Nat) : Bool :=
  (match modeOf s with
    | .mode64 => canonical (fetchAddr s k)
    | .mode32 => decide (s.rip.toNat + k ≤ s.seg.cs.limit.toNat)
    | .mode16 => decide (s.rip.toNat + k ≤ s.seg.cs.limit.toNat)) &&
  (verdictOf s (fetchAddr s k)).isNone

/-- At most `fuel` instruction bytes from byte `k` on, up to the first that cannot be fetched. -/
def fetchFrom (s : State) : Nat → Nat → List Byte
  | 0, _ => []
  | fuel + 1, k =>
    if fetchable s k then memRead s.mem (fetchAddr s k) :: fetchFrom s fuel (k + 1) else []

/-- The bytes the decoder sees: at most 15 (R39). -/
def fetchWindow (s : State) : List Byte := fetchFrom s Config.maxLength 0

/-- The outcome of bytes that decode to no instruction (R51 to R53, R79; logs 13 and 16). DESIGN CHOICE (UNSAFE, log
33): the #GP(0) of an instruction over 15 bytes comes before the platform's #UD and #NM; R51 lists both outcomes and R83
gives the length no rank. -/
def decodeStop (e : DecodeError) (s : State) : Result :=
  match e with
  | .invalidOpcode _ => raise .ud s
  | .tooLong => raise .gp s
  | .truncated => .refused .fetchOutside
  | .otherInstruction => .refused .otherInstruction
  | .neighbour => .refused .neighbourInstruction
  | .bound => .refused .otherInstruction
  | .extendedOutside64 narrow =>
    if platformUd narrow s then raise .ud s else .refused .extendedOutside64
  | .addressing16 narrow =>
    match platformFault narrow s with
    | some mk => raise mk s
    | none => .refused .addressing16

/-- The instruction at `rip`, in the current mode (R5, R17, R72 (1)). -/
def decodeNext (s : State) : Except DecodeError Instr := decode (modeOf s) (fetchWindow s)

/-! ## The launch state (R24, R92) -/

/-- What an operating system has done before a program runs, in the bits that R21 numbers: R92 steps 1, 3, 4 and 5
(protected and 64-bit mode, OSXSAVE and XCR0, OSXMMEXCPT, TS = 0). A control state that is already enabled stays as
it is (log 4). -/
def launchControl (c : Control) : Control :=
  if osEnabled c then c
  else
    { c with
      cr0 := (c.cr0 ||| 1#64) &&& ~~~8#64
      cr4 := c.cr4 ||| 0x40400#64
      xcr0 := c.xcr0 ||| 0xE7#64
      rflags := c.rflags &&& ~~~0x20000#64
      efer := c.efer ||| 0x400#64
      csL := true
      csD := false }

/-- The regions that deny none of the bytes at which the next instruction is fetched. -/
def regionsOff (rs : List Region) (addrs : List Quad) : List Region :=
  rs.filter fun r => addrs.all fun a => !regionHolds r a

/-- Load an instruction's bytes where the next step fetches them, in a launched machine (log 4). -/
def loadInstruction (s : State) (bytes : List Byte) : State :=
  let s1 : State := { s with ctl := launchControl s.ctl }
  let addrs := (List.range bytes.length).map (fetchAddr s1)
  { s1 with
    mem := memWriteList s1.mem (fetchAddr s1) 0 bytes
    regions := regionsOff s1.regions addrs }

end Sys2Proof.Machine
end

