-- ==== Sys2Proof/Machine/Operands.lean ====
section
/-! DEFINITION. The operand forms: vector lengths, writemask, effective address, segment, the bytes a source reads and
the faults they raise, and the source elements (20_memory.md R25 to R34, 30_encoding.md R43 to R50). -/

namespace Sys2Proof.Machine

/-- The vector length of a form (R6, R50). -/
inductive VecLen where
  | v128
  | v256
  | v512
  deriving DecidableEq, Repr

/-- `KL = VL/16`, the number of elements (R6). -/
def lenKL : VecLen → Nat
  | .v128 => 8
  | .v256 => 16
  | .v512 => 32

/-- `VL/8`, the bytes of a full-vector operand (R27). -/
def lenBytes (vl : VecLen) : Nat := 2 * lenKL vl

/-- The 128- and 256-bit forms need AVX512VL (R2, R79). -/
def lenNarrow : VecLen → Bool
  | .v128 => true
  | .v256 => true
  | .v512 => false

/-- `k1[i] or *no writemask*` (R15, R47, R66). -/
def elemActive (s : State) (o : Operands) (i : Nat) : Bool :=
  o.mask == 0#3 || (kRead s o.mask).getLsbD i

/-! ## Effective address (R28, R43, R44) -/

/-- The factor `N` of a compressed disp8 (R44, tuple Full). -/
def dispScale (vl : VecLen) (broadcast : Bool) : Nat := if broadcast then 2 else lenBytes vl

/-- The displacement, sign-extended to 64 bits; a disp8 is multiplied by `N` (R28, R43). -/
def dispValue (n : Nat) : Disp → Quad
  | .zero => 0#64
  | .disp8 d => d.signExtend 64 * BitVec.ofNat 64 n
  | .disp32 d => d.signExtend 64

/-- `index * 2^scale`; index number 0100 means no index (R28). -/
def indexValue (s : State) (scale : BitVec 2) (index : BitVec 4) : Quad :=
  if index = 4#4 then 0#64 else gprRead s index <<< scale.toNat

/-- The sum base + index + displacement before it is cut to the address size. `next` is the address of the next
instruction; the `rip`-relative form is a plain disp32 outside 64-bit mode (R28, R53). -/
def addressSum (s : State) (n : Nat) (next : Quad) : Mem → Quad
  | .ripRel _ _ d => (if modeOf s = .mode64 then next else 0#64) + d.signExtend 64
  | .based _ base d => gprRead s base + dispValue n d
  | .sib scale index base d => gprRead s base + indexValue s scale index + dispValue n d
  | .sibNoBase _ scale index d => indexValue s scale index + d.signExtend 64

/-- The effective address: modulo `2^64`, or modulo `2^32` and zero-extended with 32-bit addressing (R28). Registers
read as their low 32 bits give the same sum modulo `2^32`. 16-bit addressing never gets here. -/
def effectiveAddress (s : State) (o : Operands) (n : Nat) (next : Quad) (a : Mem) : Quad :=
  match addrSizeOf (modeOf s) o.legacy with
  | .a64 => addressSum s n next a
  | .a32 => ((addressSum s n next a).setWidth 32).setWidth 64
  | .a16 => ((addressSum s n next a).setWidth 32).setWidth 64

/-! ## Segment and linear address (R28, R29) -/

/-- The segment registers by name. -/
inductive SegName where
  | es
  | cs
  | ss
  | ds
  | fs
  | gs
  deriving DecidableEq, Repr

/-- The segment register of a name. -/
def segGet (s : State) : SegName → Segment
  | .es => s.seg.es
  | .cs => s.seg.cs
  | .ss => s.seg.ss
  | .ds => s.seg.ds
  | .fs => s.seg.fs
  | .gs => s.seg.gs

/-- The segment a legacy byte names. R52 gives FS (64H) and GS (65H); PRESUMED (UNSAFE, log 31): 26H, 2EH, 36H and 3EH
are ES, CS, SS and DS. -/
def legacySeg : LegacyByte → Option SegName
  | .es => some .es
  | .cs => some .cs
  | .ss => some .ss
  | .ds => some .ds
  | .fs => some .fs
  | .gs => some .gs
  | .addrSize => none

/-- The base register of a memory operand, if it has one. -/
def memBase : Mem → Option (BitVec 4)
  | .ripRel _ _ _ => none
  | .based _ base _ => some base
  | .sib _ _ base _ => some base
  | .sibNoBase _ _ _ _ => none

/-- The segment used with no override: SS when the base register is RSP or RBP (R29). PRESUMED (UNSAFE outside 64-bit
mode, log 32): DS with any other base or none, which the spec does not say. -/
def defaultSeg (a : Mem) : SegName :=
  match memBase a with
  | some b => if b = 4#4 ∨ b = 5#4 then .ss else .ds
  | none => .ds

/-- The segment a memory operand uses. In 64-bit mode only FS and GS overrides change the address (R28, R52), and an
address with any override is not an SS access (R29); outside it the override decides. Of several overrides the last
counts (PRESUMED; logs 10, 11, 31, 32). -/
def segUsed (m : Mode) (legacy : List LegacyByte) (a : Mem) : SegName :=
  let overrides := legacy.filterMap legacySeg
  if overrides = [] then defaultSeg a
  else if m = .mode64 then
    ((overrides.filter fun g => g = .fs ∨ g = .gs).getLast?).getD .ds
  else (overrides.getLast?).getD .ds

/-- `segment_base` (R28): in 64-bit mode the base of FS or GS, else 0; outside it the base of the segment. -/
def segBase (s : State) (g : SegName) : Quad :=
  if modeOf s = .mode64 then
    match g with
    | .fs => s.seg.fs.base
    | .gs => s.seg.gs.base
    | .es => 0#64
    | .cs => 0#64
    | .ss => 0#64
    | .ds => 0#64
  else (segGet s g).base

/-- Where a memory operand lies: its segment and effective address. -/
structure Access where
  seg : SegName
  offset : Quad
  deriving DecidableEq, Repr

/-- The access of a memory operand of an instruction of `len` bytes (R28). -/
def accessOf (s : State) (vl : VecLen) (o : Operands) (len : Nat) (broadcast : Bool) (a : Mem) : Access :=
  { seg := segUsed (modeOf s) o.legacy a
    offset := effectiveAddress s o (dispScale vl broadcast) (ripAdvance s len) a }

/-- The linear address of byte `k` of an access: `A + k` with `A = segment_base + EA`, modulo `2^64` in 64-bit mode
and `2^32` outside it (R20, R28; log 17). -/
def byteAddr (s : State) (acc : Access) (k : Nat) : Quad :=
  let sum := segBase s acc.seg + acc.offset + BitVec.ofNat 64 k
  if modeOf s = .mode64 then sum else (sum.setWidth 32).setWidth 64

/-- Whether the address of byte `k` is legal: canonical in 64-bit mode; outside it the segment's type allows a read
and the offset is within its limit (R29). -/
def byteLegal (s : State) (acc : Access) (k : Nat) : Bool :=
  if modeOf s = .mode64 then canonical (byteAddr s acc k)
  else (segGet s acc.seg).readable && decide (acc.offset.toNat + k ≤ (segGet s acc.seg).limit.toNat)

/-! ## The bytes a source reads and their faults (R30 to R34, R81, R83) -/

/-- Whether element `i` of a memory source is read: it is active, or faults are not suppressed (R32). -/
def elemRead (s : State) (o : Operands) (i : Nat) : Bool := elemActive s o i || !Config.faultSuppression

/-- The byte positions of a full-vector source that are read: the two bytes of every element that is read (R32). -/
def fullOffsets (s : State) (vl : VecLen) (o : Operands) : List Nat :=
  ((List.range (lenKL vl)).filter (elemRead s o)).flatMap fun i => [2 * i, 2 * i + 1]

/-- The byte positions of a broadcast source that are read: its two bytes if some element is read (R32). -/
def bcstOffsets (s : State) (vl : VecLen) (o : Operands) : List Nat :=
  if (List.range (lenKL vl)).any (elemRead s o) then [0, 1] else []

/-- The denied bytes among those read, each with its verdict. -/
def deniedBytes (s : State) (acc : Access) (ks : List Nat) : List (Quad × Verdict) :=
  ks.filterMap fun k => (verdictOf s (byteAddr s acc k)).map fun v => (byteAddr s acc k, v)

/-- The lowest address among denied bytes, with its verdict (R81, D24). -/
def lowestDenied : List (Quad × Verdict) → Option (Quad × Verdict)
  | [] => none
  | d :: rest =>
    match lowestDenied rest with
    | none => some d
    | some e => if e.1.toNat < d.1.toNat then some e else some d

/-- A verdict of #GP(0) or #SS(0): the faults of the address, first in class (4) of R83. -/
def verdictAddress : Verdict → Bool
  | .pageFault _ => false
  | .generalProtection => true
  | .stackFault => true
  | .unnamed => false

/-- A verdict of #PF, second in class (4) of R83. -/
def verdictPage : Verdict → Bool
  | .pageFault _ => true
  | .generalProtection => false
  | .stackFault => false
  | .unnamed => false

/-- The denied byte whose named fault the access raises: the lowest with #GP(0) or #SS(0) if there is one, else the
lowest with #PF (R81, R83, D24; log 7). -/
def faultingByte (l : List (Quad × Verdict)) : Option (Quad × Verdict) :=
  match lowestDenied (l.filter fun d => verdictAddress d.2) with
  | some d => some d
  | none => lowestDenied (l.filter fun d => verdictPage d.2)

/-- The outcome a denied byte gives (R34, R81, U9). -/
def verdictStop (s : State) (d : Quad × Verdict) : Result :=
  match d.2 with
  | .pageFault code => raise (fun r m => .pf r m d.1 code) s
  | .generalProtection => raise .gp s
  | .stackFault => raise .ss s
  | .unnamed => .refused (.unnamedRegion d.1)

/-- The outcome, if any, that stops a data read of the byte positions `ks`, in the order of R83 class (4): an illegal
address is #SS(0) in SS and #GP(0) elsewhere (R29); then the launch memory's #GP(0) or #SS(0), then its #PF (R81); then
#AC(0) for a broadcast element at an odd address with alignment checking on (R30). DESIGN CHOICE (log 7): the refusal of
a byte that no fault is named for (U9) comes after every fault. -/
def readStop (s : State) (acc : Access) (broadcast : Bool) (ks : List Nat) : Option Result :=
  if ks.any fun k => !byteLegal s acc k then
    some (if acc.seg = .ss then raise .ss s else raise .gp s)
  else
    match faultingByte (deniedBytes s acc ks) with
    | some d => some (verdictStop s d)
    | none =>
      if broadcast && !ks.isEmpty && acEnabled s.ctl && (byteAddr s acc 0).getLsbD 0 then some (raise .ac s)
      else (lowestDenied (deniedBytes s acc ks)).map (verdictStop s)

/-- The outcome, if any, that stops the read of the source operand (R32, R81). -/
def sourceStop (s : State) (vl : VecLen) (o : Operands) (src : Source) (len : Nat) : Option Result :=
  match src with
  | .reg _ => none
  | .full a => readStop s (accessOf s vl o len false a) false (fullOffsets s vl o)
  | .bcst a => readStop s (accessOf s vl o len true a) true (bcstOffsets s vl o)

/-- Element `i` of an access: the two bytes at `A + 2i`, low byte first (R25, R26). -/
def memElem (s : State) (acc : Access) (i : Nat) : Half :=
  memRead16 s.mem (byteAddr s acc (2 * i)) (byteAddr s acc (2 * i + 1))

/-- `X.fp16[i]` (R7). -/
def lane (v : Lanes) (i : Nat) : Half := if h : i < 32 then v[i] else 0#16

/-- The source element that position `i` of the result is computed from (R27, R66): element 0 for a broadcast. -/
def sourceElem (s : State) (vl : VecLen) (o : Operands) (src : Source) (len : Nat) (i : Nat) : Half :=
  match src with
  | .reg n => lane (zmmRead s n) i
  | .full a => memElem s (accessOf s vl o len false a) i
  | .bcst a => memElem s (accessOf s vl o len true a) 0

end Sys2Proof.Machine
end

