-- ==== Sys2Proof/Machine/Flags.lean ====
section
/-! DEFINITION. MXCSR: its fields, the rounding mode, and the update of R71 (10_state.md R16, 00_scope.md R11,
40_vreduceph.md R56, R70, R71). -/

namespace Sys2Proof.Machine

/-- The rounding modes of R11. -/
inductive Rounding where
  /-- To nearest, ties to even. -/
  | rne
  /-- Down. -/
  | rd
  /-- Up. -/
  | ru
  /-- Toward zero. -/
  | rz
  deriving DecidableEq, Repr

/-- The two-bit codes of R11. -/
def roundingOf (c : BitVec 2) : Rounding :=
  if c = 0#2 then .rne
  else if c = 1#2 then .rd
  else if c = 2#2 then .ru
  else .rz

/-- MXCSR.IE, bit 0. -/
def mxIE (m : BitVec 32) : Bool := m.getLsbD 0
/-- MXCSR.PE, bit 5. -/
def mxPE (m : BitVec 32) : Bool := m.getLsbD 5
/-- MXCSR.IM, bit 7. -/
def mxIM (m : BitVec 32) : Bool := m.getLsbD 7
/-- MXCSR.PM, bit 12. -/
def mxPM (m : BitVec 32) : Bool := m.getLsbD 12
/-- MXCSR.RC, bits 14:13. -/
def mxRC (m : BitVec 32) : BitVec 2 := m.extractLsb' 13 2

/-- `M = imm8[7:4]` (R45). -/
def immM (imm : BitVec 8) : Nat := (imm.extractLsb' 4 4).toNat
/-- `spe = imm8[3]` (R45). -/
def immSpe (imm : BitVec 8) : Bool := imm.getLsbD 3

/-- The effective rounding mode: MXCSR.RC when `imm8[2] = 1`, else `imm8[1:0]` (R56). -/
def effectiveRounding (imm : BitVec 8) (mxcsr : BitVec 32) : Rounding :=
  roundingOf (if imm.getLsbD 2 then mxRC mxcsr else imm.extractLsb' 0 2)

/-- MXCSR with IE and PE ORed in; flags are sticky (R16, D9). -/
def mxSetFlags (m : BitVec 32) (ie pe : Bool) : BitVec 32 :=
  m ||| ((if ie then 0x01#32 else 0#32) ||| (if pe then 0x20#32 else 0#32))

/-- The new MXCSR and whether an unmasked exception is raised, from the ORed signals of the active elements (R71).
Under `{sae}` no flag is set and nothing is raised (R70). An unmasked Invalid comes first and leaves PE alone. -/
def simdUpdate (sae : Bool) (m : BitVec 32) (ie pe : Bool) : BitVec 32 × Bool :=
  if sae then (m, false)
  else if ie && !mxIM m then (mxSetFlags m true false, true)
  else (mxSetFlags m ie pe, pe && !mxPM m)

/-- The fault an unmasked SIMD floating-point exception is: #XM with CR4.OSXMMEXCPT = 1, #UD with 0 (R78, D29). -/
def simdFault (c : Control) : Quad → BitVec 32 → Fault :=
  if cr4OSXMMEXCPT c then .xm else .ud

end Sys2Proof.Machine
end

