-- ==== Sys2Proof/Machine/Reduce.lean ====
section
/-! DEFINITION. The element function `reduce_fp16` (40_vreduceph.md R56 to R64) over FP16 patterns (00_scope.md R10 to
R12). Every finite FP16 value, and every intermediate value, is an integer multiple of `2^-24` (R10, R60): values are
integers in units of `2^-24`, and all arithmetic is exact. -/

namespace Sys2Proof.Machine

/-! ## FP16 patterns (R10) -/

/-- `sign = h[15]`. -/
def fpSign (h : Half) : Bool := h.getLsbD 15
/-- `exp = h[14:10]`. -/
def fpExp (h : Half) : Nat := (h.extractLsb' 10 5).toNat
/-- `fraction = h[9:0]`. -/
def fpFraction (h : Half) : Nat := (h.extractLsb' 0 10).toNat

/-- A NaN: `exp = 31` and `fraction ≠ 0` (R10, R58). -/
def fpIsNaN (h : Half) : Bool := fpExp h == 31 && fpFraction h != 0
/-- A signalling NaN: `h[9] = 0` (R10). -/
def fpIsSNaN (h : Half) : Bool := fpIsNaN h && !h.getLsbD 9
/-- An infinity: `exp = 31` and `fraction = 0` (R10). -/
def fpIsInf (h : Half) : Bool := fpExp h == 31 && fpFraction h == 0
/-- A finite pattern. -/
def fpIsFinite (h : Half) : Bool := fpExp h != 31

/-- The magnitude of a finite pattern in units of `2^-24`: `fraction` for a denormal or zero, else
`(1024 + fraction) * 2^(exp-1)` (R10). -/
def fpMagnitude (h : Half) : Nat :=
  if fpExp h = 0 then fpFraction h else (1024 + fpFraction h) * 2 ^ (fpExp h - 1)

/-- `val(h)` of a finite pattern in units of `2^-24` (R10). -/
def fpUnits (h : Half) : Int := if fpSign h then -(fpMagnitude h : Int) else (fpMagnitude h : Int)

/-! ## Rounding (R11, R12) -/

/-- The nearest integer to `n / d` for `d > 0`, ties to even. -/
def roundNearest (n : Int) (d : Nat) : Int :=
  let q := n / (d : Int)
  let r := n % (d : Int)
  if 2 * r < (d : Int) then q
  else if (d : Int) < 2 * r then q + 1
  else if q % 2 = 0 then q
  else q + 1

/-- `RInt(n / d, rm)` for `d > 0` (R11): `n / d` is the floor and `-((-n) / d)` the ceiling. -/
def rint (n : Int) (d : Nat) (rm : Rounding) : Int :=
  match rm with
  | .rne => roundNearest n d
  | .rd => n / (d : Int)
  | .ru => -((-n) / (d : Int))
  | .rz => if 0 ≤ n then n / (d : Int) else -((-n) / (d : Int))

/-- The direction for the magnitude of a negative value: RD and RU change places (R12). -/
def mirror (rm : Rounding) : Rounding :=
  match rm with
  | .rne => .rne
  | .rd => .ru
  | .ru => .rd
  | .rz => .rz

/-- The pattern `sign ‖ E ‖ F` (R10, R12). -/
def fpPack (sign : Bool) (e f : Nat) : Half :=
  BitVec.ofBool sign ++ BitVec.ofNat 5 e ++ BitVec.ofNat 10 f

/-- `RFp16` of a non-zero value of `r` units of `2^-24`, `|r| ≤ 2^24`: the pattern and whether it is inexact (R12).
The spacing is `2^k` units with `k = max(floor(log2 |r|) - 10, 0)`; `N` is `|r| / 2^k` rounded; `N = 2048` carries. -/
def roundFp16 (r : Int) (rm : Rounding) : Half × Bool :=
  let sign := decide (r < 0)
  let a := r.natAbs
  let k := Nat.log2 a - 10
  let n := (rint (a : Int) (2 ^ k) (if sign then mirror rm else rm)).toNat
  let inexact := decide (n * 2 ^ k ≠ a)
  if n = 2048 then (fpPack sign (k + 2) 0, inexact)
  else if n < 1024 then (fpPack sign 0 n, inexact)
  else (fpPack sign (k + 1) (n - 1024), inexact)

/-! ## `reduce_fp16` (R57 to R62) -/

/-- What the element function returns: one pattern and two exception signals (R57). -/
structure ElemResult where
  value : Half
  ie : Bool
  pe : Bool
  deriving DecidableEq, Repr

/-- The spacing `2^-M` in units of `2^-24`. -/
def gridUnits (m : Nat) : Nat := 2 ^ (24 - m)

/-- The integer `t = RInt(2^M * x, rm)` for `x` of `u` units (R60): `2^M * x = u / 2^(24-M)`. -/
def roundedMultiple (u : Int) (m : Nat) (rm : Rounding) : Int := rint u (gridUnits m) rm

/-- The exact difference `r = x - t * 2^-M` in units (R60). -/
def reducedUnits (u : Int) (m : Nat) (rm : Rounding) : Int :=
  u - roundedMultiple u m rm * (gridUnits m : Int)

/-- The zero a zero result is: `-0.0` under RD, else `+0.0` (R61). -/
def zeroResult (rm : Rounding) : Half := if rm = .rd then 0x8000#16 else 0#16

/-- `PE_elem` (R62) under a policy: `final_subtraction_only` looks at the final rounding alone. -/
def precisionSignal (policy : PePolicy) (spe inexactRound inexactSub : Bool) : Bool :=
  match policy with
  | .finalSubtractionOnly => !spe && inexactSub
  | .roundStepOrSubtraction => !spe && (inexactRound || inexactSub)

/-- A finite source (R60, R61, R62). -/
def reduceFinite (src : Half) (imm : BitVec 8) (rm : Rounding) : ElemResult :=
  let u := fpUnits src
  let r := reducedUnits u (immM imm) rm
  let out := if r = 0 then (zeroResult rm, false) else roundFp16 r rm
  { value := out.1, ie := false,
    pe := precisionSignal Config.pePolicy (immSpe imm) (decide (r ≠ 0)) out.2 }

/-- `reduce_fp16(src, imm8)` under the rounding mode `rm`: NaN (R58), infinity (R59), finite (R60). -/
def reduceFp16 (src : Half) (imm : BitVec 8) (rm : Rounding) : ElemResult :=
  if fpIsNaN src then { value := src ||| 0x0200#16, ie := fpIsSNaN src, pe := false }
  else if fpIsInf src then { value := 0#16, ie := false, pe := false }
  else reduceFinite src imm rm

end Sys2Proof.Machine
end

