-- ==== Sys2Proof/Machine/Vreduceph.lean ====
section
/-! DEFINITION. The packed operation (40_vreduceph.md R66, R71, R72) and the meaning of each row of the table
(R67 to R70). -/

namespace Sys2Proof.Machine

/-- `reduce_fp16` of the source element of position `i` (R66). -/
def elemReduced (s : State) (vl : VecLen) (o : Operands) (src : Source) (len i : Nat) : ElemResult :=
  reduceFp16 (sourceElem s vl o src len i) o.imm (effectiveRounding o.imm s.mxcsr)

/-- Element `i` of the new destination (R66): active elements are reduced, masked-off elements are zeroed or kept,
and everything from `KL` up is cleared ("DEST[MAXVL-1:VL] := 0"). -/
def elemResult (s : State) (vl : VecLen) (o : Operands) (src : Source) (len i : Nat) : Half :=
  if i < lenKL vl then
    if elemActive s o i then (elemReduced s vl o src len i).value
    else if o.zeroing then 0#16
    else lane (zmmRead s o.dst) i
  else 0#16

/-- `IE_any` (R71): some active element signals Invalid. -/
def anyInvalid (s : State) (vl : VecLen) (o : Operands) (src : Source) (len : Nat) : Bool :=
  (List.range (lenKL vl)).any fun i => elemActive s o i && (elemReduced s vl o src len i).ie

/-- `PE_any` (R71): some active element signals Precision. -/
def anyPrecision (s : State) (vl : VecLen) (o : Operands) (src : Source) (len : Nat) : Bool :=
  (List.range (lenKL vl)).any fun i => elemActive s o i && (elemReduced s vl o src len i).pe

/-- MXCSR after the instruction and whether an unmasked exception is raised (R71). -/
def mxUpdate (s : State) (vl : VecLen) (sae : Bool) (o : Operands) (src : Source) (len : Nat) : BitVec 32 × Bool :=
  simdUpdate sae s.mxcsr (anyInvalid s vl o src len) (anyPrecision s vl o src len)

/-- The new destination register (R66). -/
def resultLanes (s : State) (vl : VecLen) (o : Operands) (src : Source) (len : Nat) : Lanes :=
  Vector.ofFn fun i => elemResult s vl o src len i.val

/-- The state a completed instruction leaves: the destination, MXCSR and `rip` (R73, R75). -/
def reduceDone (s : State) (vl : VecLen) (sae : Bool) (o : Operands) (src : Source) (len : Nat) : State :=
  { zmmWrite s o.dst (resultLanes s vl o src len) with
    mxcsr := (mxUpdate s vl sae o src len).1
    rip := ripAdvance s len }

/-- One execution in the order of R72: the platform's #UD and #NM, the source read, the elements, MXCSR and a possible
unmasked exception, the destination, `rip`. A fault leaves everything but MXCSR's flags as it was (R72, R82). -/
def reducePacked (vl : VecLen) (sae : Bool) (o : Operands) (src : Source) (len : Nat) (s : State) : Result :=
  match platformFault (lenNarrow vl) s with
  | some mk => raise mk s
  | none =>
    match sourceStop s vl o src len with
    | some r => r
    | none =>
      if (mxUpdate s vl sae o src len).2 then
        raise (simdFault s.ctl) { s with mxcsr := (mxUpdate s vl sae o src len).1 }
      else .next (reduceDone s vl sae o src len)

/-- `VREDUCEPH xmm1{k1}{z}, xmm2/m128/m16bcst, imm8` (R67). -/
def execVreducephXmm (o : Operands) (src : Source) (s : State) : Result :=
  reducePacked .v128 false o src (plainLength o src) s

/-- `VREDUCEPH ymm1{k1}{z}, ymm2/m256/m16bcst, imm8` (R68). -/
def execVreducephYmm (o : Operands) (src : Source) (s : State) : Result :=
  reducePacked .v256 false o src (plainLength o src) s

/-- `VREDUCEPH zmm1{k1}{z}, zmm2/m512/m16bcst, imm8` (R69). -/
def execVreducephZmm (o : Operands) (src : Source) (s : State) : Result :=
  reducePacked .v512 false o src (plainLength o src) s

/-- `VREDUCEPH zmm1{k1}{z}, zmm2{sae}, imm8` (R70): VL = 512 whatever L'L holds, no flag and no #XM; it needs
AVX512-FP16 only (R51). -/
def execVreducephZmmSae (o : Operands) (n : BitVec 5) (_ll : BitVec 2) (s : State) : Result :=
  reducePacked .v512 true o (.reg n) (plainLength o (.reg n)) s

end Sys2Proof.Machine
end

