-- ==== Sys2Proof/Machine/Dispatch.lean ====
section
/-! DEFINITION. One arm per constructor of Instr: each a direct call of its meaning. -/

namespace Sys2Proof.Machine

def exec (i : Instr) (s : State) : Host.Outcome State Fault Refusal :=
  match i with
  | .vreducephXmm o src => Sys2Proof.Machine.execVreducephXmm o src s
  | .vreducephYmm o src => Sys2Proof.Machine.execVreducephYmm o src s
  | .vreducephZmm o src => Sys2Proof.Machine.execVreducephZmm o src s
  | .vreducephZmmSae o n ll => Sys2Proof.Machine.execVreducephZmmSae o n ll s

end Sys2Proof.Machine
end

