-- ==== Sys2Proof/Machine/Step.lean ====
section
/-! DEFINITION. One step: decode the bytes at `rip` and execute the instruction, or stop (00_scope.md R5,
40_vreduceph.md R72, R73). -/

namespace Sys2Proof.Machine

/-- One step of the machine. A decoded instruction moves `rip` past its own bytes (R73); the step adds nothing. -/
def step (s : State) : Host.Outcome State Fault Refusal :=
  match decodeNext s with
  | .ok i => exec i s
  | .error e => decodeStop e s

/-- `s` launched (R92, log 4), with an instruction word of opcode_table.json's numbering stored where the next step
fetches. -/
def State.withFetchWord (s : State) (nbits w : Nat) : State := loadInstruction s (tableBytes nbits w)

end Sys2Proof.Machine
end

