-- ==== Sys2Proof/Safety.lean ====
section
/-! DEFINITION. The terms claims are stated in: when an instruction may run, when its source may be read, when no
unmasked exception arises, and what stays as it was. Each is written from the rules, not from the machine's own
definitions of its stops. -/

namespace Sys2Proof.Machine

/-- An instruction's vector length, `{sae}`, operands and source. -/
structure Shape where
  vl : VecLen
  sae : Bool
  o : Operands
  src : Source
  deriving DecidableEq, Repr

/-- The shape of each row of the table. -/
def shapeOf : Instr → Shape
  | .vreducephXmm o src => ⟨.v128, false, o, src⟩
  | .vreducephYmm o src => ⟨.v256, false, o, src⟩
  | .vreducephZmm o src => ⟨.v512, false, o, src⟩
  | .vreducephZmmSae o n _ => ⟨.v512, true, o, .reg n⟩

/-- Nothing of R79 stands in the way: `OS_ENABLED` (R23) and the CPUID flags the form needs (R2). -/
abbrev Enabled (narrow : Bool) (s : State) : Prop :=
  cr0PE s.ctl = true ∧ rflagsVM s.ctl = false ∧ cr4OSXSAVE s.ctl = true ∧
  s.ctl.xcr0.extractLsb' 1 2 = 3#2 ∧ s.ctl.xcr0.extractLsb' 5 3 = 7#3 ∧ cr0TS s.ctl = false ∧
  s.cpuid.avx512Fp16 = true ∧ (narrow = true → s.cpuid.avx512vl = true)

/-- Nothing of R79 makes a form #UD whatever its operands are: `OS_ENABLED` (R23) but for CR0.TS, and the CPUID flags. -/
abbrev NoPlatformUd (narrow : Bool) (s : State) : Prop :=
  cr0PE s.ctl = true ∧ rflagsVM s.ctl = false ∧ cr4OSXSAVE s.ctl = true ∧
  s.ctl.xcr0.extractLsb' 1 2 = 3#2 ∧ s.ctl.xcr0.extractLsb' 5 3 = 7#3 ∧
  s.cpuid.avx512Fp16 = true ∧ (narrow = true → s.cpuid.avx512vl = true)

/-- An encoding with these bytes `P2` and ModRM is a 128- or 256-bit form: L'L is not 10, and it is not `b` = 1 with a
register source, which is the 512-bit `{sae}` form whatever L'L holds (R49, R50). -/
abbrev narrowEncoding (p2 modrm : Byte) : Bool :=
  p2.extractLsb' 5 2 != 2#2 && !(p2.getLsbD 4 && modrm.extractLsb' 6 2 == 3#2)

/-- Byte `k` of an access may be read: its address is legal (R29) and memory is plain there (R33, R34). -/
abbrev ByteReadable (s : State) (acc : Access) (k : Nat) : Prop :=
  byteLegal s acc k = true ∧ verdictOf s (byteAddr s acc k) = none

/-- The source may be read: nothing for a register; the two bytes of every active element of a full vector; the two
bytes of a broadcast element that some active element uses, and then no alignment check hits (R30, R32, R81). -/
abbrev SourceReadable (s : State) (vl : VecLen) (o : Operands) (len : Nat) : Source → Prop
  | .reg _ => True
  | .full a => ∀ i < lenKL vl, elemActive s o i = true →
      ByteReadable s (accessOf s vl o len false a) (2 * i) ∧ ByteReadable s (accessOf s vl o len false a) (2 * i + 1)
  | .bcst a => (∃ i < lenKL vl, elemActive s o i = true) →
      ByteReadable s (accessOf s vl o len true a) 0 ∧ ByteReadable s (accessOf s vl o len true a) 1 ∧
      ¬(cr0AM s.ctl = true ∧ rflagsAC s.ctl = true ∧ s.ctl.cpl = 3#2 ∧
        (byteAddr s (accessOf s vl o len true a) 0).getLsbD 0 = true)

/-- The memory operand of a source, if it has one. -/
def sourceMem : Source → Option Mem
  | .reg _ => none
  | .full a => some a
  | .bcst a => some a

/-- Byte `k` of the access `acc` is one the source operand reads: a byte of an active element of a full vector, or one
of the two bytes of a broadcast element that some active element uses (R27, R32). -/
abbrev SourceByte (s : State) (vl : VecLen) (o : Operands) (len : Nat) (acc : Access) (k : Nat) : Source → Prop
  | .reg _ => False
  | .full a => acc = accessOf s vl o len false a ∧
      ∃ i < lenKL vl, elemActive s o i = true ∧ (k = 2 * i ∨ k = 2 * i + 1)
  | .bcst a => acc = accessOf s vl o len true a ∧ (∃ i < lenKL vl, elemActive s o i = true) ∧ (k = 0 ∨ k = 1)

/-- Byte `k` of `acc` is one the instruction `i` reads. -/
abbrev ReadsByte (s : State) (i : Instr) (acc : Access) (k : Nat) : Prop :=
  SourceByte s (shapeOf i).vl (shapeOf i).o i.length acc k (shapeOf i).src

/-- SS is the segment of a memory operand with no override: its base register is RSP or RBP (R29). -/
abbrev StackBased (src : Source) : Prop :=
  (sourceMem src).bind memBase = some 4#4 ∨ (sourceMem src).bind memBase = some 5#4

/-- Element `i` of the source is reduced with the signals of R57. -/
abbrev ElemSignals (s : State) (vl : VecLen) (o : Operands) (src : Source) (len i : Nat) : ElemResult :=
  reduceFp16 (sourceElem s vl o src len i) o.imm (effectiveRounding o.imm s.mxcsr)

/-- Some active element signals Invalid (R71). -/
abbrev SignalsInvalid (s : State) (vl : VecLen) (o : Operands) (src : Source) (len : Nat) : Prop :=
  ∃ i < lenKL vl, elemActive s o i = true ∧ (ElemSignals s vl o src len i).ie = true

/-- Some active element signals Precision (R71). -/
abbrev SignalsPrecision (s : State) (vl : VecLen) (o : Operands) (src : Source) (len : Nat) : Prop :=
  ∃ i < lenKL vl, elemActive s o i = true ∧ (ElemSignals s vl o src len i).pe = true

/-- Every exception that an active element signals is masked (R71). -/
abbrev SignalsMasked (s : State) (vl : VecLen) (o : Operands) (src : Source) (len : Nat) : Prop :=
  (SignalsInvalid s vl o src len → mxIM s.mxcsr = true) ∧
  (SignalsPrecision s vl o src len → mxPM s.mxcsr = true)

/-- The destination register after the instruction, element by element (R66). -/
abbrev DestinationIs (s t : State) (vl : VecLen) (o : Operands) (src : Source) (len : Nat) : Prop :=
  (∀ i < lenKL vl, elemActive s o i = true →
    lane (zmmRead t o.dst) i = (ElemSignals s vl o src len i).value) ∧
  (∀ i < lenKL vl, elemActive s o i = false → o.zeroing = true → lane (zmmRead t o.dst) i = 0#16) ∧
  (∀ i < lenKL vl, elemActive s o i = false → o.zeroing = false →
    lane (zmmRead t o.dst) i = lane (zmmRead s o.dst) i) ∧
  (∀ i < 32, lenKL vl ≤ i → lane (zmmRead t o.dst) i = 0#16)

/-- MXCSR after a completed instruction that reports exceptions (R71): IE and PE are ORed in, nothing else moves. -/
abbrev FlagsReported (s t : State) (vl : VecLen) (o : Operands) (src : Source) (len : Nat) : Prop :=
  (mxIE t.mxcsr = true ↔ mxIE s.mxcsr = true ∨ SignalsInvalid s vl o src len) ∧
  (mxPE t.mxcsr = true ↔ mxPE s.mxcsr = true ∨ SignalsPrecision s vl o src len) ∧
  (∀ j, j ≠ 0 → j ≠ 5 → t.mxcsr.getLsbD j = s.mxcsr.getLsbD j)

/-- What a completed instruction leaves as it was (R75): every other vector register, the opmask, general and segment
registers, every byte of memory, the memory map, the control state, the feature flags, and MXCSR but for IE and PE. -/
abbrev FrameKept (s t : State) (dst : BitVec 5) : Prop :=
  (∀ n, n ≠ dst → zmmRead t n = zmmRead s n) ∧ t.k = s.k ∧ t.gpr = s.gpr ∧ t.seg = s.seg ∧
  (∀ a, memRead t.mem a = memRead s.mem a) ∧ t.regions = s.regions ∧ t.ctl = s.ctl ∧ t.cpuid = s.cpuid ∧
  (∀ j, j ≠ 0 → j ≠ 5 → t.mxcsr.getLsbD j = s.mxcsr.getLsbD j)

/-- The bytes R52 accepts before `62H`: the segment overrides and 67H. -/
abbrev AcceptedLegacy (b : Byte) : Prop :=
  b ∈ [0x26#8, 0x2E#8, 0x36#8, 0x3E#8, 0x64#8, 0x65#8, 0x67#8]

/-- The bytes that R52 makes #UD before `62H`: 66H, F2H, F3H, F0H and 40H to 4FH. -/
abbrev ForbiddenLegacy (b : Byte) : Prop :=
  b ∈ [0x66#8, 0xF2#8, 0xF3#8, 0xF0#8] ∨ b.extractLsb' 4 4 = 4#4

/-- A displacement in bytes (R28, R43, R44): a disp8 is sign-extended and multiplied by VL/8, or by 2 for a
broadcast; a disp32 is sign-extended. -/
abbrev dispOffset (vl : VecLen) (broadcast : Bool) : Disp → Quad
  | .zero => 0#64
  | .disp8 d => d.signExtend 64 * BitVec.ofNat 64 (if broadcast = true then 2 else 2 * lenKL vl)
  | .disp32 d => d.signExtend 64

/-- The index term of an address (R28): register number 0100 is no index, another is multiplied by `2^scale`. -/
abbrev indexOffset (s : State) (scale : BitVec 2) (index : BitVec 4) : Quad :=
  if index = 4#4 then 0#64 else gprRead s index * BitVec.ofNat 64 (2 ^ scale.toNat)

/-- The new `rip` (R17, R73): `rip + L` modulo `2^64` in 64-bit mode and modulo `2^32` outside it. -/
abbrev RipAdvanced (s t : State) (len : Nat) : Prop :=
  (modeOf s = .mode64 → t.rip.toNat = (s.rip.toNat + len) % 2 ^ 64) ∧
  (modeOf s ≠ .mode64 → t.rip.toNat = (s.rip.toNat + len) % 2 ^ 32)

/-- Everything a completed form that reports exceptions does (R66, R71, R73, R75). -/
abbrev CompletedAs (s t : State) (vl : VecLen) (o : Operands) (src : Source) (len : Nat) : Prop :=
  DestinationIs s t vl o src len ∧ FlagsReported s t vl o src len ∧ RipAdvanced s t len ∧ FrameKept s t o.dst

/-- The invariant of the machine: memory is in its canonical form (R20), MXCSR's reserved bits are zero (R16), and the
instruction pointer is 32 bits wide outside 64-bit mode (R17). -/
def StateInv (s : State) : Prop :=
  Memory.wf s.mem = true ∧ s.mxcsr.extractLsb' 16 16 = 0#16 ∧
  (modeOf s ≠ .mode64 → s.rip.extractLsb' 32 32 = 0#32)

end Sys2Proof.Machine
end

