-- ==== Sys2Proof/Certificates/Slice0/Obligations.lean ====
section
/-! DEFINITION. The statements for the provers, from the numbered rules of spec/. Forms are named through `shapeOf`:
its `vl`, `sae`, `o` and `src` are the vector length, the `{sae}` bit, the operands and the source of each of the four
constructors of Instr. -/

open Sys2Proof Sys2Proof.Machine

/-! ## Decoding and encoding -/

/-- R5, R72 (1): a step at bytes that decode to an instruction is that instruction's execution; the step adds nothing
around it, and `rip` is moved by the instruction itself (R73). -/
def Obligations.StepRunsDecodedInstruction : Prop :=
  ∀ s i, decode (modeOf s) (fetchWindow s) = .ok i → step s = exec i s

/-- R5, R17, R39: when the bytes of a well-formed instruction stand at the addresses the step fetches from and can be
fetched, the step executes that instruction, whatever follows it, in every mode. In 64-bit mode those addresses are
`rip + k` (R17). Outside it they are CS.base + eip + k modulo `2^32`, within the limit of CS: that part is the model's
choice (log 22, PRESUMED), and so is what can be fetched. -/
def Obligations.StoredInstructionRuns : Prop :=
  ∀ (s : State) (i : Instr), i.wf (modeOf s) = true →
    (∀ k < i.length, fetchable s k = true ∧ (encode i)[k]? = some (memRead s.mem (fetchAddr s k))) →
    step s = exec i s

/-- R39 to R50: decoding the encoding of a well-formed instruction of any form, in any mode, with every operand at every
value and any bytes after it, gives that instruction. -/
def Obligations.DecodeOfEncode : Prop :=
  ∀ (m : Mode) (i : Instr) (rest : List Byte), i.wf m = true → decode m (encode i ++ rest) = .ok i

/-- R39 to R53: bytes that decode are the encoding of the instruction they decode to, which is well-formed in the mode:
no bit of an accepted encoding is dropped. -/
def Obligations.EncodeOfDecode : Prop :=
  ∀ (m : Mode) (bs : List Byte) (i : Instr), decode m bs = .ok i →
    i.wf m = true ∧ bs.take i.length = encode i

/-- R17, R39: an instruction has 7 to 15 bytes. -/
def Obligations.LengthBetweenSevenAndFifteen : Prop :=
  ∀ (m : Mode) (i : Instr), i.wf m = true → 7 ≤ i.length ∧ i.length ≤ 15

/-- R41, R44, R54: words written out in the spec decode to the instructions it says they are. -/
def Obligations.WordsOfTheSpecDecode : Prop :=
  decode .mode64 [0x62#8, 0xF3#8, 0x7C#8, 0x08#8, 0x56#8, 0xCA#8, 0x00#8] =
    .ok (.vreducephXmm ⟨[], 1#5, 0#3, false, 0x00#8⟩ (.reg 2#5)) ∧
  decode .mode64 [0x62#8, 0x73#8, 0x7C#8, 0x2A#8, 0x56#8, 0xCB#8, 0x4B#8] =
    .ok (.vreducephYmm ⟨[], 9#5, 2#3, false, 0x4B#8⟩ (.reg 3#5)) ∧
  decode .mode64 [0x62#8, 0xF3#8, 0x7C#8, 0x48#8, 0x56#8, 0x48#8, 0x01#8, 0x04#8] =
    .ok (.vreducephZmm ⟨[], 1#5, 0#3, false, 0x04#8⟩ (.full (.based false 0#4 (.disp8 0x01#8)))) ∧
  decode .mode64 [0x62#8, 0x83#8, 0x7C#8, 0x9F#8, 0x56#8, 0xCE#8, 0x08#8] =
    .ok (.vreducephZmmSae ⟨[], 17#5, 7#3, true, 0x08#8⟩ 30#5 0#2)

/-- R51, U2: in every mode in which the bytes are an EVEX encoding, after any accepted legacy bytes, an encoding of map
0F3A with opcode 56H and `pp` ≠ 01 that has one of the illegal patterns is #UD, with `rip` and MXCSR as they were;
stored `V'` = 0 is such a pattern in 64-bit mode. The model's choice: W = 1 and `pp` = 10 or 11 are illegal in every
combination (log 14, DEDUCED), the bytes after ModRM need not be fetchable for the pattern to decide (log 22, DESIGN
CHOICE), and where the same bytes are also over 15 bytes long the pattern's #UD wins over the #GP(0) of R39 and R51
(log 13, DESIGN CHOICE). -/
def Obligations.IllegalPatternsAreInvalidOpcode : Prop :=
  ∀ (s : State) (ls : List Byte) (p0 p1 p2 modrm : Byte) (rest : List Byte), (∀ b ∈ ls, AcceptedLegacy b) →
    fetchWindow s = ls ++ 0x62#8 :: p0 :: p1 :: p2 :: 0x56#8 :: modrm :: rest →
    (modeOf s = .mode64 ∨ p0.extractLsb' 6 2 = 3#2) →
    p0.extractLsb' 0 3 = 3#3 → p1.extractLsb' 0 2 ≠ 1#2 →
    (p0.getLsbD 3 = true ∨ p1.getLsbD 2 = false ∨ p1.extractLsb' 0 2 ≠ 0#2 ∨ p1.getLsbD 7 = true ∨
      p1.extractLsb' 3 4 ≠ 15#4 ∨ (modeOf s = .mode64 ∧ p2.getLsbD 3 = false) ∨
      (p2.extractLsb' 5 2 = 3#2 ∧ ¬(p2.getLsbD 4 = true ∧ modrm.extractLsb' 6 2 = 3#2)) ∨
      (p2.getLsbD 7 = true ∧ p2.extractLsb' 0 3 = 0#3)) →
    step s = .fault (.ud s.rip s.mxcsr)

/-- R52, U3: one of the bytes 66H, F2H, F3H, F0H, 40H to 4FH anywhere among the legacy bytes before a VREDUCEPH is #UD,
in every mode. That 40H to 4FH are so outside 64-bit mode too is the model's literal reading of R52 (log 15, DEDUCED). -/
def Obligations.ForbiddenLegacyByteIsInvalidOpcode : Prop :=
  ∀ (s : State) (bs : List Byte) (i : Instr) (rest : List Byte), i.wf (modeOf s) = true →
    (∀ b ∈ bs, AcceptedLegacy b ∨ ForbiddenLegacy b) → (∃ b ∈ bs, ForbiddenLegacy b) →
    fetchWindow s = bs ++ (encode i ++ rest) → step s = .fault (.ud s.rip s.mxcsr)

/-- R4, R51, U5: bytes of another instruction are refused, in every mode and after any legacy bytes. `pp` = 01 with map
0F3A and opcode 56H is VREDUCEPS or VREDUCEPD; an EVEX encoding of another map (`P0[2:0]` ≠ 011) or with another opcode
byte is another instruction, and so is a first byte that is no legacy byte and not 62H. That such bytes are refused and
not #UD when a byte of R52's #UD rows stands in front is the model's choice (log 13), and so is that an EVEX encoding
needs its ModRM byte to be told apart (log 22). -/
def Obligations.OtherInstructionsAreRefused : Prop :=
  ∀ (s : State) (ls : List Byte), (∀ b ∈ ls, AcceptedLegacy b ∨ ForbiddenLegacy b) →
    (∀ (p0 p1 p2 modrm : Byte) (rest : List Byte),
      fetchWindow s = ls ++ 0x62#8 :: p0 :: p1 :: p2 :: 0x56#8 :: modrm :: rest → p0.extractLsb' 0 3 = 3#3 →
      (modeOf s = .mode64 ∨ p0.extractLsb' 6 2 = 3#2) → p1.extractLsb' 0 2 = 1#2 →
      step s = .refused .neighbourInstruction) ∧
    (∀ (p0 p1 p2 op modrm : Byte) (rest : List Byte),
      fetchWindow s = ls ++ 0x62#8 :: p0 :: p1 :: p2 :: op :: modrm :: rest →
      (modeOf s = .mode64 ∨ p0.extractLsb' 6 2 = 3#2) → (p0.extractLsb' 0 3 ≠ 3#3 ∨ op ≠ 0x56#8) →
      step s = .refused .otherInstruction) ∧
    (∀ (b : Byte) (rest : List Byte), fetchWindow s = ls ++ b :: rest →
      ¬AcceptedLegacy b → ¬ForbiddenLegacy b → b ≠ 0x62#8 → step s = .refused .otherInstruction)

/-- R39, R51, R76: in every mode, legacy bytes before a VREDUCEPH that make it longer than 15 bytes give #GP(0): `i` is
the instruction without them, its fields good in the mode and a memory source's address size, which they select, not 16
bits. That it does so even where the platform is not enabled is the model's choice (log 33). -/
def Obligations.OverlongInstructionIsGeneralProtection : Prop :=
  ∀ (s : State) (ls : List LegacyByte) (i : Instr), (shapeOf i).o.legacy = [] →
    (shapeOf i).o.wf (modeOf s) = true → (shapeOf i).src.wfIn (modeOf s) ls = true → 15 < ls.length + i.length →
    fetchWindow s = (ls.map LegacyByte.code ++ encode i).take 15 → step s = .fault (.gp s.rip s.mxcsr)

/-- R53, U6: outside 64-bit mode `62H` with the next two bits not 11 is BOUND and refused; and an otherwise legal
encoding that stores `B`, `R'` or `V'` as 0, after any accepted legacy bytes, is refused when the platform raises no #UD
for a form of its length (a 128- or 256-bit form needs AVX512VL too; CR0.TS plays no part). That the platform's #UD
comes before that refusal is the model's choice (log 16), and so are the refusal of BOUND after a byte of R52's #UD rows
(log 13) and that the bytes after ModRM need not be fetchable (log 22). -/
def Obligations.ExtensionBitsOutsideSixtyFourBitMode : Prop :=
  (∀ (s : State) (ls : List Byte) (p0 : Byte) (rest : List Byte), modeOf s ≠ .mode64 →
    (∀ b ∈ ls, AcceptedLegacy b ∨ ForbiddenLegacy b) → fetchWindow s = ls ++ 0x62#8 :: p0 :: rest →
    p0.extractLsb' 6 2 ≠ 3#2 → step s = .refused .otherInstruction) ∧
  (∀ (s : State) (ls : List Byte) (p0 p2 modrm : Byte) (rest : List Byte), modeOf s ≠ .mode64 →
    (∀ b ∈ ls, AcceptedLegacy b) →
    fetchWindow s = ls ++ 0x62#8 :: p0 :: 0x7C#8 :: p2 :: 0x56#8 :: modrm :: rest →
    p0.extractLsb' 6 2 = 3#2 → p0.extractLsb' 0 4 = 3#4 →
    (p2.extractLsb' 5 2 ≠ 3#2 ∨ (p2.getLsbD 4 = true ∧ modrm.extractLsb' 6 2 = 3#2)) →
    (p2.getLsbD 7 = false ∨ p2.extractLsb' 0 3 ≠ 0#3) →
    (p0.getLsbD 5 = false ∨ p0.getLsbD 4 = false ∨ p2.getLsbD 3 = false) →
    (NoPlatformUd (narrowEncoding p2 modrm) s → step s = .refused .extendedOutside64) ∧
    (¬NoPlatformUd (narrowEncoding p2 modrm) s → step s = .fault (.ud s.rip s.mxcsr)))

/-- R4, R53, U6: with 67H and 32-bit default addressing, or without it and 16-bit default addressing (log 16), a legal
encoding with a memory source, after any accepted legacy bytes, uses 16-bit addressing and is refused on a platform that
is enabled for a form of its length. The bytes after ModRM may be anything, too many or not fetchable (logs 13, 22). -/
def Obligations.SixteenBitAddressingIsRefused : Prop :=
  ∀ (s : State) (ls : List Byte) (p2 modrm : Byte) (rest : List Byte), (∀ b ∈ ls, AcceptedLegacy b) →
    (modeOf s = .mode32 ∧ 0x67#8 ∈ ls ∨ modeOf s = .mode16 ∧ 0x67#8 ∉ ls) →
    fetchWindow s = ls ++ 0x62#8 :: 0xF3#8 :: 0x7C#8 :: p2 :: 0x56#8 :: modrm :: rest →
    modrm.extractLsb' 6 2 ≠ 3#2 → p2.getLsbD 3 = true → p2.extractLsb' 5 2 ≠ 3#2 →
    (p2.getLsbD 7 = false ∨ p2.extractLsb' 0 3 ≠ 0#3) → Enabled (p2.extractLsb' 5 2 != 2#2) s →
    step s = .refused .addressing16

/-- R92 (log 4): in a machine launched into 64-bit mode, with canonical addresses, the word that `withFetchWord` stores
is the instruction the very next step executes. -/
def Obligations.LoadedWordRunsNext : Prop :=
  ∀ (s : State) (nbits w : Nat) (i : Instr), Memory.wf s.mem = true →
    modeOf (s.withFetchWord nbits w) = .mode64 →
    (∀ k < 15, canonical (s.rip + BitVec.ofNat 64 k) = true) → decodeTableWord nbits w = some i →
    step (s.withFetchWord nbits w) = exec i (s.withFetchWord nbits w)

/-- R83, U17 (log 22): fetch faults are outside the model. When the first byte at which the step fetches cannot be
fetched the step is refused; and so is a well-formed instruction whose first `n` bytes can be fetched and whose byte `n`,
before its end, cannot. -/
def Obligations.UnfetchableCodeIsRefused : Prop :=
  (∀ s, fetchable s 0 = false → step s = .refused .fetchOutside) ∧
  (∀ (s : State) (i : Instr) (n : Nat), i.wf (modeOf s) = true → n < i.length →
    (∀ k < n, fetchable s k = true ∧ (encode i)[k]? = some (memRead s.mem (fetchAddr s k))) →
    fetchable s n = false → step s = .refused .fetchOutside)

/-! ## Reset and the invariant -/

/-- R24: the reset values the spec gives: MXCSR = 1F80H, XCR0 = 1, and CR0.TS, CR4.OSXSAVE, CR4.OSXMMEXCPT = 0. -/
def Obligations.ResetHoldsTheSpecsValues : Prop :=
  State.reset.mxcsr = 0x1F80#32 ∧ State.reset.ctl.xcr0 = 1#64 ∧ cr0TS State.reset.ctl = false ∧
  cr4OSXSAVE State.reset.ctl = false ∧ cr4OSXMMEXCPT State.reset.ctl = false

/-- The state after reset meets the invariant (its memory, MXCSR and `rip`; the values are those of logs 2 and 6). -/
def Obligations.ResetMeetsInvariant : Prop := StateInv State.reset

/-- R16, R17, R20, R36, R37: from every state that meets the invariant, a step that answers a next state gives one that
meets it: memory stays canonical, MXCSR's reserved bits stay zero, and `rip` stays 32 bits wide outside 64-bit mode. -/
def Obligations.StepKeepsInvariant : Prop := ∀ s t, StateInv s → step s = .next t → StateInv t

/-- R75, R36, R37, R17: what a step does not do, over all instructions. A step that answers a next state has decoded an
instruction; it writes no opmask, general or segment register, no memory byte, no control state; of the vector registers
only that instruction's destination changes; it changes no MXCSR bit but IE and PE and clears neither; and `rip` moves by
that instruction's length, 7 to 15 bytes. -/
def Obligations.StepChangesOnlyItsDestination : Prop :=
  ∀ s t, step s = .next t →
    ∃ i, decodeNext s = .ok i ∧ FrameKept s t (shapeOf i).o.dst ∧
      (mxIE s.mxcsr = true → mxIE t.mxcsr = true) ∧ (mxPE s.mxcsr = true → mxPE t.mxcsr = true) ∧
      7 ≤ i.length ∧ i.length ≤ 15 ∧ RipAdvanced s t i.length

/-! ## The four forms -/

/-- R66, R67, R71 to R75: the 128-bit form, for every source (register, full vector, broadcast), with or without a
writemask, merging or zeroing: enabled, with a readable source and no unmasked exception, it completes; elements 0 to 7
are reduced, zeroed or kept, elements 8 to 31 are cleared, IE and PE are ORed in, `rip` advances, all else is kept. -/
def Obligations.XmmFormCompletes : Prop :=
  ∀ (s : State) (o : Operands) (src : Source), Enabled true s →
    SourceReadable s .v128 o (Instr.length (.vreducephXmm o src)) src →
    SignalsMasked s .v128 o src (Instr.length (.vreducephXmm o src)) →
    ∃ t, exec (.vreducephXmm o src) s = .next t ∧
      CompletedAs s t .v128 o src (Instr.length (.vreducephXmm o src))

/-- R66, R68, R71 to R75: the 256-bit form, for every source. -/
def Obligations.YmmFormCompletes : Prop :=
  ∀ (s : State) (o : Operands) (src : Source), Enabled true s →
    SourceReadable s .v256 o (Instr.length (.vreducephYmm o src)) src →
    SignalsMasked s .v256 o src (Instr.length (.vreducephYmm o src)) →
    ∃ t, exec (.vreducephYmm o src) s = .next t ∧
      CompletedAs s t .v256 o src (Instr.length (.vreducephYmm o src))

/-- R66, R69, R71 to R75: the 512-bit form, for every source; AVX512VL is not needed. -/
def Obligations.ZmmFormCompletes : Prop :=
  ∀ (s : State) (o : Operands) (src : Source), Enabled false s →
    SourceReadable s .v512 o (Instr.length (.vreducephZmm o src)) src →
    SignalsMasked s .v512 o src (Instr.length (.vreducephZmm o src)) →
    ∃ t, exec (.vreducephZmm o src) s = .next t ∧
      CompletedAs s t .v512 o src (Instr.length (.vreducephZmm o src))

/-- R49, R66, R70: the `{sae}` form, whatever L'L holds: enabled, it always completes; all 32 elements are computed
with the rounding mode of R56, and MXCSR is unchanged even when every exception is unmasked. -/
def Obligations.SaeFormCompletes : Prop :=
  ∀ (s : State) (o : Operands) (n : BitVec 5) (ll : BitVec 2), Enabled false s →
    ∃ t, exec (.vreducephZmmSae o n ll) s = .next t ∧
      DestinationIs s t .v512 o (.reg n) (Instr.length (.vreducephZmmSae o n ll)) ∧
      t.mxcsr = s.mxcsr ∧ RipAdvanced s t (Instr.length (.vreducephZmmSae o n ll)) ∧ FrameKept s t o.dst

/-- R75: the frame of all four forms. A completed VREDUCEPH leaves every register but its destination, every MXCSR bit
but IE and PE, RFLAGS and the rest of the control state, and every byte of memory as they were (no form stores). -/
def Obligations.CompletedFormsKeepTheFrame : Prop :=
  ∀ (i : Instr) (s t : State), exec i s = .next t → FrameKept s t (shapeOf i).o.dst

/-- R70: the elements of the `{sae}` form are those of the plain 512-bit register form. -/
def Obligations.SaeGivesThePlainResult : Prop :=
  ∀ (s t : State) (o : Operands) (n : BitVec 5) (ll : BitVec 2),
    exec (.vreducephZmm o (.reg n)) s = .next t →
    ∃ u, exec (.vreducephZmmSae o n ll) s = .next u ∧ u.zmm = t.zmm ∧ u.rip = t.rip ∧ u.mxcsr = s.mxcsr

/-- R14, R94: after the 128-bit form the whole destination register is its low 128 bits, after the 256-bit form its low
256 bits: everything above VL is zero, whatever the mask. -/
def Obligations.NarrowFormsClearTheUpperBits : Prop :=
  (∀ (s t : State) (o : Operands) (src : Source), exec (.vreducephXmm o src) s = .next t →
    lanesBits (zmmRead t o.dst) 32 = (xmmRead t o.dst).toNat) ∧
  (∀ (s t : State) (o : Operands) (src : Source), exec (.vreducephYmm o src) s = .next t →
    lanesBits (zmmRead t o.dst) 32 = (ymmRead t o.dst).toNat)

/-- R23, R79: every form is #UD when a condition of `OS_ENABLED` but TS, or a CPUID flag the form needs, fails; else
#NM when CR0.TS = 1. -/
def Obligations.DisabledPlatformFaults : Prop :=
  (∀ (i : Instr) (s : State),
    (cr0PE s.ctl = false ∨ rflagsVM s.ctl = true ∨ cr4OSXSAVE s.ctl = false ∨ s.ctl.xcr0.extractLsb' 1 2 ≠ 3#2 ∨
      s.ctl.xcr0.extractLsb' 5 3 ≠ 7#3 ∨ s.cpuid.avx512Fp16 = false ∨
      (lenNarrow (shapeOf i).vl = true ∧ s.cpuid.avx512vl = false)) →
    exec i s = .fault (.ud s.rip s.mxcsr)) ∧
  (∀ (i : Instr) (s : State),
    Enabled (lenNarrow (shapeOf i).vl) { s with ctl := { s.ctl with cr0 := s.ctl.cr0 &&& ~~~8#64 } } →
    cr0TS s.ctl = true → exec i s = .fault (.nm s.rip s.mxcsr))

/-- R71, R78: an unmasked Invalid in an active element of a plain form faults with IE set and PE as it was, even when
another element is inexact: #XM with CR4.OSXMMEXCPT = 1, #UD with 0. Nothing but that flag has changed. -/
def Obligations.UnmaskedInvalidFaults : Prop :=
  ∀ (i : Instr) (s : State), (shapeOf i).sae = false → Enabled (lenNarrow (shapeOf i).vl) s →
    SourceReadable s (shapeOf i).vl (shapeOf i).o i.length (shapeOf i).src →
    SignalsInvalid s (shapeOf i).vl (shapeOf i).o (shapeOf i).src i.length → mxIM s.mxcsr = false →
    exec i s = .fault (if cr4OSXMMEXCPT s.ctl = true then .xm s.rip (s.mxcsr ||| 1#32)
      else .ud s.rip (s.mxcsr ||| 1#32))

/-- R71, R78: with no unmasked Invalid, an unmasked Precision of an active element of a plain form faults with PE set,
and IE too where a masked Invalid is signalled; every other MXCSR bit is as it was. -/
def Obligations.UnmaskedPrecisionFaults : Prop :=
  ∀ (i : Instr) (s : State), (shapeOf i).sae = false → Enabled (lenNarrow (shapeOf i).vl) s →
    SourceReadable s (shapeOf i).vl (shapeOf i).o i.length (shapeOf i).src →
    (SignalsInvalid s (shapeOf i).vl (shapeOf i).o (shapeOf i).src i.length → mxIM s.mxcsr = true) →
    SignalsPrecision s (shapeOf i).vl (shapeOf i).o (shapeOf i).src i.length → mxPM s.mxcsr = false →
    ∃ m, exec i s = .fault (if cr4OSXMMEXCPT s.ctl = true then .xm s.rip m else .ud s.rip m) ∧
      mxPE m = true ∧
      (mxIE m = true ↔ mxIE s.mxcsr = true ∨
        SignalsInvalid s (shapeOf i).vl (shapeOf i).o (shapeOf i).src i.length) ∧
      (∀ j, j ≠ 0 → j ≠ 5 → m.getLsbD j = s.mxcsr.getLsbD j)

/-- R32: with a memory source and no active element nothing is read and nothing can fault: the plain forms complete
wherever the operand lies, and leave the flags as they were. -/
def Obligations.NoActiveElementReadsNothing : Prop :=
  ∀ (i : Instr) (s : State), (shapeOf i).sae = false → Enabled (lenNarrow (shapeOf i).vl) s →
    (∀ j < lenKL (shapeOf i).vl, elemActive s (shapeOf i).o j = false) →
    ∃ t, exec i s = .next t ∧ t.mxcsr = s.mxcsr ∧
      (∀ j < lenKL (shapeOf i).vl, lane (zmmRead t (shapeOf i).o.dst) j =
        if (shapeOf i).o.zeroing = true then 0#16 else lane (zmmRead s (shapeOf i).o.dst) j)

/-! ## What an instruction does not depend on -/

/-- R15: only mask bits below KL count: changing the others changes nothing but the opmask registers themselves. -/
def Obligations.MaskBitsAboveKLAreIgnored : Prop :=
  ∀ (i : Instr) (s t : State) (k' : Vector Quad 8),
    (∀ (n : Fin 8) (j : Nat), j < lenKL (shapeOf i).vl → k'[n].getLsbD j = s.k[n].getLsbD j) →
    exec i s = .next t → exec i { s with k := k' } = .next { t with k := k' }

/-- R32, R66: the bytes of masked-off elements of a full-vector source are not read: changing them changes nothing but
memory itself. -/
def Obligations.MaskedOffBytesAreNotRead : Prop :=
  ∀ (i : Instr) (a : Mem) (s t : State) (m' : Memory), (shapeOf i).src = .full a →
    (∀ j < lenKL (shapeOf i).vl, elemActive s (shapeOf i).o j = true →
      memRead m' (byteAddr s (accessOf s (shapeOf i).vl (shapeOf i).o i.length false a) (2 * j)) =
        memRead s.mem (byteAddr s (accessOf s (shapeOf i).vl (shapeOf i).o i.length false a) (2 * j)) ∧
      memRead m' (byteAddr s (accessOf s (shapeOf i).vl (shapeOf i).o i.length false a) (2 * j + 1)) =
        memRead s.mem (byteAddr s (accessOf s (shapeOf i).vl (shapeOf i).o i.length false a) (2 * j + 1))) →
    exec i s = .next t → exec i { s with mem := m' } = .next { t with mem := m' }

/-- R16, R64: DAZ, FTZ, the masks but IM and PM, and the flags are not consulted: two MXCSR values that agree in RC, IM
and PM give the same registers and `rip`, and each keeps its own bits but IE and PE. -/
def Obligations.OtherMxcsrBitsAreNotConsulted : Prop :=
  ∀ (i : Instr) (s t : State) (m' : BitVec 32), mxRC m' = mxRC s.mxcsr → mxIM m' = mxIM s.mxcsr →
    mxPM m' = mxPM s.mxcsr → exec i s = .next t →
    ∃ u, exec i { s with mxcsr := m' } = .next u ∧ u.zmm = t.zmm ∧ u.rip = t.rip ∧
      (∀ j, j ≠ 0 → j ≠ 5 → u.mxcsr.getLsbD j = m'.getLsbD j)

/-- R52: with a register source, segment overrides and 67H change nothing but the length: two executions whose operands
differ only in the accepted legacy bytes write the same registers and MXCSR. -/
def Obligations.LegacyBytesDoNotChangeARegisterForm : Prop :=
  ∀ (i : Instr) (s t : State) (n : BitVec 5) (ls : List LegacyByte), (shapeOf i).src = .reg n →
    exec i s = .next t →
    ∃ u, (match i with
        | .vreducephXmm o src => exec (.vreducephXmm { o with legacy := ls } src) s
        | .vreducephYmm o src => exec (.vreducephYmm { o with legacy := ls } src) s
        | .vreducephZmm o src => exec (.vreducephZmm { o with legacy := ls } src) s
        | .vreducephZmmSae o n ll => exec (.vreducephZmmSae { o with legacy := ls } n ll) s) = .next u ∧
      u.zmm = t.zmm ∧ u.mxcsr = t.mxcsr ∧ RipAdvanced s u (ls.length + 7)

/-! ## Memory operands -/

/-- R28, R43, R44: in 64-bit mode with no 67H and no FS or GS override, where byte `k` of the operand lies, for every
form: base plus displacement, base plus scaled index plus displacement, scaled index without base, and relative to the
next instruction. A disp8 is multiplied by VL/8, or by 2 for a broadcast; index number 0100 is no index. That byte `k`
wraps at `2^64` with the sum is the model's reading (log 17, DEDUCED). -/
def Obligations.LinearAddressInSixtyFourBitMode : Prop :=
  ∀ (s : State) (vl : VecLen) (o : Operands) (len k : Nat) (bc : Bool), modeOf s = .mode64 →
    LegacyByte.addrSize ∉ o.legacy → LegacyByte.fs ∉ o.legacy → LegacyByte.gs ∉ o.legacy →
    (∀ x base d, byteAddr s (accessOf s vl o len bc (.based x base d)) k =
      gprRead s base + dispOffset vl bc d + BitVec.ofNat 64 k) ∧
    (∀ scale index base d, byteAddr s (accessOf s vl o len bc (.sib scale index base d)) k =
      gprRead s base + indexOffset s scale index + dispOffset vl bc d + BitVec.ofNat 64 k) ∧
    (∀ b scale index d, byteAddr s (accessOf s vl o len bc (.sibNoBase b scale index d)) k =
      indexOffset s scale index + d.signExtend 64 + BitVec.ofNat 64 k) ∧
    (∀ x b d, byteAddr s (accessOf s vl o len bc (.ripRel x b d)) k =
      s.rip + BitVec.ofNat 64 len + d.signExtend 64 + BitVec.ofNat 64 k)

/-- R28, R52: in 64-bit mode an FS or GS override adds that segment's base to every byte address, and 67H cuts the
effective address to 32 bits. -/
def Obligations.SegmentBaseAndAddressSizeOverride : Prop :=
  ∀ (s : State) (vl : VecLen) (o : Operands) (len k : Nat) (bc : Bool) (a : Mem), modeOf s = .mode64 →
    o.legacy = [] →
    (byteAddr s (accessOf s vl { o with legacy := [.fs] } len bc a) k =
      s.seg.fs.base + byteAddr s (accessOf s vl o len bc a) k) ∧
    (byteAddr s (accessOf s vl { o with legacy := [.gs] } len bc a) k =
      s.seg.gs.base + byteAddr s (accessOf s vl o len bc a) k) ∧
    (byteAddr s (accessOf s vl { o with legacy := [.addrSize] } len bc a) 0 =
      ((byteAddr s (accessOf s vl o len bc a) 0).setWidth 32).setWidth 64)

/-- R25, R26, R27: element `i` of a full-vector source is the two bytes at `A + 2i`, low byte first; every element of a
broadcast source is the two bytes at `A`. -/
def Obligations.MemoryElementsAreLittleEndian : Prop :=
  ∀ (s : State) (vl : VecLen) (o : Operands) (len i : Nat) (a : Mem),
    (sourceElem s vl o (.full a) len i).toNat =
      (memRead s.mem (byteAddr s (accessOf s vl o len false a) (2 * i))).toNat +
        256 * (memRead s.mem (byteAddr s (accessOf s vl o len false a) (2 * i + 1))).toNat ∧
    (sourceElem s vl o (.bcst a) len i).toNat =
      (memRead s.mem (byteAddr s (accessOf s vl o len true a) 0)).toNat +
        256 * (memRead s.mem (byteAddr s (accessOf s vl o len true a) 1)).toNat

/-- R34, R81, R83: when every byte the instruction reads has a legal address and none has an address fault of the launch
memory, a byte with a page fault below which no other has one makes the instruction raise #PF with that address and
code, whatever else the operand meets (alignment, memory with no named fault). This holds for full-vector and broadcast
sources of the three plain forms (a register source reads no byte). The verdicts stand for paging (log 7, DEDUCED). -/
def Obligations.PageFaultReportsTheLowestAddress : Prop :=
  ∀ (i : Instr) (s : State) (acc : Access) (k : Nat) (code : BitVec 32), Enabled (lenNarrow (shapeOf i).vl) s →
    ReadsByte s i acc k → (∀ n, ReadsByte s i acc n → byteLegal s acc n = true) →
    (∀ n, ReadsByte s i acc n → verdictOf s (byteAddr s acc n) ≠ some .generalProtection ∧
      verdictOf s (byteAddr s acc n) ≠ some .stackFault) →
    verdictOf s (byteAddr s acc k) = some (.pageFault code) →
    (∀ n c, ReadsByte s i acc n → verdictOf s (byteAddr s acc n) = some (.pageFault c) →
      (byteAddr s acc k).toNat ≤ (byteAddr s acc n).toNat) →
    exec i s = .fault (.pf s.rip s.mxcsr (byteAddr s acc k) code)

/-- R31, D25, U9 of 93_implementation_defined.md: when every byte the instruction reads has a legal address, no byte has
a named fault and no alignment check hits, the lowest byte to which the launch memory gives no fault (a device, say)
makes the instruction refused with its address. That the refusal comes after every fault is the model's choice (log 7). -/
def Obligations.UnnamedMemoryIsRefused : Prop :=
  ∀ (i : Instr) (s : State) (acc : Access) (k : Nat), Enabled (lenNarrow (shapeOf i).vl) s →
    ReadsByte s i acc k → (∀ n, ReadsByte s i acc n → byteLegal s acc n = true) →
    (∀ n, ReadsByte s i acc n →
      verdictOf s (byteAddr s acc n) = none ∨ verdictOf s (byteAddr s acc n) = some .unnamed) →
    ((∀ a, (shapeOf i).src ≠ .bcst a) ∨ ¬(cr0AM s.ctl = true ∧ rflagsAC s.ctl = true ∧ s.ctl.cpl = 3#2) ∨
      (byteAddr s acc 0).getLsbD 0 = false) →
    verdictOf s (byteAddr s acc k) = some .unnamed →
    (∀ n, ReadsByte s i acc n → verdictOf s (byteAddr s acc n) = some .unnamed →
      (byteAddr s acc k).toNat ≤ (byteAddr s acc n).toNat) →
    exec i s = .refused (.unnamedRegion (byteAddr s acc k))

/-- R29, R76: in 64-bit mode a byte the instruction reads at a non-canonical address is #SS(0) when the base register is
RSP or RBP and there is no segment override, else #GP(0) (log 9: the rule, and not the refusal of decision D20; log 10:
any override). That it comes before a launch-memory fault or refusal of another byte is the model's choice (log 7). -/
def Obligations.NonCanonicalAddressFaults : Prop :=
  ∀ (i : Instr) (s : State) (acc : Access) (k : Nat), Enabled (lenNarrow (shapeOf i).vl) s → modeOf s = .mode64 →
    ReadsByte s i acc k → canonical (byteAddr s acc k) = false →
    exec i s = .fault
      (if StackBased (shapeOf i).src ∧ (∀ p ∈ (shapeOf i).o.legacy, p = .addrSize) then .ss s.rip s.mxcsr
        else .gp s.rip s.mxcsr)

/-- R29, R76: outside 64-bit mode a byte the instruction reads beyond its segment's limit, or through a segment whose
type allows no read, is #SS(0) in SS and #GP(0) in another segment; with no override the segment is SS for a base of ESP
or EBP, and DS otherwise (log 32); a last override names it (logs 11 and 31). Limit and type are log 12's.
That they come before a launch-memory fault or refusal of another byte is the model's choice (log 7). -/
def Obligations.SegmentLimitAndTypeFault : Prop :=
  (∀ (i : Instr) (s : State) (acc : Access) (k : Nat), Enabled (lenNarrow (shapeOf i).vl) s → modeOf s ≠ .mode64 →
    ReadsByte s i acc k →
    (segGet s acc.seg).limit.toNat < acc.offset.toNat + k ∨ (segGet s acc.seg).readable = false →
    exec i s = .fault (if acc.seg = .ss then .ss s.rip s.mxcsr else .gp s.rip s.mxcsr)) ∧
  (∀ (s : State) (vl : VecLen) (o : Operands) (len : Nat) (bc : Bool) (a : Mem), modeOf s ≠ .mode64 →
    (∀ p ∈ o.legacy, p = .addrSize) →
    (accessOf s vl o len bc a).seg = if memBase a = some 4#4 ∨ memBase a = some 5#4 then .ss else .ds) ∧
  (∀ (s : State) (vl : VecLen) (o : Operands) (len : Nat) (bc : Bool) (a : Mem) (before after : List LegacyByte)
    (p : LegacyByte) (g : SegName), modeOf s ≠ .mode64 → o.legacy = before ++ p :: after →
    legacySeg p = some g → (∀ q ∈ after, q = .addrSize) → (accessOf s vl o len bc a).seg = g)

/-- R30: with alignment checking on, a broadcast element at an odd address that is otherwise readable and used is
#AC(0). And nothing else is: an instruction that raises #AC(0) has a broadcast source, alignment checking on, an active
element and an odd address, and leaves `rip` and MXCSR as they were; so no register or full-vector source raises it,
none at an even address, and none without an active element. The address whose parity counts is the linear address of
the element (log 21, DEDUCED: the model's choice). -/
def Obligations.AlignmentCheckOnlyForBroadcast : Prop :=
  (∀ (i : Instr) (a : Mem) (s : State), (shapeOf i).src = .bcst a → Enabled (lenNarrow (shapeOf i).vl) s →
    (∃ j < lenKL (shapeOf i).vl, elemActive s (shapeOf i).o j = true) →
    ByteReadable s (accessOf s (shapeOf i).vl (shapeOf i).o i.length true a) 0 →
    ByteReadable s (accessOf s (shapeOf i).vl (shapeOf i).o i.length true a) 1 →
    cr0AM s.ctl = true → rflagsAC s.ctl = true → s.ctl.cpl = 3#2 →
    (byteAddr s (accessOf s (shapeOf i).vl (shapeOf i).o i.length true a) 0).getLsbD 0 = true →
    exec i s = .fault (.ac s.rip s.mxcsr)) ∧
  (∀ (i : Instr) (s : State) (r : Quad) (m : BitVec 32), exec i s = .fault (.ac r m) →
    r = s.rip ∧ m = s.mxcsr ∧ cr0AM s.ctl = true ∧ rflagsAC s.ctl = true ∧ s.ctl.cpl = 3#2 ∧
    (∃ j < lenKL (shapeOf i).vl, elemActive s (shapeOf i).o j = true) ∧
    ∃ a, (shapeOf i).src = .bcst a ∧
      (byteAddr s (accessOf s (shapeOf i).vl (shapeOf i).o i.length true a) 0).getLsbD 0 = true)

/-! ## The element function -/

/-- R11: the four codes, and what each mode rounds `n / d` to: the greatest integer below or at it, the least above or
at it, the one toward zero, the nearest with ties to the even one. -/
def Obligations.RoundingModesRoundAsNamed : Prop :=
  (roundingOf 0#2 = .rne ∧ roundingOf 1#2 = .rd ∧ roundingOf 2#2 = .ru ∧ roundingOf 3#2 = .rz) ∧
  ∀ (n : Int) (d : Nat), 0 < d →
    (rint n d .rd * d ≤ n ∧ n < (rint n d .rd + 1) * d) ∧
    ((rint n d .ru - 1) * d < n ∧ n ≤ rint n d .ru * d) ∧
    (rint n d .rz = if 0 ≤ n then rint n d .rd else rint n d .ru) ∧
    (2 * (n - rint n d .rne * d).natAbs ≤ d ∧
      (2 * (n - rint n d .rne * d).natAbs = d → rint n d .rne % 2 = 0))

/-- R45, R56: the control fields: `M` is `imm8[7:4]`, `spe` is `imm8[3]`, and the rounding mode is MXCSR.RC when
`imm8[2] = 1` and `imm8[1:0]` when it is 0. -/
def Obligations.RoundingModeSelection : Prop :=
  ∀ (imm : BitVec 8) (m : BitVec 32),
    immM imm = imm.toNat / 16 ∧ (immSpe imm = true ↔ imm.toNat / 8 % 2 = 1) ∧
    effectiveRounding imm m =
      if imm.toNat / 4 % 2 = 1 then roundingOf (BitVec.ofNat 2 (m.toNat / 2 ^ 13))
      else roundingOf (BitVec.ofNat 2 imm.toNat)

/-- R12: rounding to FP16 is correct rounding with gradual underflow: the result is finite with the sign of `r`, inexact
says whether it differs from `r`, RD, RU and RZ give the closest value on their side, RNE the closest one, with an even
fraction on a tie. -/
def Obligations.RoundToFp16IsCorrectRounding : Prop :=
  ∀ (r : Int) (rm : Rounding), r ≠ 0 → r.natAbs ≤ 2 ^ 24 →
    fpIsFinite (roundFp16 r rm).1 = true ∧ fpSign (roundFp16 r rm).1 = decide (r < 0) ∧
    ((roundFp16 r rm).2 = true ↔ fpUnits (roundFp16 r rm).1 ≠ r) ∧
    (rm = .rd → fpUnits (roundFp16 r rm).1 ≤ r ∧
      ∀ h, fpIsFinite h = true → fpUnits h ≤ r → fpUnits h ≤ fpUnits (roundFp16 r rm).1) ∧
    (rm = .ru → r ≤ fpUnits (roundFp16 r rm).1 ∧
      ∀ h, fpIsFinite h = true → r ≤ fpUnits h → fpUnits (roundFp16 r rm).1 ≤ fpUnits h) ∧
    (rm = .rz → (fpUnits (roundFp16 r rm).1).natAbs ≤ r.natAbs ∧
      ∀ h, fpIsFinite h = true → (fpUnits h).natAbs ≤ r.natAbs →
        (fpUnits h).natAbs ≤ (fpUnits (roundFp16 r rm).1).natAbs) ∧
    (rm = .rne → ∀ h, fpIsFinite h = true →
      (fpUnits (roundFp16 r rm).1 - r).natAbs ≤ (fpUnits h - r).natAbs ∧
      ((fpUnits (roundFp16 r rm).1 - r).natAbs = (fpUnits h - r).natAbs →
        fpUnits h ≠ fpUnits (roundFp16 r rm).1 → fpFraction (roundFp16 r rm).1 % 2 = 0))

/-- R58: a NaN source gives the same pattern with bit 9 set, signals Invalid exactly when bit 9 was clear, and never
Precision; neither `imm8` nor the rounding mode plays a part. -/
def Obligations.NanSourceIsQuieted : Prop :=
  ∀ (src : Half) (imm : BitVec 8) (rm : Rounding),
    src.extractLsb' 10 5 = 31#5 → src.extractLsb' 0 10 ≠ 0#10 →
    (∀ j < 16, (reduceFp16 src imm rm).value.getLsbD j = (src.getLsbD j || decide (j = 9))) ∧
    (reduceFp16 src imm rm).ie = !src.getLsbD 9 ∧ (reduceFp16 src imm rm).pe = false

/-- R59: an infinite source of either sign gives +0.0 in every rounding mode and signals nothing. -/
def Obligations.InfiniteSourceGivesPlusZero : Prop :=
  ∀ (src : Half) (imm : BitVec 8) (rm : Rounding), src = 0x7C00#16 ∨ src = 0xFC00#16 →
    reduceFp16 src imm rm = ⟨0x0000#16, false, false⟩

/-- R61: a zero source of either sign, and a finite source that is a multiple of `2^-M`, give +0.0, or -0.0 under RD,
and signal nothing. -/
def Obligations.ZeroResultTakesTheModesSign : Prop :=
  ∀ (src : Half) (imm : BitVec 8) (rm : Rounding), fpIsFinite src = true →
    (src = 0x0000#16 ∨ src = 0x8000#16 ∨ fpUnits src % (2 ^ (24 - immM imm) : Nat) = 0) →
    reduceFp16 src imm rm = ⟨if rm = .rd then 0x8000#16 else 0x0000#16, false, false⟩

/-- R60, R62: for a finite source the difference `r = x - t * 2^-M` with `t = RInt(2^M x, rm)`: the Precision signal is
raised exactly when `imm8[3]` = 0 and the result is not `r` itself; the rounding to the integer `t` alone signals
nothing (PE_POLICY of decision D8; log 18). -/
def Obligations.PrecisionSignalIsTheFinalRoundings : Prop :=
  ∀ (src : Half) (imm : BitVec 8) (rm : Rounding), fpIsFinite src = true →
    ((reduceFp16 src imm rm).pe = true ↔ imm.getLsbD 3 = false ∧
      fpUnits (reduceFp16 src imm rm).value ≠
        fpUnits src - rint (fpUnits src) (2 ^ (24 - immM imm)) rm * (2 ^ (24 - immM imm) : Nat)) ∧
    (reduceFp16 src imm rm).ie = false

/-- R60, R63: under RNE and RZ the result is exactly `x - t * 2^-M`, with `t` the nearest integer to `2^M x` (ties to
even) or the one toward zero, and Precision is never signalled; under the other modes it is signalled only for RU with a
positive source and RD with a negative one. -/
def Obligations.NearestAndTowardZeroAreExact : Prop :=
  ∀ (src : Half) (imm : BitVec 8) (rm : Rounding), fpIsFinite src = true →
    (rm = .rne → (reduceFp16 src imm rm).pe = false ∧ ∃ t : Int,
      fpUnits (reduceFp16 src imm rm).value = fpUnits src - t * (2 ^ (24 - immM imm) : Nat) ∧
      2 * (fpUnits src - t * (2 ^ (24 - immM imm) : Nat)).natAbs ≤ 2 ^ (24 - immM imm) ∧
      (2 * (fpUnits src - t * (2 ^ (24 - immM imm) : Nat)).natAbs = 2 ^ (24 - immM imm) → t % 2 = 0)) ∧
    (rm = .rz → (reduceFp16 src imm rm).pe = false ∧ ∃ t : Int,
      fpUnits (reduceFp16 src imm rm).value = fpUnits src - t * (2 ^ (24 - immM imm) : Nat) ∧
      (t * (2 ^ (24 - immM imm) : Nat)).natAbs ≤ (fpUnits src).natAbs ∧
      (fpUnits src - t * (2 ^ (24 - immM imm) : Nat)).natAbs < 2 ^ (24 - immM imm)) ∧
    ((reduceFp16 src imm rm).pe = true →
      (rm = .ru ∧ 0 < fpUnits src) ∨ (rm = .rd ∧ fpUnits src < 0))

/-- R63: the magnitude bounds of the Description: at most `2^(-M-1)` under RNE, below `2^-M` otherwise; the result of a
finite source is finite. -/
def Obligations.ReducedResultIsBounded : Prop :=
  ∀ (src : Half) (imm : BitVec 8) (rm : Rounding), fpIsFinite src = true →
    fpIsFinite (reduceFp16 src imm rm).value = true ∧
    (rm = .rne → 2 * (fpUnits (reduceFp16 src imm rm).value).natAbs ≤ 2 ^ (24 - immM imm)) ∧
    (rm ≠ .rne → (fpUnits (reduceFp16 src imm rm).value).natAbs < 2 ^ (24 - immM imm))

/-- R63: a source of magnitude at least `2^(10-M)` has no bit below `2^-M`: the result is a zero. -/
def Obligations.LargeSourcesGiveZero : Prop :=
  ∀ (src : Half) (imm : BitVec 8) (rm : Rounding), fpIsFinite src = true →
    2 ^ (34 - immM imm) ≤ (fpUnits src).natAbs →
    reduceFp16 src imm rm = ⟨if rm = .rd then 0x8000#16 else 0x0000#16, false, false⟩

/-- R65: the rows of Table 5-30 as recovered, and the RZ case below it. Zero sources and zero results follow the zero
rows. -/
def Obligations.SpecialCasesTable : Prop :=
  ∀ (src : Half) (imm : BitVec 8) (rm : Rounding),
    (fpIsFinite src = true → fpUnits src ≠ 0 →
      (rm = .rne → 2 * (fpUnits src).natAbs < 2 ^ (24 - immM imm) → (reduceFp16 src imm rm).value = src) ∧
      ((fpUnits src).natAbs < 2 ^ (24 - immM imm) →
        (rm = .ru → 0 < fpUnits src →
          (reduceFp16 src imm rm).value = (roundFp16 (fpUnits src - (2 ^ (24 - immM imm) : Nat)) .ru).1) ∧
        (rm = .ru → fpUnits src < 0 → (reduceFp16 src imm rm).value = src) ∧
        (rm = .rd → 0 < fpUnits src → (reduceFp16 src imm rm).value = src) ∧
        (rm = .rd → fpUnits src < 0 →
          (reduceFp16 src imm rm).value = (roundFp16 (fpUnits src + (2 ^ (24 - immM imm) : Nat)) .rd).1) ∧
        (rm = .rz → (reduceFp16 src imm rm).value = src))) ∧
    (fpIsFinite src = true → fpUnits src = 0 ∨ fpUnits (reduceFp16 src imm rm).value = 0 →
      (reduceFp16 src imm rm).value = if rm = .rd then 0x8000#16 else 0x0000#16) ∧
    (fpIsInf src = true → (reduceFp16 src imm rm).value = 0x0000#16) ∧
    (fpIsNaN src = true → (reduceFp16 src imm rm).value = src ||| 0x0200#16)

/-! ## Operands and faults, continued -/

/-- R47, R15: the writemask. `aaa` = 000 makes every element active; `aaa` = 001 to 111 makes element `i` active exactly
when bit `i` of `K[aaa]` is 1. -/
def Obligations.WritemaskSelection : Prop :=
  ∀ (s : State) (o : Operands) (i : Nat),
    (o.mask = 0#3 → elemActive s o i = true) ∧
    (o.mask ≠ 0#3 → elemActive s o i = (s.k[o.mask.toNat]'o.mask.isLt).getLsbD i)

/-- R7, R46: element `i` of a register source is bits `16i+15` to `16i` of the 512-bit number that register
`X ‖ B ‖ rm` holds, for every vector length. -/
def Obligations.RegisterSourceElements : Prop :=
  ∀ (s : State) (vl : VecLen) (o : Operands) (n : BitVec 5) (len i : Nat), i < 32 →
    (sourceElem s vl o (.reg n) len i).toNat = lanesBits (s.zmm[n.toNat]'n.isLt) 32 / 2 ^ (16 * i) % 2 ^ 16

/-- R7, R46, R47, R48, R66: the destination of a completed register form, of all four forms, from the source register's
512 bits and the mask register's bits themselves: element `j` below KL is reduced when `aaa` = 000 or bit `j` of
`K[aaa]` is 1, else zero when `z` = 1 and the old element when `z` = 0; elements from KL up are zero. -/
def Obligations.RegisterFormElements : Prop :=
  ∀ (i : Instr) (s t : State) (n : BitVec 5), (shapeOf i).src = .reg n → exec i s = .next t →
    ∀ j < 32, lane (zmmRead t (shapeOf i).o.dst) j =
      if j < lenKL (shapeOf i).vl then
        if (shapeOf i).o.mask = 0#3 ∨
            (s.k[(shapeOf i).o.mask.toNat]'(shapeOf i).o.mask.isLt).getLsbD j = true then
          (reduceFp16 (BitVec.ofNat 16 (lanesBits (s.zmm[n.toNat]'n.isLt) 32 / 2 ^ (16 * j))) (shapeOf i).o.imm
            (effectiveRounding (shapeOf i).o.imm s.mxcsr)).value
        else if (shapeOf i).o.zeroing = true then 0#16
        else lane (zmmRead s (shapeOf i).o.dst) j
      else 0#16

/-- R28, R43, R44, R53: outside 64-bit mode with 32-bit addressing (32-bit default without 67H; or 16-bit default with
67H, which is the model's reading, log 16, DEDUCED), the effective address of every memory form modulo `2^32`, and where
byte `k` of the operand lies: segment base plus effective address plus `k` modulo `2^32` (log 17, DEDUCED). mod = 00 with
rm = 101 is a plain disp32. -/
def Obligations.LinearAddressOutsideSixtyFourBitMode : Prop :=
  ∀ (s : State) (vl : VecLen) (o : Operands) (len k : Nat) (bc : Bool),
    (modeOf s = .mode32 ∧ LegacyByte.addrSize ∉ o.legacy ∨ modeOf s = .mode16 ∧ LegacyByte.addrSize ∈ o.legacy) →
    (∀ a, (byteAddr s (accessOf s vl o len bc a) k).toNat =
      ((segGet s (accessOf s vl o len bc a).seg).base.toNat + (accessOf s vl o len bc a).offset.toNat + k) % 2 ^ 32) ∧
    (∀ x base d, (accessOf s vl o len bc (.based x base d)).offset.toNat =
      (gprRead s base + dispOffset vl bc d).toNat % 2 ^ 32) ∧
    (∀ scale index base d, (accessOf s vl o len bc (.sib scale index base d)).offset.toNat =
      (gprRead s base + indexOffset s scale index + dispOffset vl bc d).toNat % 2 ^ 32) ∧
    (∀ b scale index d, (accessOf s vl o len bc (.sibNoBase b scale index d)).offset.toNat =
      (indexOffset s scale index + d.signExtend 64).toNat % 2 ^ 32) ∧
    (∀ x b d, (accessOf s vl o len bc (.ripRel x b d)).offset.toNat = d.toNat)

/-- R34, R81, R83, U9: when every byte the instruction reads has a legal address, a byte to which the launch memory gives
#GP(0) or #SS(0), below which no other has either, makes the instruction raise that fault, even where a lower byte has a
page fault. Which of several such bytes decides is the model's choice (log 7). -/
def Obligations.AddressVerdictsComeBeforePageFaults : Prop :=
  ∀ (i : Instr) (s : State) (acc : Access) (k : Nat), Enabled (lenNarrow (shapeOf i).vl) s →
    ReadsByte s i acc k → (∀ n, ReadsByte s i acc n → byteLegal s acc n = true) →
    (∀ n, ReadsByte s i acc n →
      verdictOf s (byteAddr s acc n) = some .generalProtection ∨ verdictOf s (byteAddr s acc n) = some .stackFault →
      (byteAddr s acc k).toNat ≤ (byteAddr s acc n).toNat) →
    (verdictOf s (byteAddr s acc k) = some .generalProtection → exec i s = .fault (.gp s.rip s.mxcsr)) ∧
    (verdictOf s (byteAddr s acc k) = some .stackFault → exec i s = .fault (.ss s.rip s.mxcsr))

/-- R76: the vector number and the error code of each fault. -/
def Obligations.FaultVectorsAndErrorCodes : Prop :=
  ∀ (r a : Quad) (m code : BitVec 32),
    (faultVector (.ud r m) = 6 ∧ faultErrorCode (.ud r m) = none) ∧
    (faultVector (.nm r m) = 7 ∧ faultErrorCode (.nm r m) = none) ∧
    (faultVector (.ss r m) = 12 ∧ faultErrorCode (.ss r m) = some 0#32) ∧
    (faultVector (.gp r m) = 13 ∧ faultErrorCode (.gp r m) = some 0#32) ∧
    (faultVector (.pf r m a code) = 14 ∧ faultErrorCode (.pf r m a code) = some code) ∧
    (faultVector (.ac r m) = 17 ∧ faultErrorCode (.ac r m) = some 0#32) ∧
    (faultVector (.xm r m) = 19 ∧ faultErrorCode (.xm r m) = none)
end

