-- ==== Sys2Proof/Laws/Memory.lean ====
section
/-! SUPPORT. Memory: what a read gives after a write, and that every memory operation keeps the canonical form. -/

namespace Sys2Proof.Machine

theorem memCanonFrom_cons {lo : Option Nat} {a : Nat} {v : Byte} {rest : Memory} :
    memCanonFrom lo ((a, v) :: rest) = true ↔
      memAbove lo a = true ∧ a < 2 ^ 64 ∧ v ≠ memUnlisted ∧ memCanonFrom (some a) rest = true := by
  simp only [memCanonFrom, Bool.and_eq_true, decide_eq_true_eq, bne_iff_ne, and_assoc]

/-- A bound may be lowered. -/
theorem memCanonFrom_mono {m : Memory} {lo lo' : Option Nat} (h : memCanonFrom lo m = true)
    (hl : ∀ a, memAbove lo a = true → memAbove lo' a = true) : memCanonFrom lo' m = true := by
  cases m with
  | nil => rfl
  | cons c rest =>
    obtain ⟨a, v⟩ := c
    rw [memCanonFrom_cons] at h ⊢
    exact ⟨hl a h.1, h.2⟩

/-- An address at or below the bound is not listed. -/
theorem memGet_below {m : Memory} {lo a : Nat} (h : memCanonFrom (some lo) m = true) (ha : a ≤ lo) :
    memGet m a = memUnlisted := by
  induction m generalizing lo with
  | nil => rfl
  | cons c rest ih =>
    obtain ⟨b, v⟩ := c
    rw [memCanonFrom_cons] at h
    have hb : lo < b := by simpa [memAbove] using h.1
    rw [memGet, if_neg (by omega)]
    exact ih h.2.2.2 (by omega)

/-- Storing above the bound keeps the form above the bound. -/
theorem memCanonFrom_memSet {m : Memory} {lo : Option Nat} {a : Nat} {v : Byte}
    (h : memCanonFrom lo m = true) (hlo : memAbove lo a = true) (ha : a < 2 ^ 64) :
    memCanonFrom lo (memSet m a v) = true := by
  induction m generalizing lo with
  | nil =>
    unfold memSet
    split
    · rfl
    · rename_i hv
      exact memCanonFrom_cons.2 ⟨hlo, ha, hv, rfl⟩
  | cons c rest ih =>
    obtain ⟨b, w⟩ := c
    obtain ⟨hb, hb64, hw, hrest⟩ := memCanonFrom_cons.1 h
    unfold memSet
    split
    · rename_i hab
      split
      · exact h
      · rename_i hv
        exact memCanonFrom_cons.2 ⟨hlo, ha, hv, memCanonFrom_cons.2 ⟨by simpa [memAbove] using hab, hb64, hw, hrest⟩⟩
    · split
      · rename_i hab
        subst hab
        split
        · refine memCanonFrom_mono hrest fun x hx => ?_
          cases lo with
          | none => rfl
          | some l =>
            simp only [memAbove, decide_eq_true_eq] at hx hb ⊢
            omega
        · rename_i hv
          exact memCanonFrom_cons.2 ⟨hb, hb64, hv, hrest⟩
      · rename_i h1 h2
        exact memCanonFrom_cons.2 ⟨hb, hb64, hw, ih hrest (by simp only [memAbove, decide_eq_true_eq]; omega)⟩

/-- A store keeps the canonical form. -/
theorem memWrite_wf {m : Memory} (a : Quad) (v : Byte) (h : Memory.wf m = true) :
    Memory.wf (memWrite m a v) = true :=
  memCanonFrom_memSet h rfl a.isLt

/-- Storing a list of bytes keeps the canonical form. -/
theorem memWriteList_wf {m : Memory} (addr : Nat → Quad) (k : Nat) (bs : List Byte) (h : Memory.wf m = true) :
    Memory.wf (memWriteList m addr k bs) = true := by
  induction bs generalizing m k with
  | nil => exact h
  | cons b rest ih => exact ih (k + 1) (memWrite_wf _ _ h)

theorem reset_mem_wf : Memory.wf State.reset.mem = true := rfl

/-- Loading an instruction keeps the canonical form. -/
theorem withFetchWord_mem_wf {s : State} (n w : Nat) (h : Memory.wf s.mem = true) :
    Memory.wf (s.withFetchWord n w).mem = true :=
  memWriteList_wf _ _ _ h

theorem memGet_memSet {m : Memory} {lo : Option Nat} (a b : Nat) (v : Byte) (h : memCanonFrom lo m = true) :
    memGet (memSet m a v) b = if a = b then v else memGet m b := by
  induction m generalizing lo with
  | nil =>
    unfold memSet
    by_cases hv : v = memUnlisted
    · simp [hv, memGet]
    · simp [hv, memGet, eq_comm]
  | cons c rest ih =>
    obtain ⟨d, w⟩ := c
    obtain ⟨-, -, -, hrest⟩ := memCanonFrom_cons.1 h
    rw [memSet]
    by_cases had : a < d
    · have hlow : memGet rest a = memUnlisted := memGet_below hrest (by omega)
      by_cases hv : v = memUnlisted
      · by_cases hab : a = b
        · subst hab
          simp [memGet, had, Nat.ne_of_lt had, hlow, hv]
        · simp [memGet, had, hab, hv]
      · by_cases hab : a = b
        · subst hab
          simp [memGet, had, hv]
        · simp [memGet, had, hab, hv, Ne.symm hab]
    · by_cases hd : a = d
      · subst hd
        have hlow : memGet rest a = memUnlisted := memGet_below hrest (Nat.le_refl a)
        by_cases hv : v = memUnlisted
        · by_cases hab : a = b
          · subst hab
            simp [hlow, hv]
          · simp [memGet, hab, hv, Ne.symm hab]
        · by_cases hab : a = b
          · subst hab
            simp [memGet, hv]
          · simp [memGet, hab, hv, Ne.symm hab]
      · rw [if_neg had, if_neg hd]
        by_cases hbd : b = d
        · subst hbd
          simp [memGet, hd]
        · simp only [memGet, if_neg hbd]
          exact ih hrest

/-- A read after a write: the byte written, or what was there. -/
theorem memRead_memWrite {m : Memory} (a b : Quad) (v : Byte) (h : Memory.wf m = true) :
    memRead (memWrite m a v) b = if a = b then v else memRead m b := by
  have e : (a.toNat = b.toNat) ↔ a = b := ⟨BitVec.eq_of_toNat_eq, fun e => e ▸ rfl⟩
  simp [memRead, memWrite, memGet_memSet _ _ _ h, e]

/-- Two canonical memories that read the same are the same list. -/
theorem memCanonFrom_ext {m n : Memory} {lo lo' : Option Nat} (hm : memCanonFrom lo m = true)
    (hn : memCanonFrom lo' n = true) (h : ∀ a, memGet m a = memGet n a) : m = n := by
  induction m generalizing n lo lo' with
  | nil =>
    cases n with
    | nil => rfl
    | cons c rest =>
      obtain ⟨b, v⟩ := c
      have hb := h b
      simp only [memGet, if_true] at hb
      exact absurd hb.symm (memCanonFrom_cons.1 hn).2.2.1
  | cons c rest ih =>
    obtain ⟨b, v⟩ := c
    obtain ⟨-, -, hv, hrest⟩ := memCanonFrom_cons.1 hm
    cases n with
    | nil =>
      have hb := h b
      simp only [memGet, if_true] at hb
      exact absurd hb hv
    | cons c' rest' =>
      obtain ⟨b', v'⟩ := c'
      obtain ⟨-, -, hv', hrest'⟩ := memCanonFrom_cons.1 hn
      have hb : b = b' := by
        rcases Nat.lt_trichotomy b b' with hlt | heq | hgt
        · have hr := h b
          rw [memGet, if_pos rfl, memGet, if_neg (by omega), memGet_below hrest' (by omega)] at hr
          exact absurd hr hv
        · exact heq
        · have hr := h b'
          rw [memGet, if_neg (by omega), memGet_below hrest (by omega), memGet, if_pos rfl] at hr
          exact absurd hr.symm hv'
      subst hb
      have hvv : v = v' := by simpa [memGet] using h b
      subst hvv
      have ht : rest = rest' := by
        refine ih hrest hrest' fun a => ?_
        by_cases hab : a = b
        · subst hab
          rw [memGet_below hrest (Nat.le_refl a), memGet_below hrest' (Nat.le_refl a)]
        · simpa [memGet, hab] using h a
      rw [ht]

end Sys2Proof.Machine
end

