-- ==== Sys2Proof/Laws/PerInstr.lean ====
section
/-! SUPPORT. Statements made per instruction: the family EncodeLength says that an instruction's encoding has the
length `L` by which `rip` advances (R39, R73). -/

namespace Sys2Proof

theorem disp32Bytes_length (d : BitVec 32) : (disp32Bytes d).length = 4 := rfl

theorem Disp.bytes_length (d : Disp) : d.bytes.length = d.count := by
  cases d <;> rfl

theorem Mem.part_tail_length (a : Mem) : a.part.tail.length = a.count := by
  cases a <;> simp [Mem.part, Mem.count, Disp.bytes_length, disp32Bytes_length, Nat.add_comm]

theorem Source.part_tail_length (src : Source) : src.part.tail.length = src.count := by
  cases src with
  | reg n => rfl
  | full a => exact Mem.part_tail_length a
  | bcst a => exact Mem.part_tail_length a

theorem encodeParts_length (o : Operands) (p : RmPart) (ll : BitVec 2) (b : Bool) :
    (encodeParts o p ll b).length = o.legacy.length + 7 + p.tail.length := by
  simp [encodeParts]
  omega

namespace Laws.EncodeLength

/-- The encoding of `i` has `i.length` bytes. -/
def Statement (i : Instr) : Prop := (encode i).length = i.length

theorem vreducephXmm (o : Operands) (src : Source) : Statement (.vreducephXmm o src) := by
  simp [Statement, encode, Instr.length, plainLength, encodeParts_length, Source.part_tail_length]

theorem vreducephYmm (o : Operands) (src : Source) : Statement (.vreducephYmm o src) := by
  simp [Statement, encode, Instr.length, plainLength, encodeParts_length, Source.part_tail_length]

theorem vreducephZmm (o : Operands) (src : Source) : Statement (.vreducephZmm o src) := by
  simp [Statement, encode, Instr.length, plainLength, encodeParts_length, Source.part_tail_length]

theorem vreducephZmmSae (o : Operands) (n : BitVec 5) (ll : BitVec 2) :
    Statement (.vreducephZmmSae o n ll) := by
  simp [Statement, encode, Instr.length, plainLength, encodeParts_length, regPart, Source.count]

end Laws.EncodeLength

end Sys2Proof
end

