-- ==== Sys2Proof/Laws/State.lean ====
section
/-! SUPPORT. One lemma per field per update, so that no proof unfolds a record update. -/

namespace Sys2Proof.Machine

@[simp] theorem zmmRead_zmmWrite_same (s : State) (n : BitVec 5) (v : Lanes) :
    zmmRead (zmmWrite s n v) n = v := by simp [zmmRead, zmmWrite]

theorem zmmRead_zmmWrite_ne (s : State) {n m : BitVec 5} (v : Lanes) (h : m ≠ n) :
    zmmRead (zmmWrite s n v) m = zmmRead s m := by
  have h' : n.toNat ≠ m.toNat := fun e => h (BitVec.eq_of_toNat_eq e.symm)
  simp [zmmRead, zmmWrite, h']

@[simp] theorem zmmWrite_k (s : State) (n : BitVec 5) (v : Lanes) : (zmmWrite s n v).k = s.k := rfl
@[simp] theorem zmmWrite_mxcsr (s : State) (n : BitVec 5) (v : Lanes) : (zmmWrite s n v).mxcsr = s.mxcsr := rfl
@[simp] theorem zmmWrite_rip (s : State) (n : BitVec 5) (v : Lanes) : (zmmWrite s n v).rip = s.rip := rfl
@[simp] theorem zmmWrite_gpr (s : State) (n : BitVec 5) (v : Lanes) : (zmmWrite s n v).gpr = s.gpr := rfl
@[simp] theorem zmmWrite_seg (s : State) (n : BitVec 5) (v : Lanes) : (zmmWrite s n v).seg = s.seg := rfl
@[simp] theorem zmmWrite_mem (s : State) (n : BitVec 5) (v : Lanes) : (zmmWrite s n v).mem = s.mem := rfl
@[simp] theorem zmmWrite_regions (s : State) (n : BitVec 5) (v : Lanes) :
    (zmmWrite s n v).regions = s.regions := rfl
@[simp] theorem zmmWrite_ctl (s : State) (n : BitVec 5) (v : Lanes) : (zmmWrite s n v).ctl = s.ctl := rfl
@[simp] theorem zmmWrite_cpuid (s : State) (n : BitVec 5) (v : Lanes) : (zmmWrite s n v).cpuid = s.cpuid := rfl

section Done
variable (s : State) (vl : VecLen) (sae : Bool) (o : Operands) (src : Source) (len : Nat)

@[simp] theorem reduceDone_k : (reduceDone s vl sae o src len).k = s.k := rfl
@[simp] theorem reduceDone_gpr : (reduceDone s vl sae o src len).gpr = s.gpr := rfl
@[simp] theorem reduceDone_seg : (reduceDone s vl sae o src len).seg = s.seg := rfl
@[simp] theorem reduceDone_mem : (reduceDone s vl sae o src len).mem = s.mem := rfl
@[simp] theorem reduceDone_regions : (reduceDone s vl sae o src len).regions = s.regions := rfl
@[simp] theorem reduceDone_ctl : (reduceDone s vl sae o src len).ctl = s.ctl := rfl
@[simp] theorem reduceDone_cpuid : (reduceDone s vl sae o src len).cpuid = s.cpuid := rfl
@[simp] theorem reduceDone_mxcsr :
    (reduceDone s vl sae o src len).mxcsr = (mxUpdate s vl sae o src len).1 := rfl
@[simp] theorem reduceDone_rip : (reduceDone s vl sae o src len).rip = ripAdvance s len := rfl
@[simp] theorem zmmRead_reduceDone_same :
    zmmRead (reduceDone s vl sae o src len) o.dst = resultLanes s vl o src len := by
  simp [reduceDone, zmmRead, zmmWrite]

theorem zmmRead_reduceDone_ne {n : BitVec 5} (h : n ≠ o.dst) :
    zmmRead (reduceDone s vl sae o src len) n = zmmRead s n :=
  zmmRead_zmmWrite_ne s _ h

@[simp] theorem modeOf_reduceDone : modeOf (reduceDone s vl sae o src len) = modeOf s := rfl

end Done

@[simp] theorem lane_ofFn (f : Nat → Half) {i : Nat} (h : i < 32) :
    lane (Vector.ofFn fun j : Fin 32 => f j.val) i = f i := by simp [lane, h]

theorem lane_resultLanes (s : State) (vl : VecLen) (o : Operands) (src : Source) (len : Nat) {i : Nat}
    (h : i < 32) : lane (resultLanes s vl o src len) i = elemResult s vl o src len i :=
  lane_ofFn _ h

@[simp] theorem withFetchWord_zmm (s : State) (n w : Nat) : (s.withFetchWord n w).zmm = s.zmm := rfl
@[simp] theorem withFetchWord_k (s : State) (n w : Nat) : (s.withFetchWord n w).k = s.k := rfl
@[simp] theorem withFetchWord_mxcsr (s : State) (n w : Nat) : (s.withFetchWord n w).mxcsr = s.mxcsr := rfl
@[simp] theorem withFetchWord_rip (s : State) (n w : Nat) : (s.withFetchWord n w).rip = s.rip := rfl
@[simp] theorem withFetchWord_gpr (s : State) (n w : Nat) : (s.withFetchWord n w).gpr = s.gpr := rfl
@[simp] theorem withFetchWord_seg (s : State) (n w : Nat) : (s.withFetchWord n w).seg = s.seg := rfl
@[simp] theorem withFetchWord_cpuid (s : State) (n w : Nat) : (s.withFetchWord n w).cpuid = s.cpuid := rfl

/-- Launching changes no control state that is already enabled (log 4). -/
theorem withFetchWord_ctl_of_enabled {s : State} (n w : Nat) (h : osEnabled s.ctl = true) :
    (s.withFetchWord n w).ctl = s.ctl := by
  simp [State.withFetchWord, loadInstruction, launchControl, h]

end Sys2Proof.Machine
end

