-- ==== Sys2Proof/Laws/Stops.lean ====
section
/-! SUPPORT. One lemma per shared operation that says everything it can do: the platform check, the source read, the
MXCSR update, the packed operation, and exec. -/

namespace Sys2Proof.Machine

/-- The platform makes a form #UD exactly when a condition of R79 but CR0.TS fails. -/
theorem platformUd_eq_false {narrow : Bool} {s : State} : platformUd narrow s = false ↔ NoPlatformUd narrow s := by
  simp only [platformUd, osStateEnabled, xcr0Enabled, NoPlatformUd, Bool.not_eq_false', Bool.and_eq_true,
    Bool.or_eq_true, Bool.not_eq_true', beq_iff_eq, and_assoc]
  cases narrow <;> simp

/-- Enabled is the absence of #UD and of #NM. -/
theorem enabled_iff {narrow : Bool} {s : State} :
    Enabled narrow s ↔ NoPlatformUd narrow s ∧ cr0TS s.ctl = false := by
  unfold Enabled NoPlatformUd
  tauto

/-- The platform raises nothing exactly when the form is enabled (R23, R79). -/
theorem platformFault_eq_none {narrow : Bool} {s : State} :
    platformFault narrow s = none ↔ Enabled narrow s := by
  rw [enabled_iff, ← platformUd_eq_false]
  unfold platformFault
  cases platformUd narrow s <;> cases cr0TS s.ctl <;> simp

/-- What the platform raises is #UD or #NM. -/
theorem platformFault_eq_some {narrow : Bool} {s : State} {mk : Quad → BitVec 32 → Fault}
    (h : platformFault narrow s = some mk) : mk = .ud ∨ mk = .nm := by
  unfold platformFault at h
  split at h
  · exact .inl (by simpa using h.symm)
  · split at h
    · exact .inr (by simpa using h.symm)
    · cases h

theorem lowestDenied_eq_none {l : List (Quad × Verdict)} : lowestDenied l = none ↔ l = [] := by
  cases l with
  | nil => simp [lowestDenied]
  | cons d rest =>
    simp only [lowestDenied]
    split
    · simp
    · split <;> simp

/-- The lowest denied byte is one of the denied bytes, and none lies below it (R81). -/
theorem lowestDenied_spec {l : List (Quad × Verdict)} {d : Quad × Verdict} (h : lowestDenied l = some d) :
    d ∈ l ∧ ∀ e ∈ l, d.1.toNat ≤ e.1.toNat := by
  induction l generalizing d with
  | nil => cases h
  | cons c rest ih =>
    unfold lowestDenied at h
    split at h
    · rename_i hn
      cases h
      rw [lowestDenied_eq_none.1 hn]
      simp
    · rename_i e he
      obtain ⟨hmem, hle⟩ := ih he
      split at h
      · rename_i hlt
        cases h
        refine ⟨List.mem_cons_of_mem _ hmem, fun x hx => ?_⟩
        rcases List.mem_cons.1 hx with rfl | hx
        · omega
        · exact hle x hx
      · rename_i hge
        cases h
        refine ⟨List.mem_cons_self, fun x hx => ?_⟩
        rcases List.mem_cons.1 hx with rfl | hx
        · exact Nat.le_refl _
        · have := hle x hx
          omega

/-- A byte that raises its named fault is one of the denied bytes; none with an address fault lies below it, and when
it is a page fault there is no address fault and no lower page fault (R81, R83). -/
theorem faultingByte_spec {l : List (Quad × Verdict)} {d : Quad × Verdict} (h : faultingByte l = some d) :
    d ∈ l ∧ ((verdictAddress d.2 = true ∧ ∀ e ∈ l, verdictAddress e.2 = true → d.1.toNat ≤ e.1.toNat) ∨
      (verdictPage d.2 = true ∧ (∀ e ∈ l, verdictAddress e.2 = false) ∧
        ∀ e ∈ l, verdictPage e.2 = true → d.1.toNat ≤ e.1.toNat)) := by
  unfold faultingByte at h
  split at h
  · rename_i e he
    cases h
    obtain ⟨hmem, hle⟩ := lowestDenied_spec he
    obtain ⟨hl, ha⟩ := List.mem_filter.1 hmem
    exact ⟨hl, .inl ⟨ha, fun x hx hax => hle x (List.mem_filter.2 ⟨hx, hax⟩)⟩⟩
  · rename_i hn
    have hno : ∀ e ∈ l, verdictAddress e.2 = false := by
      simpa [List.filter_eq_nil_iff] using lowestDenied_eq_none.1 hn
    obtain ⟨hmem, hle⟩ := lowestDenied_spec h
    obtain ⟨hl, hp⟩ := List.mem_filter.1 hmem
    exact ⟨hl, .inr ⟨hp, hno, fun x hx hpx => hle x (List.mem_filter.2 ⟨hx, hpx⟩)⟩⟩

/-- No byte raises a named fault exactly when no denied byte has one. -/
theorem faultingByte_eq_none {l : List (Quad × Verdict)} :
    faultingByte l = none ↔ ∀ d ∈ l, d.2 = .unnamed := by
  have hv : ∀ v : Verdict, (verdictAddress v = false ∧ verdictPage v = false) ↔ v = .unnamed := by
    intro v
    cases v <;> simp [verdictAddress, verdictPage]
  have hf : ∀ p : Verdict → Bool,
      lowestDenied (l.filter fun d => p d.2) = none ↔ ∀ d ∈ l, p d.2 = false := by
    intro p
    simp [lowestDenied_eq_none, List.filter_eq_nil_iff]
  simp only [← hv]
  unfold faultingByte
  split
  · rename_i d hd
    refine iff_of_false (by simp) fun h => ?_
    rw [(hf verdictAddress).2 fun e he => (h e he).1] at hd
    cases hd
  · rename_i hn
    rw [hf]
    exact ⟨fun h d hd => ⟨(hf _).1 hn d hd, h d hd⟩, fun h d hd => (h d hd).2⟩

theorem deniedBytes_eq_nil {s : State} {acc : Access} {ks : List Nat} :
    deniedBytes s acc ks = [] ↔ ∀ k ∈ ks, verdictOf s (byteAddr s acc k) = none := by
  simp [deniedBytes, List.filterMap_eq_nil_iff, Option.map_eq_none_iff]

/-- A read of byte positions is stopped by nothing exactly when each may be read and no alignment check hits
(R29, R30, R81). -/
theorem readStop_eq_none {s : State} {acc : Access} {broadcast : Bool} {ks : List Nat} :
    readStop s acc broadcast ks = none ↔
      (∀ k ∈ ks, ByteReadable s acc k) ∧
      ¬(broadcast = true ∧ ks ≠ [] ∧ acEnabled s.ctl = true ∧ (byteAddr s acc 0).getLsbD 0 = true) := by
  unfold readStop
  split
  · rename_i hany
    simp only [List.any_eq_true] at hany
    obtain ⟨k, hk, hbad⟩ := hany
    refine iff_of_false (by simp) fun h => ?_
    simp [(h.1 k hk).1] at hbad
  · rename_i hall
    simp only [List.any_eq_true, not_exists, not_and, Bool.not_eq_true, Bool.not_eq_false'] at hall
    split
    · rename_i d hd
      refine iff_of_false (by simp) fun h => ?_
      rw [deniedBytes_eq_nil.2 fun k hk => (h.1 k hk).2] at hd
      cases hd
    · split
      · rename_i hac
        refine iff_of_false (by simp) fun h => h.2 ?_
        simp only [Bool.and_eq_true, Bool.not_eq_true', List.isEmpty_eq_false_iff] at hac
        exact ⟨hac.1.1.1, hac.1.1.2, hac.1.2, hac.2⟩
      · rename_i hac
        rw [Option.map_eq_none_iff, lowestDenied_eq_none, deniedBytes_eq_nil]
        refine ⟨fun h => ⟨fun k hk => ⟨hall k hk, h k hk⟩, fun h => hac ?_⟩, fun h k hk => (h.1 k hk).2⟩
        simp only [Bool.and_eq_true, Bool.not_eq_true', List.isEmpty_eq_false_iff]
        exact ⟨⟨⟨h.1, h.2.1⟩, h.2.2.1⟩, h.2.2.2⟩

@[simp] theorem elemRead_eq (s : State) (o : Operands) (i : Nat) : elemRead s o i = elemActive s o i := by
  simp [elemRead, Config.faultSuppression]

theorem mem_fullOffsets {s : State} {vl : VecLen} {o : Operands} {k : Nat} :
    k ∈ fullOffsets s vl o ↔ ∃ i < lenKL vl, elemActive s o i = true ∧ (k = 2 * i ∨ k = 2 * i + 1) := by
  simp [fullOffsets, List.mem_flatMap, and_assoc]

theorem bcstOffsets_eq {s : State} {vl : VecLen} {o : Operands} :
    bcstOffsets s vl o = if ∃ i < lenKL vl, elemActive s o i = true then [0, 1] else [] := by
  simp [bcstOffsets, List.any_eq_true]

theorem acEnabled_iff {c : Control} :
    acEnabled c = true ↔ cr0AM c = true ∧ rflagsAC c = true ∧ c.cpl = 3#2 := by
  simp [acEnabled, and_assoc]

/-- The source read is stopped by nothing exactly when the source may be read (R32, R81). -/
theorem sourceStop_eq_none {s : State} {vl : VecLen} {o : Operands} {src : Source} {len : Nat} :
    sourceStop s vl o src len = none ↔ SourceReadable s vl o len src := by
  cases src with
  | reg n => simp [sourceStop, SourceReadable]
  | full a =>
    simp only [sourceStop, SourceReadable, readStop_eq_none, mem_fullOffsets]
    constructor
    · rintro ⟨h, -⟩ i hi hact
      exact ⟨h _ ⟨i, hi, hact, .inl rfl⟩, h _ ⟨i, hi, hact, .inr rfl⟩⟩
    · refine fun h => ⟨?_, by simp⟩
      rintro k ⟨i, hi, hact, rfl | rfl⟩
      · exact (h i hi hact).1
      · exact (h i hi hact).2
  | bcst a =>
    simp only [sourceStop, SourceReadable, readStop_eq_none, bcstOffsets_eq]
    by_cases hact : ∃ i < lenKL vl, elemActive s o i = true
    · simp [hact, acEnabled_iff, and_assoc]
    · simp [hact]

/-- MXCSR with flags ORed in, bit by bit (R16, D9). -/
theorem getLsbD_mxSetFlags (m : BitVec 32) (ie pe : Bool) (j : Nat) :
    (mxSetFlags m ie pe).getLsbD j = (m.getLsbD j || (decide (j = 0) && ie) || (decide (j = 5) && pe)) := by
  have h1 : (0x01#32).getLsbD j = decide (j = 0) := by
    rw [show (0x01#32) = BitVec.twoPow 32 0 from rfl, BitVec.getLsbD_twoPow]
    simp [eq_comm]
  have h5 : (0x20#32).getLsbD j = decide (j = 5) := by
    rw [show (0x20#32) = BitVec.twoPow 32 5 from rfl, BitVec.getLsbD_twoPow]
    simp [eq_comm]
  rw [mxSetFlags, BitVec.getLsbD_or, BitVec.getLsbD_or, Bool.or_assoc]
  cases ie <;> cases pe <;> simp [h1, h5]

/-- The three outcomes of the MXCSR update (R70, R71). -/
theorem simdUpdate_cases (sae : Bool) (m : BitVec 32) (ie pe : Bool) :
    (sae = true ∧ simdUpdate sae m ie pe = (m, false)) ∨
    (sae = false ∧ ie = true ∧ mxIM m = false ∧ simdUpdate sae m ie pe = (mxSetFlags m true false, true)) ∨
    (sae = false ∧ (ie = true → mxIM m = true) ∧
      simdUpdate sae m ie pe = (mxSetFlags m ie pe, pe && !mxPM m)) := by
  unfold simdUpdate
  cases sae <;> cases ie <;> cases hm : mxIM m <;> simp

/-- Only IE and PE of MXCSR can change. -/
theorem getLsbD_simdUpdate (sae : Bool) (m : BitVec 32) (ie pe : Bool) {j : Nat} (h0 : j ≠ 0) (h5 : j ≠ 5) :
    (simdUpdate sae m ie pe).1.getLsbD j = m.getLsbD j := by
  obtain ⟨-, h⟩ | ⟨-, -, -, h⟩ | ⟨-, -, h⟩ := simdUpdate_cases sae m ie pe <;>
    simp [h, getLsbD_mxSetFlags, h0, h5]

theorem anyInvalid_iff {s : State} {vl : VecLen} {o : Operands} {src : Source} {len : Nat} :
    anyInvalid s vl o src len = true ↔ SignalsInvalid s vl o src len := by
  simp [anyInvalid, elemReduced, List.any_eq_true]

theorem anyPrecision_iff {s : State} {vl : VecLen} {o : Operands} {src : Source} {len : Nat} :
    anyPrecision s vl o src len = true ↔ SignalsPrecision s vl o src len := by
  simp [anyPrecision, elemReduced, List.any_eq_true]

/-- Everything the packed operation can do (R72): a platform fault, a stop of the source read, an unmasked exception,
or completion. -/
theorem reducePacked_cases (vl : VecLen) (sae : Bool) (o : Operands) (src : Source) (len : Nat) (s : State) :
    (∃ mk, platformFault (lenNarrow vl) s = some mk ∧ reducePacked vl sae o src len s = raise mk s) ∨
    (platformFault (lenNarrow vl) s = none ∧
      ∃ r, sourceStop s vl o src len = some r ∧ reducePacked vl sae o src len s = r) ∨
    (platformFault (lenNarrow vl) s = none ∧ sourceStop s vl o src len = none ∧
      (mxUpdate s vl sae o src len).2 = true ∧
      reducePacked vl sae o src len s =
        raise (simdFault s.ctl) { s with mxcsr := (mxUpdate s vl sae o src len).1 }) ∨
    (platformFault (lenNarrow vl) s = none ∧ sourceStop s vl o src len = none ∧
      (mxUpdate s vl sae o src len).2 = false ∧
      reducePacked vl sae o src len s = .next (reduceDone s vl sae o src len)) := by
  unfold reducePacked
  cases hp : platformFault (lenNarrow vl) s with
  | some mk => exact .inl ⟨mk, rfl, rfl⟩
  | none =>
    cases hs : sourceStop s vl o src len with
    | some r => exact .inr (.inl ⟨rfl, r, rfl, rfl⟩)
    | none =>
      cases hm : (mxUpdate s vl sae o src len).2 with
      | true => exact .inr (.inr (.inl ⟨rfl, rfl, rfl, by simp⟩))
      | false => exact .inr (.inr (.inr ⟨rfl, rfl, rfl, by simp⟩))

/-- A denied byte never gives a next state. -/
theorem verdictStop_ne_next {s t : State} {d : Quad × Verdict} : verdictStop s d ≠ .next t := by
  obtain ⟨a, v⟩ := d
  cases v <;> simp [verdictStop, raise]

/-- A stop of the source read is never a next state. -/
theorem sourceStop_ne_next {s t : State} {vl : VecLen} {o : Operands} {src : Source} {len : Nat} :
    sourceStop s vl o src len ≠ some (.next t) := by
  have hread : ∀ acc b ks, readStop s acc b ks ≠ some (.next t) := by
    intro acc b ks h
    unfold readStop at h
    split at h
    · split at h <;> simp [raise] at h
    · split at h
      · exact verdictStop_ne_next (Option.some.inj h)
      · split at h
        · simp [raise] at h
        · obtain ⟨d, -, hd⟩ := Option.map_eq_some_iff.1 h
          exact verdictStop_ne_next hd
  cases src with
  | reg n => simp [sourceStop]
  | full a => exact hread _ _ _
  | bcst a => exact hread _ _ _

/-- A packed operation that completes leaves exactly `reduceDone`, and nothing stood in its way. -/
theorem reducePacked_next {vl : VecLen} {sae : Bool} {o : Operands} {src : Source} {len : Nat} {s t : State}
    (h : reducePacked vl sae o src len s = .next t) :
    Enabled (lenNarrow vl) s ∧ SourceReadable s vl o len src ∧ (mxUpdate s vl sae o src len).2 = false ∧
      t = reduceDone s vl sae o src len := by
  obtain ⟨mk, -, he⟩ | ⟨-, r, hr, he⟩ | ⟨-, -, -, he⟩ | ⟨hp, hs, hm, he⟩ :=
    reducePacked_cases vl sae o src len s
  · rw [he] at h
    cases h
  · rw [he] at h
    exact absurd (h ▸ hr) sourceStop_ne_next
  · rw [he] at h
    cases h
  · rw [he] at h
    cases h
    exact ⟨platformFault_eq_none.1 hp, sourceStop_eq_none.1 hs, hm, rfl⟩

/-- Every instruction is the packed operation of its shape and length. -/
theorem exec_eq (i : Instr) (s : State) :
    exec i s = reducePacked (shapeOf i).vl (shapeOf i).sae (shapeOf i).o (shapeOf i).src i.length s := by
  cases i <;> rfl

/-- What an executed instruction that answers a next state has done. -/
theorem exec_next {i : Instr} {s t : State} (h : exec i s = .next t) :
    t = reduceDone s (shapeOf i).vl (shapeOf i).sae (shapeOf i).o (shapeOf i).src i.length :=
  (reducePacked_next (exec_eq i s ▸ h)).2.2.2

/-- A stopped decode is never a next state. -/
theorem decodeStop_ne_next {e : DecodeError} {s t : State} : decodeStop e s ≠ .next t := by
  cases e <;> simp only [decodeStop, raise] <;> try split
  all_goals simp

/-- A step that answers a next state executed a decoded instruction. -/
theorem step_next {s t : State} (h : step s = .next t) :
    ∃ i, decodeNext s = .ok i ∧ exec i s = .next t := by
  unfold step at h
  split at h
  · exact ⟨_, ‹_›, h⟩
  · exact absurd h decodeStop_ne_next

end Sys2Proof.Machine
end

