-- ==== Sys2Proof/Machine/Assembly.lean ====
section
/-! DEFINITION. The assembler text (30_encoding.md R54, Intel syntax; for printing only, R5) and the C intrinsics (R55).
No step uses this file. -/

namespace Sys2Proof.Machine

/-- A decorator such as the writemask: the text between braces. -/
def braced (t : String) : String := String.singleton (Char.ofNat 123) ++ t ++ String.singleton (Char.ofNat 125)

/-- A number as `0x…`. -/
def hexText (n : Nat) : String := "0x" ++ String.ofList (Nat.toDigits 16 n)

/-- `xmmN`, `ymmN`, `zmmN` (R54). -/
def vecText (vl : VecLen) (n : BitVec 5) : String :=
  (match vl with
    | .v128 => "xmm"
    | .v256 => "ymm"
    | .v512 => "zmm") ++ toString n.toNat

/-- The names of R18 in encoding order. -/
def gprNames : List String :=
  ["rax", "rcx", "rdx", "rbx", "rsp", "rbp", "rsi", "rdi", "r8", "r9", "r10", "r11", "r12", "r13", "r14", "r15"]

/-- The 32-bit names, for 32-bit addressing. -/
def gprNames32 : List String :=
  ["eax", "ecx", "edx", "ebx", "esp", "ebp", "esi", "edi", "r8d", "r9d", "r10d", "r11d", "r12d", "r13d", "r14d", "r15d"]

/-- An address register's name. -/
def gprText (size : AddrSize) (n : BitVec 4) : String :=
  match size with
  | .a64 => gprNames.getD n.toNat ""
  | .a32 => gprNames32.getD n.toNat ""
  | .a16 => gprNames32.getD n.toNat ""

/-- A signed displacement after another term. -/
def dispText (d : Int) : String := if d < 0 then "-" ++ hexText d.natAbs else "+" ++ hexText d.natAbs

/-- A displacement as bytes, scaled (R44). -/
def dispSuffix (n : Nat) : Disp → String
  | .zero => ""
  | .disp8 d => dispText (d.toInt * (n : Int))
  | .disp32 d => dispText d.toInt

/-- `index*scale`, empty when there is no index. -/
def indexText (size : AddrSize) (scale : BitVec 2) (index : BitVec 4) : String :=
  if index = 4#4 then "" else gprText size index ++ "*" ++ toString (2 ^ scale.toNat)

/-- The address between brackets. -/
def addressText (m : Mode) (size : AddrSize) (n : Nat) : Mem → String
  | .ripRel _ _ d =>
    if m = .mode64 then "[" ++ (if size = .a64 then "rip" else "eip") ++ dispText d.toInt ++ "]"
    else "ds:" ++ hexText d.toNat
  | .based _ base d => "[" ++ gprText size base ++ dispSuffix n d ++ "]"
  | .sib scale index base d =>
    "[" ++ gprText size base ++ (if index = 4#4 then "" else "+" ++ indexText size scale index) ++
      dispSuffix n d ++ "]"
  | .sibNoBase _ scale index d =>
    if index = 4#4 then "ds:" ++ hexText d.toNat
    else "[" ++ indexText size scale index ++ dispText d.toInt ++ "]"

/-- FS or GS before an address. -/
def segText (legacy : List LegacyByte) : String :=
  if legacy.contains .fs then "fs:" else if legacy.contains .gs then "gs:" else ""

/-- A source operand (R54). -/
def sourceText (m : Mode) (vl : VecLen) (o : Operands) : Source → String
  | .reg n => vecText vl n
  | .full a =>
    (match vl with
      | .v128 => "XMMWORD PTR "
      | .v256 => "YMMWORD PTR "
      | .v512 => "ZMMWORD PTR ") ++ segText o.legacy ++
      addressText m (addrSizeOf m o.legacy) (dispScale vl false) a
  | .bcst a =>
    "WORD BCST " ++ segText o.legacy ++ addressText m (addrSizeOf m o.legacy) (dispScale vl true) a

/-- Mnemonic, destination and decorators. -/
def headText (vl : VecLen) (o : Operands) : String :=
  "vreduceph " ++ vecText vl o.dst ++ (if o.mask = 0#3 then "" else braced ("k" ++ toString o.mask.toNat)) ++
    (if o.zeroing then braced "z" else "") ++ ","

/-- The Intel syntax of an instruction (R54). -/
def intelText (m : Mode) : Instr → String
  | .vreducephXmm o src => headText .v128 o ++ sourceText m .v128 o src ++ "," ++ hexText o.imm.toNat
  | .vreducephYmm o src => headText .v256 o ++ sourceText m .v256 o src ++ "," ++ hexText o.imm.toNat
  | .vreducephZmm o src => headText .v512 o ++ sourceText m .v512 o src ++ "," ++ hexText o.imm.toNat
  | .vreducephZmmSae o n _ =>
    headText .v512 o ++ vecText .v512 n ++ braced "sae" ++ "," ++ hexText o.imm.toNat

/-- The twelve C intrinsics (R55). -/
inductive Intrinsic where
  | mm_reduce_ph
  | mm_mask_reduce_ph
  | mm_maskz_reduce_ph
  | mm256_reduce_ph
  | mm256_mask_reduce_ph
  | mm256_maskz_reduce_ph
  | mm512_reduce_ph
  | mm512_mask_reduce_ph
  | mm512_maskz_reduce_ph
  | mm512_reduce_round_ph
  | mm512_mask_reduce_round_ph
  | mm512_maskz_reduce_round_ph
  deriving DecidableEq, Repr

/-- The masking column of R55. -/
inductive Masking where
  | unmasked
  | merging
  | zeroing
  deriving DecidableEq, Repr

/-- The form and masking columns of R55, and whether the intrinsic has a `sae` argument. -/
def intrinsicForm : Intrinsic → VecLen × Masking × Bool
  | .mm_reduce_ph => (.v128, .unmasked, false)
  | .mm_mask_reduce_ph => (.v128, .merging, false)
  | .mm_maskz_reduce_ph => (.v128, .zeroing, false)
  | .mm256_reduce_ph => (.v256, .unmasked, false)
  | .mm256_mask_reduce_ph => (.v256, .merging, false)
  | .mm256_maskz_reduce_ph => (.v256, .zeroing, false)
  | .mm512_reduce_ph => (.v512, .unmasked, false)
  | .mm512_mask_reduce_ph => (.v512, .merging, false)
  | .mm512_maskz_reduce_ph => (.v512, .zeroing, false)
  | .mm512_reduce_round_ph => (.v512, .unmasked, true)
  | .mm512_mask_reduce_round_ph => (.v512, .merging, true)
  | .mm512_maskz_reduce_round_ph => (.v512, .zeroing, true)

/-- The instruction an intrinsic is: `dst` holds `src` of R55 before and the result after, `k` the writemask, `a` the
source vector. `sae` says whether the `sae` argument asks for suppression (its values are not in the spec, U20). -/
def intrinsicInstr (i : Intrinsic) (sae : Bool) (dst a : BitVec 5) (k : BitVec 3) (imm : BitVec 8) : Instr :=
  let form := intrinsicForm i
  let o : Operands :=
    { legacy := [], dst := dst, mask := if form.2.1 = .unmasked then 0#3 else k,
      zeroing := form.2.1 = .zeroing, imm := imm }
  match form.1 with
  | .v128 => .vreducephXmm o (.reg a)
  | .v256 => .vreducephYmm o (.reg a)
  | .v512 => if form.2.2 && sae then .vreducephZmmSae o a 0#2 else .vreducephZmm o (.reg a)

end Sys2Proof.Machine
end

