-- ==== Sys2Proof/Tests/Slice0.lean ====
section
/-! SUPPORT. Tests on fixed values, with expected results from 95_test_vectors.md or read off the rules by hand; and, for
every obligation with hypotheses, a concrete case that meets all of them together. -/

namespace Sys2Proof.Tests

open Sys2Proof Sys2Proof.Machine

/-! ## Small states -/

/-- A machine in 64-bit mode with everything enabled, its code at 1000H (R92). -/
def launched : State := { State.reset with ctl := launchControl State.reset.ctl, rip := 0x1000#64 }

/-- A segment of 4 GiB with base 0. -/
def flat : Segment := { base := 0#64, limit := 0xFFFFFFFF#32, readable := true }

/-- The same machine in 32-bit mode (compatibility mode) with flat segments but for a GS of 10H bytes. -/
def launched32 : State :=
  { launched with
    ctl := { launched.ctl with csL := false, csD := true }
    seg := ⟨flat, flat, flat, flat, flat, { flat with limit := 0xF#32 }⟩ }

/-- The same with 16-bit default addressing. -/
def launched16 : State := { launched32 with ctl := { launched32.ctl with csD := false } }

def hex (l : List Nat) : List Byte := l.map (BitVec.ofNat 8)
def halves (l : List Nat) : List Half := l.map (BitVec.ofNat 16)
def rep (n v : Nat) : List Nat := List.replicate n v
def put (s : State) (a : Nat) (l : List Nat) : State :=
  { s with mem := memWriteList s.mem (fun k => BitVec.ofNat 64 (a + k)) 0 (hex l) }
def setZ (s : State) (n : BitVec 5) (l : List Nat) : State :=
  zmmWrite s n (Vector.ofFn fun i => (halves l).getD i.val 0#16)
def setK (s : State) (n v : Nat) : State := { s with k := s.k.setIfInBounds n (BitVec.ofNat 64 v) }
def setG (s : State) (n v : Nat) : State := { s with gpr := s.gpr.setIfInBounds n (BitVec.ofNat 64 v) }
def setMx (s : State) (v : Nat) : State := { s with mxcsr := BitVec.ofNat 32 v }
def deny (s : State) (base size : Nat) (v : Verdict) : State := { s with regions := [⟨base, size, v⟩] }

def nextOf : Result → Option State
  | .next s => some s
  | .fault _ => none
  | .refused _ => none
def faultOf : Result → Option Fault
  | .next _ => none
  | .fault f => some f
  | .refused _ => none
def refusalOf : Result → Option Refusal
  | .next _ => none
  | .fault _ => none
  | .refused r => some r

theorem next_of_isSome {r : Result} (h : (nextOf r).isSome = true) : ∃ t, r = .next t := by
  cases r with
  | next t => exact ⟨t, rfl⟩
  | fault f => cases h
  | refused f => cases h

/-- One register, MXCSR and `rip` after a step. -/
def reads (r : Result) (n : BitVec 5) (l : List Nat) (mx rip : Nat) : Bool :=
  match nextOf r with
  | some t => (zmmRead t n).toList == halves l && t.mxcsr.toNat == mx && t.rip.toNat == rip
  | none => false

/-- A step that decodes to #UD. -/
def isUd : Except DecodeError Instr → Bool
  | .error (.invalidOpcode _) => true
  | .error _ => false
  | .ok _ => false

def wfOps : Operands := ⟨[], 1#5, 1#3, false, 0#8⟩
def regForm : Instr := .vreducephXmm ⟨[], 1#5, 0#3, false, 0#8⟩ (.reg 2#5)
def fullForm : Instr := .vreducephXmm wfOps (.full (.based false 0#4 .zero))
def bcstForm : Instr := .vreducephYmm wfOps (.bcst (.based false 4#4 (.disp8 1#8)))
def saeForm : Instr := .vreducephZmmSae ⟨[], 1#5, 0#3, false, 2#8⟩ 2#5 3#2

/-! ## Well-formedness: one ill-formed term for each check -/

theorem test_wf_accepts :
    [regForm, fullForm, saeForm, .vreducephXmm { wfOps with legacy := [.es, .cs, .ss, .ds, .fs, .gs, .addrSize, .es] } (.reg 2#5)].all
      (Instr.wf .mode64) = true ∧ Instr.wf .mode32 regForm = true ∧ Instr.wf .mode16 regForm = true := by
  decide

theorem test_wf_refuses_sib_announcing_base :
    Instr.wf .mode64 (.vreducephXmm wfOps (.full (.based false 12#4 .zero))) = false := by decide

theorem test_wf_refuses_base_five_without_displacement :
    Instr.wf .mode64 (.vreducephXmm wfOps (.full (.based false 13#4 .zero))) = false ∧
    Instr.wf .mode64 (.vreducephXmm wfOps (.bcst (.sib 0#2 1#4 5#4 .zero))) = false := by decide

theorem test_wf_refuses_zeroing_without_mask :
    Instr.wf .mode64 (.vreducephYmm { wfOps with mask := 0#3, zeroing := true } (.reg 2#5)) = false := by decide

theorem test_wf_refuses_high_registers_outside_64_bit_mode :
    Instr.wf .mode32 (.vreducephZmm { wfOps with dst := 8#5 } (.reg 2#5)) = false ∧
    Instr.wf .mode32 (.vreducephZmm wfOps (.reg 16#5)) = false ∧
    Instr.wf .mode32 (.vreducephZmm wfOps (.full (.based true 1#4 .zero))) = false ∧
    Instr.wf .mode32 (.vreducephZmm wfOps (.full (.ripRel false true 0#32))) = false ∧
    Instr.wf .mode32 (.vreducephZmm wfOps (.full (.sib 0#2 9#4 1#4 .zero))) = false ∧
    Instr.wf .mode32 (.vreducephZmm wfOps (.full (.sibNoBase true 0#2 1#4 0#32))) = false := by decide

theorem test_wf_refuses_sixteen_bit_addressing :
    Instr.wf .mode16 fullForm = false ∧
    Instr.wf .mode32 (.vreducephXmm { wfOps with legacy := [.addrSize] } (.full (.based false 0#4 .zero))) = false := by
  decide

theorem test_wf_refuses_sixteen_bytes :
    Instr.wf .mode64 (.vreducephZmmSae { wfOps with legacy := [.es, .es, .es, .es, .es, .es, .es, .es, .es] } 2#5 0#2)
      = false := by decide

/-! ## Decoding: the words of section 3 of 95_test_vectors.md -/

/-- A word decodes in 64-bit mode to the instruction, which is encoded as the word. -/
def decodesTo (w : List Nat) (i : Instr) : Bool :=
  decide (decode .mode64 (hex w) = .ok i) && encode i == hex w && i.length == w.length

/-- VREDUCEPH_xmm: register, SIB with a high destination, FS override with RSP, absolute disp32, index without base. -/
theorem test_decode_xmm :
    decodesTo [0x62, 0xF3, 0x7C, 0x08, 0x56, 0xCA, 0x00] (.vreducephXmm ⟨[], 1#5, 0#3, false, 0#8⟩ (.reg 2#5)) = true ∧
    decodesTo [0x62, 0x03, 0x7C, 0x0B, 0x56, 0x7C, 0x88, 0x10, 0x07]
      (.vreducephXmm ⟨[], 31#5, 3#3, false, 7#8⟩ (.full (.sib 2#2 9#4 8#4 (.disp8 0x10#8)))) = true ∧
    decodesTo [0x64, 0x62, 0xF3, 0x7C, 0x08, 0x56, 0x54, 0x24, 0x01, 0x01]
      (.vreducephXmm ⟨[.fs], 2#5, 0#3, false, 1#8⟩ (.full (.sib 0#2 4#4 4#4 (.disp8 1#8)))) = true ∧
    decodesTo [0x62, 0xF3, 0x7C, 0x08, 0x56, 0x14, 0x25, 0x78, 0x56, 0x34, 0x12, 0x01]
      (.vreducephXmm ⟨[], 2#5, 0#3, false, 1#8⟩ (.full (.sibNoBase false 0#2 4#4 0x12345678#32))) = true ∧
    decodesTo [0x62, 0xB3, 0x7C, 0x89, 0x56, 0x14, 0xFD, 0, 0, 0, 0, 0x01]
      (.vreducephXmm ⟨[], 2#5, 1#3, true, 1#8⟩ (.full (.sibNoBase false 3#2 15#4 0#32))) = true := by
  decide

/-- VREDUCEPH_ymm: register, negative disp8, `rip`-relative, 67H. -/
theorem test_decode_ymm :
    decodesTo [0x62, 0x73, 0x7C, 0x2A, 0x56, 0xCB, 0x4B] (.vreducephYmm ⟨[], 9#5, 2#3, false, 0x4B#8⟩ (.reg 3#5)) = true ∧
    decodesTo [0x62, 0xF3, 0x7C, 0x28, 0x56, 0x43, 0xFC, 0x01]
      (.vreducephYmm ⟨[], 0#5, 0#3, false, 1#8⟩ (.full (.based false 3#4 (.disp8 0xFC#8)))) = true ∧
    decodesTo [0x62, 0x73, 0x7C, 0x28, 0x56, 0x25, 0x00, 0x10, 0, 0, 0x10]
      (.vreducephYmm ⟨[], 12#5, 0#3, false, 0x10#8⟩ (.full (.ripRel false false 0x1000#32))) = true ∧
    decodesTo [0x67, 0x62, 0xF3, 0x7C, 0x28, 0x56, 0x10, 0x01]
      (.vreducephYmm ⟨[.addrSize], 2#5, 0#3, false, 1#8⟩ (.full (.based false 0#4 .zero))) = true := by
  decide

/-- VREDUCEPH_zmm: disp8, broadcast with disp8 and disp32, r13 and r12 as bases, both extension bits of a register. -/
theorem test_decode_zmm :
    decodesTo [0x62, 0xF3, 0x7C, 0x48, 0x56, 0x48, 0x01, 0x04]
      (.vreducephZmm ⟨[], 1#5, 0#3, false, 4#8⟩ (.full (.based false 0#4 (.disp8 1#8)))) = true ∧
    decodesTo [0x62, 0xF3, 0x7C, 0x58, 0x56, 0x48, 0x01, 0x04]
      (.vreducephZmm ⟨[], 1#5, 0#3, false, 4#8⟩ (.bcst (.based false 0#4 (.disp8 1#8)))) = true ∧
    decodesTo [0x62, 0xF3, 0x7C, 0x58, 0x56, 0x88, 0x03, 0, 0, 0, 0x04]
      (.vreducephZmm ⟨[], 1#5, 0#3, false, 4#8⟩ (.bcst (.based false 0#4 (.disp32 3#32)))) = true ∧
    decodesTo [0x62, 0xF3, 0x7C, 0x48, 0x56, 0x43, 0xFE, 0xFF]
      (.vreducephZmm ⟨[], 0#5, 0#3, false, 0xFF#8⟩ (.full (.based false 3#4 (.disp8 0xFE#8)))) = true ∧
    decodesTo [0x62, 0x43, 0x7C, 0x48, 0x56, 0x4D, 0x00, 0x20]
      (.vreducephZmm ⟨[], 25#5, 0#3, false, 0x20#8⟩ (.full (.based false 13#4 (.disp8 0#8)))) = true ∧
    decodesTo [0x62, 0x43, 0x7C, 0x48, 0x56, 0x0C, 0x24, 0x20]
      (.vreducephZmm ⟨[], 25#5, 0#3, false, 0x20#8⟩ (.full (.sib 0#2 4#4 12#4 .zero))) = true ∧
    decodesTo [0x62, 0x03, 0x7C, 0xCF, 0x56, 0xFF, 0x33]
      (.vreducephZmm ⟨[], 31#5, 7#3, true, 0x33#8⟩ (.reg 31#5)) = true := by
  decide

/-- VREDUCEPH_zmm__sae: with L'L = 00, and with L'L = 11 (I7). -/
theorem test_decode_sae :
    decodesTo [0x62, 0x83, 0x7C, 0x9F, 0x56, 0xCE, 0x08] (.vreducephZmmSae ⟨[], 17#5, 7#3, true, 8#8⟩ 30#5 0#2) = true ∧
    decodesTo [0x62, 0xF3, 0x7C, 0x78, 0x56, 0xCA, 0x02] (.vreducephZmmSae ⟨[], 1#5, 0#3, false, 2#8⟩ 2#5 3#2) = true := by
  decide

/-- The sixteen encodings of section 3 that must not decode, and the neighbour after them. -/
theorem test_decode_illegal :
    ([[0x62, 0xF3, 0x7C, 0x88, 0x56, 0xCA, 0], [0x62, 0xF3, 0x74, 0x08, 0x56, 0xCA, 0],
      [0x62, 0xF3, 0x7C, 0x00, 0x56, 0xCA, 0], [0x62, 0xF3, 0x7C, 0x68, 0x56, 0xCA, 0],
      [0x62, 0xF3, 0x7C, 0x68, 0x56, 0x08, 0], [0x62, 0xF3, 0x7C, 0x78, 0x56, 0x08, 0],
      [0x62, 0xFB, 0x7C, 0x08, 0x56, 0xCA, 0], [0x62, 0xF3, 0x78, 0x08, 0x56, 0xCA, 0],
      [0x62, 0xF3, 0xFC, 0x08, 0x56, 0xCA, 0], [0x62, 0xF3, 0x7E, 0x08, 0x56, 0xCA, 0],
      [0x62, 0xF3, 0x7F, 0x08, 0x56, 0xCA, 0], [0x66, 0x62, 0xF3, 0x7C, 0x08, 0x56, 0xCA, 0],
      [0xF2, 0x62, 0xF3, 0x7C, 0x08, 0x56, 0xCA, 0], [0xF3, 0x62, 0xF3, 0x7C, 0x08, 0x56, 0xCA, 0],
      [0xF0, 0x62, 0xF3, 0x7C, 0x08, 0x56, 0xCA, 0], [0x40, 0x62, 0xF3, 0x7C, 0x08, 0x56, 0xCA, 0]] : List (List Nat)).all
      (fun w => isUd (decode .mode64 (hex w))) = true ∧
    decode .mode64 (hex [0x62, 0xF3, 0x7D, 0x08, 0x56, 0xCA, 0]) = .error .neighbour := by
  decide

/-- The assembler text of three forms, as section 3 and the instruction vectors print it (R54). -/
theorem test_intel_text :
    intelText .mode64 regForm = "vreduceph xmm1,xmm2,0x0" ∧
    intelText .mode64 (.vreducephZmm ⟨[], 1#5, 0#3, false, 4#8⟩ (.bcst (.based false 0#4 (.disp8 1#8)))) =
      "vreduceph zmm1,WORD BCST [rax+0x2],0x4" ∧
    intelText .mode64 (.vreducephZmm ⟨[], 0#5, 0#3, false, 0xFF#8⟩ (.full (.based false 3#4 (.disp8 0xFE#8)))) =
      "vreduceph zmm0,ZMMWORD PTR [rbx-0x80],0xff" := by
  decide

/-- The opcode-table word of each row, every free bit 0: the decoder gives the row's constructor, and the step after
`withFetchWord` on the reset state completes and moves `rip` by the 7 bytes of the instruction (R39, R73). -/
theorem test_table_words_run_first :
    decodeTableWord 48 0x0056087C0362 =
      some (.vreducephXmm ⟨[], 24#5, 0#3, false, 0#8⟩ (.full (.based true 8#4 .zero))) ∧
    decodeTableWord 48 0xC056187C0362 = some (.vreducephZmmSae ⟨[], 24#5, 0#3, false, 0#8⟩ 24#5 0#2) ∧
    ([0x0056087C0362, 0x0056287C0362, 0x0056487C0362, 0xC056187C0362] : List Nat).all (fun w =>
      match nextOf (step (State.reset.withFetchWord 48 w)) with
      | some t => t.rip == 0xFFF7#64
      | none => false) = true := by
  decide +kernel

/-! ## The element function: V1 to V78 -/

/-- Rows of source, `imm8`, MXCSR.RC, result, IE, PE. -/
def elementRows (l : List (Half × BitVec 8 × BitVec 32 × Half × Bool × Bool)) : Bool :=
  l.all fun r => reduceFp16 r.1 r.2.1 (effectiveRounding r.2.1 (0x1F80#32 ||| r.2.2.1 <<< 13)) ==
    { value := r.2.2.2.1, ie := r.2.2.2.2.1, pe := r.2.2.2.2.2 }

/-- V1 to V21. -/
theorem test_elements_integer_grid_and_zero : elementRows [
    (0x3E00#16, 0x00#8, 0#32, 0xB800#16, false, false), (0x3E00#16, 0x01#8, 0#32, 0x3800#16, false, false),
    (0x3E00#16, 0x02#8, 0#32, 0xB800#16, false, false), (0x3E00#16, 0x03#8, 0#32, 0x3800#16, false, false),
    (0x4100#16, 0x00#8, 0#32, 0x3800#16, false, false), (0x4300#16, 0x00#8, 0#32, 0xB800#16, false, false),
    (0x3800#16, 0x00#8, 0#32, 0x3800#16, false, false), (0xB800#16, 0x00#8, 0#32, 0xB800#16, false, false),
    (0x3801#16, 0x00#8, 0#32, 0xB7FE#16, false, false), (0x37FF#16, 0x00#8, 0#32, 0x37FF#16, false, false),
    (0x3C00#16, 0x00#8, 0#32, 0x0000#16, false, false), (0x3C00#16, 0x01#8, 0#32, 0x8000#16, false, false),
    (0xC000#16, 0x00#8, 0#32, 0x0000#16, false, false), (0xC000#16, 0x01#8, 0#32, 0x8000#16, false, false),
    (0x0000#16, 0x00#8, 0#32, 0x0000#16, false, false), (0x8000#16, 0x00#8, 0#32, 0x0000#16, false, false),
    (0x0000#16, 0x01#8, 0#32, 0x8000#16, false, false), (0x8000#16, 0x01#8, 0#32, 0x8000#16, false, false),
    (0x8000#16, 0x02#8, 0#32, 0x0000#16, false, false), (0x8000#16, 0x03#8, 0#32, 0x0000#16, false, false),
    (0x0000#16, 0x04#8, 1#32, 0x8000#16, false, false)] = true := by decide

/-- V22 to V41. -/
theorem test_elements_infinity_nan_and_fraction_bits : elementRows [
    (0x7C00#16, 0x00#8, 0#32, 0x0000#16, false, false), (0xFC00#16, 0x00#8, 0#32, 0x0000#16, false, false),
    (0x7C00#16, 0x01#8, 0#32, 0x0000#16, false, false), (0xFC00#16, 0xF1#8, 0#32, 0x0000#16, false, false),
    (0x7D00#16, 0x00#8, 0#32, 0x7F00#16, true, false), (0xFD55#16, 0x0B#8, 0#32, 0xFF55#16, true, false),
    (0x7C01#16, 0xF0#8, 0#32, 0x7E01#16, true, false), (0x7E01#16, 0x00#8, 0#32, 0x7E01#16, false, false),
    (0xFFFF#16, 0x00#8, 0#32, 0xFFFF#16, false, false), (0x4248#16, 0x00#8, 0#32, 0x3080#16, false, false),
    (0x4248#16, 0x10#8, 0#32, 0x3080#16, false, false), (0x4248#16, 0x21#8, 0#32, 0x3080#16, false, false),
    (0x4248#16, 0x40#8, 0#32, 0x2400#16, false, false), (0x4248#16, 0x50#8, 0#32, 0x2400#16, false, false),
    (0x4248#16, 0x60#8, 0#32, 0x0000#16, false, false), (0x4248#16, 0xA0#8, 0#32, 0x0000#16, false, false),
    (0xC248#16, 0x10#8, 0#32, 0xB080#16, false, false), (0xC248#16, 0x11#8, 0#32, 0x35C0#16, false, false),
    (0xC248#16, 0x12#8, 0#32, 0xB080#16, false, false), (0xC248#16, 0x13#8, 0#32, 0xB080#16, false, false)] = true := by decide

/-- V42 to V58. -/
theorem test_elements_smallest_values_and_rounding_source : elementRows [
    (0x0001#16, 0x00#8, 0#32, 0x0001#16, false, false), (0x0001#16, 0x02#8, 0#32, 0xBBFF#16, false, true),
    (0x0001#16, 0x0A#8, 0#32, 0xBBFF#16, false, false), (0x0001#16, 0x03#8, 0#32, 0x0001#16, false, false),
    (0x0001#16, 0x01#8, 0#32, 0x0001#16, false, false), (0x8001#16, 0x01#8, 0#32, 0x3BFF#16, false, true),
    (0x8001#16, 0x09#8, 0#32, 0x3BFF#16, false, false), (0x8001#16, 0x02#8, 0#32, 0x8001#16, false, false),
    (0x8001#16, 0x00#8, 0#32, 0x8001#16, false, false), (0x0001#16, 0xF2#8, 0#32, 0x81FF#16, false, false),
    (0x8001#16, 0xF1#8, 0#32, 0x01FF#16, false, false), (0x3E00#16, 0x04#8, 0#32, 0xB800#16, false, false),
    (0x3E00#16, 0x04#8, 1#32, 0x3800#16, false, false), (0x3E00#16, 0x04#8, 2#32, 0xB800#16, false, false),
    (0x3E00#16, 0x04#8, 3#32, 0x3800#16, false, false), (0x3E00#16, 0x07#8, 0#32, 0xB800#16, false, false),
    (0x3E00#16, 0x03#8, 1#32, 0x3800#16, false, false)] = true := by decide

/-- V59 to V78. -/
theorem test_elements_large_tiny_and_mixed : elementRows [
    (0x7BFF#16, 0xF0#8, 0#32, 0x0000#16, false, false), (0xFBFF#16, 0xF1#8, 0#32, 0x8000#16, false, false),
    (0x6400#16, 0x00#8, 0#32, 0x0000#16, false, false), (0x63FF#16, 0x00#8, 0#32, 0xB800#16, false, false),
    (0x63FF#16, 0x02#8, 0#32, 0xB800#16, false, false), (0x0401#16, 0xF0#8, 0#32, 0x0001#16, false, false),
    (0x0200#16, 0xF0#8, 0#32, 0x0000#16, false, false), (0x0100#16, 0xF0#8, 0#32, 0x0100#16, false, false),
    (0x0300#16, 0xF0#8, 0#32, 0x8100#16, false, false), (0x2000#16, 0xF0#8, 0#32, 0x0000#16, false, false),
    (0x27FF#16, 0xF0#8, 0#32, 0x8100#16, false, false), (0x1001#16, 0x42#8, 0#32, 0xABEF#16, false, true),
    (0x1001#16, 0x4A#8, 0#32, 0xABEF#16, false, false), (0x9001#16, 0x41#8, 0#32, 0x2BEF#16, false, true),
    (0x3400#16, 0x02#8, 0#32, 0xBA00#16, false, false), (0x3555#16, 0x80#8, 0#32, 0x1500#16, false, false),
    (0x3555#16, 0x82#8, 0#32, 0x9980#16, false, false), (0x3555#16, 0x83#8, 0#32, 0x1500#16, false, false),
    (0x03FF#16, 0xE2#8, 0#32, 0x8001#16, false, false), (0x83FF#16, 0xE1#8, 0#32, 0x0001#16, false, false)] = true := by decide

/-! ## Steps: section 4 of 95_test_vectors.md, two for each form -/

/-- The eight patterns A8. -/
def a8 : List Nat := [0x3E00, 0x4248, 0x0001, 0x7D00, 0xFC00, 0x8000, 0xC248, 0x3555]
/-- ZMM1 = AAAA × 32, ZMM2 = A8 then 5555 × 24. -/
def start : State := setZ (setZ launched 1#5 (rep 32 0xAAAA)) 2#5 (a8 ++ rep 24 0x5555)
def run (s : State) (code : List Nat) : Result := step (put s 0x1000 code)

/-- I1: merging; a masked-off SNaN raises nothing; bits 511:128 are cleared. -/
theorem test_step_xmm_merging :
    reads (run (setK start 1 0x05) [0x62, 0xF3, 0x7C, 0x09, 0x56, 0xCA, 0x00]) 1#5
      ([0xB800, 0xAAAA, 0x0001, 0xAAAA, 0xAAAA, 0xAAAA, 0xAAAA, 0xAAAA] ++ rep 24 0) 0x1F80 0x1007 = true := by
  decide

/-- I8: broadcast, zeroing, flags already set stay set. -/
theorem test_step_xmm_broadcast :
    reads (run (setMx (setK (setG (put launched 0x2000 [0x11, 0x11, 0x22, 0x22, 0x55, 0x35, 0x44, 0x44]) 0 0x2000) 3 0xAA)
      0x1FBF) [0x62, 0xF3, 0x7C, 0x9B, 0x56, 0x48, 0x02, 0x12]) 1#5
      ([0, 0xB156, 0, 0xB156, 0, 0xB156, 0, 0xB156] ++ rep 24 0) 0x1FBF 0x1008 = true := by
  decide

/-- I6: the source is the destination; the rounding mode comes from MXCSR. -/
theorem test_step_ymm_same_register :
    reads (run (setMx (setK (setZ launched 2#5 (a8 ++ a8 ++ rep 16 0x5555)) 2 0x0F0F) 0x3F80)
      [0x62, 0xF3, 0x7C, 0x2A, 0x56, 0xD2, 0x04]) 2#5
      ([0x3800, 0x3080, 0x0001, 0x7F00, 0xFC00, 0x8000, 0xC248, 0x3555, 0x3800, 0x3080, 0x0001, 0x7F00, 0xFC00, 0x8000,
        0xC248, 0x3555] ++ rep 16 0) 0x3F81 0x1007 = true := by
  decide

/-- I13: unmasked Precision is #XM with PE set. -/
theorem test_step_ymm_unmasked_precision :
    faultOf (run (setMx (setK (setZ launched 1#5 (rep 5 0x3E00 ++ [1] ++ rep 26 0x3E00)) 1 0xFFFF) 0x0F80)
      [0x62, 0xF3, 0x7C, 0x29, 0x56, 0xF9, 0x02]) = some (.xm 0x1000#64 0x0FA0#32) := by
  decide

/-- I9: base and scaled index, M = 15, RD, denormal results. -/
theorem test_step_zmm_memory :
    reads (run (setG (setG (put launched 0x2010 (List.flatten (List.replicate 4
      [0x01, 0x04, 0x01, 0x84, 0x00, 0x02, 0x00, 0x82, 0xFF, 0x27, 0xFF, 0xA7, 0xFF, 0x7B, 0xFF, 0xFB]))) 0 0x2000) 3 8)
      [0x62, 0xF3, 0x7C, 0x48, 0x56, 0x1C, 0x58, 0xF1]) 3#5
      (List.flatten (List.replicate 4 [0x0001, 0x01FF, 0x8000, 0x8000, 0x0100, 0x0100, 0x8000, 0x8000])) 0x1F80 0x1008
      = true := by
  decide

/-- I12: an unmasked Invalid comes before Precision; PE is not set. -/
theorem test_step_zmm_unmasked_invalid :
    faultOf (run (setMx (setK (setZ launched 5#5 ([0x3C00, 0x3E00, 0x0001, 0x7D00] ++ rep 27 0x3C00 ++ [0xFC00])) 3
      0x8000000F) 0x1F00) [0x62, 0xF3, 0x7C, 0xCB, 0x56, 0xF5, 0x02]) = some (.xm 0x1000#64 0x1F01#32) := by
  decide

/-- I7: `{sae}` with L'L = 11 and every exception unmasked. -/
theorem test_step_sae_unmasked :
    reads (run (setMx (setZ launched 2#5 (a8 ++ rep 24 0x3400)) 0) [0x62, 0xF3, 0x7C, 0x78, 0x56, 0xCA, 0x02]) 1#5
      ([0xB800, 0xBAE0, 0xBBFF, 0x7F00, 0, 0, 0xB080, 0xB955] ++ rep 24 0xBA00) 0 0x1007 = true := by
  decide

/-- P3, first instruction: L'L = 00, all masked, no flag set. -/
theorem test_step_sae_sets_no_flag :
    reads (run (setZ launched 5#5 ([0x7D00, 0x0001, 0x3E00] ++ rep 28 0x3C00 ++ [0xFC00]))
      [0x62, 0xF3, 0x7C, 0x18, 0x56, 0xE5, 0x02]) 4#5 ([0x7F00, 0xBBFF, 0xB800] ++ rep 29 0) 0x1F80 0x1007 = true := by
  decide


/-! ## Witnesses: each obligation's hypotheses are met together -/

/-- ZMM2 = 1.5 in every element: inexact under no mode, invalid never. -/
def quiet : State := setK (setZ launched 2#5 (rep 32 0x3E00)) 1 5
/-- An SNaN and an inexact element in ZMM2, Invalid and Precision unmasked. -/
def signalling : State := setMx (setZ launched 2#5 ([0x7D00, 0x0001] ++ rep 30 0x3E00)) 0
/-- Alignment checking on. -/
def checking : State :=
  { launched with ctl := { launched.ctl with cr0 := launched.ctl.cr0 ||| 0x40000#64, rflags := 0x40002#64, cpl := 3#2 } }
/-- The control state of `launched` with one register changed by `f`. -/
def withCtl (f : Control → Control) : State := { launched with ctl := f launched.ctl }

theorem test_witness_step_runs_decoded :
    decode (modeOf (put launched 0x1000 [0x62, 0xF3, 0x7C, 0x08, 0x56, 0xCA, 0x00]))
      (fetchWindow (put launched 0x1000 [0x62, 0xF3, 0x7C, 0x08, 0x56, 0xCA, 0x00])) = .ok regForm := by decide

theorem test_witness_stored_instruction_runs :
    Instr.wf (modeOf (put launched32 0x1000 [0x62, 0xF3, 0x7C, 0x09, 0x56, 0x08, 0x00])) fullForm = true ∧
    ∀ k < fullForm.length, fetchable (put launched32 0x1000 [0x62, 0xF3, 0x7C, 0x09, 0x56, 0x08, 0x00]) k = true ∧
      (encode fullForm)[k]? = some (memRead (put launched32 0x1000 [0x62, 0xF3, 0x7C, 0x09, 0x56, 0x08, 0x00]).mem
        (fetchAddr (put launched32 0x1000 [0x62, 0xF3, 0x7C, 0x09, 0x56, 0x08, 0x00]) k)) := by decide

/-- Both ends of the length range, 7 and 15 bytes. -/
theorem test_witness_round_trip :
    (regForm.wf .mode64 = true ∧ regForm.length = 7) ∧
    (Instr.wf .mode32 (.vreducephZmm { wfOps with legacy := [.gs, .es, .gs] } (.full (.sibNoBase false 3#2 1#4 9#32))) = true ∧
      Instr.length (.vreducephZmm { wfOps with legacy := [.gs, .es, .gs] } (.full (.sibNoBase false 3#2 1#4 9#32))) = 15) ∧
    decode .mode32 (encode fullForm ++ [0xFF#8]) = .ok fullForm := by decide

def illegalWords : List (List Nat) :=
  [[0x62, 0xFB, 0x7C, 0x08, 0x56, 0xCA, 0], [0x62, 0xF3, 0x78, 0x08, 0x56, 0xCA, 0],
    [0x62, 0xF3, 0x7E, 0x08, 0x56, 0xCA, 0], [0x62, 0xF3, 0xFC, 0x08, 0x56, 0xCA, 0],
    [0x62, 0xF3, 0x74, 0x08, 0x56, 0xCA, 0], [0x62, 0xF3, 0x7C, 0x00, 0x56, 0xCA, 0],
    [0x62, 0xF3, 0x7C, 0x68, 0x56, 0xCA, 0], [0x62, 0xF3, 0x7C, 0x78, 0x56, 0x08, 0],
    [0x62, 0xF3, 0x7C, 0x88, 0x56, 0xCA, 0]]

/-- One word for each pattern of `IllegalPatternsAreInvalidOpcode`, in its order (the seventh has both kinds of source),
in 64-bit mode and after an accepted byte; in 32-bit mode all but stored `V'` = 0, the sixth. -/
theorem test_witness_illegal_patterns :
    modeOf launched = .mode64 ∧ modeOf launched32 ≠ .mode64 ∧ (∀ b ∈ [0x3E#8], AcceptedLegacy b) ∧
    illegalWords.all (fun w => faultOf (run launched w) == some (.ud 0x1000#64 0x1F80#32) &&
      (fetchWindow (put launched 0x1000 (0x3E :: w))).take 8 == 0x3E#8 :: hex w &&
      faultOf (run launched (0x3E :: w)) == some (.ud 0x1000#64 0x1F80#32)) = true ∧
    (illegalWords.eraseIdx 5).all (fun w =>
      faultOf (run launched32 (0x3E :: w)) == some (.ud 0x1000#64 0x1F80#32)) = true := by decide

/-- Each forbidden byte first, and after and before accepted ones; in 64-bit and in 32-bit mode. -/
theorem test_witness_forbidden_legacy :
    regForm.wf (modeOf launched) = true ∧ regForm.wf (modeOf launched32) = true ∧
    [0x66, 0xF2, 0xF3, 0xF0, 0x40, 0x4F].all (fun b =>
      decide (ForbiddenLegacy (BitVec.ofNat 8 b)) && !decide (AcceptedLegacy (BitVec.ofNat 8 b)) &&
      [[b], [0x64, b], [b, 0x67], [0x26, b, 0x2E]].all fun bs =>
        (fetchWindow (put launched 0x1000 (bs ++ [0x62, 0xF3, 0x7C, 0x08, 0x56, 0xCA, 0]))).take (bs.length + 7) ==
            hex bs ++ encode regForm &&
          faultOf (run launched (bs ++ [0x62, 0xF3, 0x7C, 0x08, 0x56, 0xCA, 0])) == some (.ud 0x1000#64 0x1F80#32) &&
          faultOf (run launched32 (bs ++ [0x62, 0xF3, 0x7C, 0x08, 0x56, 0xCA, 0])) == some (.ud 0x1000#64 0x1F80#32))
      = true := by decide

/-- `pp` = 01, another map, another opcode, and a byte that begins nothing; bare, after an accepted byte, after a byte of
R52's #UD rows; in 64-bit and in 32-bit mode. -/
theorem test_witness_other_instructions :
    ¬AcceptedLegacy 0x90#8 ∧ ¬ForbiddenLegacy 0x90#8 ∧
    (∀ b ∈ [0x26#8, 0x66#8], AcceptedLegacy b ∨ ForbiddenLegacy b) ∧
    [launched, launched32].all (fun s => [[], [0x26], [0x66]].all fun ls =>
      refusalOf (run s (ls ++ [0x62, 0xF3, 0x7D, 0x08, 0x56, 0xCA, 0])) == some .neighbourInstruction &&
      refusalOf (run s (ls ++ [0x62, 0xF2, 0x7C, 0x08, 0x56, 0xCA, 0])) == some .otherInstruction &&
      refusalOf (run s (ls ++ [0x62, 0xF3, 0x7C, 0x08, 0x57, 0xCA, 0])) == some .otherInstruction &&
      refusalOf (run s (ls ++ [0x90])) == some .otherInstruction) = true := by decide

/-- Nine legacy bytes before seven: sixteen bytes, one too many, in 64-bit mode, and in 32-bit mode with a register and a
memory source; eight are accepted. -/
theorem test_witness_overlong :
    ((shapeOf regForm).o.legacy = [] ∧ (shapeOf regForm).o.wf .mode32 = true ∧
      (shapeOf regForm).src.wfIn .mode32 (List.replicate 9 LegacyByte.cs) = true ∧
      15 < (List.replicate 9 LegacyByte.cs).length + regForm.length) ∧
    ((shapeOf fullForm).o.legacy = [] ∧ (shapeOf fullForm).o.wf .mode16 = true ∧
      (shapeOf fullForm).src.wfIn .mode16 (.addrSize :: List.replicate 8 LegacyByte.cs) = true) ∧
    [launched, launched32].all (fun s => [regForm, fullForm].all fun i =>
      fetchWindow (put s 0x1000 (rep 9 0x2E ++ (encode i).map BitVec.toNat)) ==
          ((List.replicate 9 LegacyByte.cs).map LegacyByte.code ++ encode i).take 15 &&
        faultOf (run s (rep 9 0x2E ++ (encode i).map BitVec.toNat)) == some (.gp 0x1000#64 0x1F80#32)) = true ∧
    faultOf (run launched16 (0x67 :: rep 8 0x2E ++ (encode fullForm).map BitVec.toNat)) =
      some (.gp 0x1000#64 0x1F80#32) ∧
    (nextOf (run launched (rep 8 0x2E ++ [0x62, 0xF3, 0x7C, 0x08, 0x56, 0xCA, 0x00]))).isSome = true := by decide

/-- BOUND; each of the three bits stored as 0; with CR0.TS = 1 and, for the `{sae}` form, without AVX512VL the refusal
stands; without AVX512VL the 128-bit form is #UD. -/
theorem test_witness_extension_bits :
    modeOf launched32 ≠ .mode64 ∧ NoPlatformUd true launched32 ∧
    NoPlatformUd (narrowEncoding 0x78#8 0xCA#8) { launched32 with cpuid := ⟨true, false⟩ } ∧
    ¬NoPlatformUd (narrowEncoding 0x08#8 0xCA#8) { launched32 with cpuid := ⟨true, false⟩ } ∧
    refusalOf (run launched32 [0x66, 0x62, 0x73, 0x7C, 0x08, 0x56, 0xCA, 0]) = some .otherInstruction ∧
    [[0x62, 0xD3, 0x7C, 0x08, 0x56, 0xCA, 0], [0x62, 0xE3, 0x7C, 0x78, 0x56, 0xCA, 0],
      [0x64, 0x62, 0xF3, 0x7C, 0x81, 0x56, 0xCA, 0]].all (fun w =>
        refusalOf (run { launched32 with ctl := { launched32.ctl with cr0 := 0x60000019#64 } } w) ==
          some .extendedOutside64) = true ∧
    refusalOf (run { launched32 with cpuid := ⟨true, false⟩ } [0x62, 0xE3, 0x7C, 0x78, 0x56, 0xCA, 0]) =
      some .extendedOutside64 ∧
    faultOf (run { launched32 with cpuid := ⟨true, false⟩ } [0x62, 0xE3, 0x7C, 0x08, 0x56, 0xCA, 0]) =
      some (.ud 0x1000#64 0x1F80#32) := by decide

/-- Both address sizes that give 16 bits, the 512-bit form without AVX512VL among them. -/
theorem test_witness_sixteen_bit_addressing :
    (Enabled true launched32 ∧ modeOf launched32 = .mode32 ∧
      refusalOf (run launched32 [0x3E, 0x67, 0x62, 0xF3, 0x7C, 0x08, 0x56, 0x0A, 0]) = some .addressing16) ∧
    (Enabled false { launched16 with cpuid := ⟨true, false⟩ } ∧ modeOf launched16 = .mode16 ∧
      refusalOf (run { launched16 with cpuid := ⟨true, false⟩ } [0x62, 0xF3, 0x7C, 0x59, 0x56, 0x0A, 0]) =
        some .addressing16) := by decide

theorem test_witness_loaded_word :
    Memory.wf State.reset.mem = true ∧ modeOf (State.reset.withFetchWord 48 0xC056187C0362) = .mode64 ∧
    (∀ k < 15, canonical (State.reset.rip + BitVec.ofNat 64 k) = true) ∧
    decodeTableWord 48 0xC056187C0362 = some (.vreducephZmmSae ⟨[], 24#5, 0#3, false, 0#8⟩ 24#5 0#2) := by decide

/-- A denied first byte, a non-canonical `rip`, and an instruction whose last byte alone is denied. -/
theorem test_witness_unfetchable :
    fetchable (deny launched 0x1000 1 (.pageFault 0x10#32)) 0 = false ∧
    fetchable { launched with rip := 0x800000000000#64 } 0 = false ∧
    fetchable { launched with rip := 0x7FFFFFFFFFFF#64 } 0 = true ∧
    (6 < regForm.length ∧ regForm.wf (modeOf launched) = true ∧
      (∀ k < 6, fetchable (deny launched 0x1006 1 .unnamed) k = true) ∧
      fetchable (deny launched 0x1006 1 .unnamed) 6 = false ∧
      refusalOf (run (deny launched 0x1006 1 .unnamed) [0x62, 0xF3, 0x7C, 0x08, 0x56, 0xCA]) = some .fetchOutside) := by
  decide

theorem test_witness_invariant_step :
    StateInv (put quiet 0x1000 [0x62, 0xF3, 0x7C, 0x09, 0x56, 0xCA, 0x00]) ∧
    ∃ t, step (put quiet 0x1000 [0x62, 0xF3, 0x7C, 0x09, 0x56, 0xCA, 0x00]) = .next t :=
  ⟨by unfold StateInv; decide, next_of_isSome (by decide)⟩

/-- Register, full-vector with a denied inactive byte, and broadcast sources. -/
theorem test_witness_xmm_completes :
    Enabled true quiet ∧ (SourceReadable quiet .v128 wfOps 7 (.reg 2#5) ∧ SignalsMasked quiet .v128 wfOps (.reg 2#5) 7) ∧
    SourceReadable (deny quiet 6 10 .unnamed) .v128 wfOps 7 (.full (.based false 0#4 .zero)) ∧
    SignalsMasked (deny quiet 6 10 .unnamed) .v128 wfOps (.full (.based false 0#4 .zero)) 7 ∧
    SourceReadable quiet .v128 wfOps 8 (.bcst (.based false 0#4 (.disp8 1#8))) := by
  refine ⟨by decide, ⟨trivial, by decide⟩, ?_, by decide, ?_⟩
  · show ∀ i < 8, _ → _
    decide
  · show (∃ i < 8, _) → _
    decide

/-- A masked Invalid is signalled, and the source is the destination. -/
theorem test_witness_ymm_completes :
    Enabled true start ∧ SourceReadable start .v256 ⟨[], 2#5, 0#3, false, 2#8⟩ 7 (.reg 2#5) ∧
    SignalsInvalid start .v256 ⟨[], 2#5, 0#3, false, 2#8⟩ (.reg 2#5) 7 ∧
    SignalsMasked start .v256 ⟨[], 2#5, 0#3, false, 2#8⟩ (.reg 2#5) 7 :=
  ⟨by decide, trivial, by decide, by decide⟩

/-- AVX512VL absent. -/
theorem test_witness_zmm_completes :
    Enabled false { quiet with cpuid := ⟨true, false⟩ } ∧
    SignalsMasked { quiet with cpuid := ⟨true, false⟩ } .v512 wfOps (.reg 2#5) 7 ∧
    ∃ t, exec (.vreducephZmm wfOps (.reg 2#5)) { quiet with cpuid := ⟨true, false⟩ } = .next t :=
  ⟨by decide, by decide, next_of_isSome (by decide)⟩

/-- Everything unmasked: the plain form faults, the `{sae}` form completes. -/
theorem test_witness_sae_completes :
    Enabled false signalling ∧ ∃ t, exec saeForm signalling = .next t :=
  ⟨by decide, next_of_isSome (by decide)⟩

/-- For the frame, the upper bits, the plain result of `{sae}`, and what the forms do not depend on: executions that
answer a next state, one for each form. -/
theorem test_witness_next_states :
    (∃ t, exec fullForm quiet = .next t) ∧ (∃ t, exec bcstForm quiet = .next t) ∧
    (∃ t, exec (.vreducephZmm wfOps (.reg 2#5)) quiet = .next t) ∧ (∃ t, exec saeForm quiet = .next t) :=
  ⟨next_of_isSome (by decide), next_of_isSome (by decide), next_of_isSome (by decide), next_of_isSome (by decide)⟩

/-- Each condition of the #UD clause alone, then #NM. -/
theorem test_witness_disabled_platform :
    cr0PE (withCtl fun c => { c with cr0 := 0#64 }).ctl = false ∧
    rflagsVM (withCtl fun c => { c with rflags := 0x20002#64 }).ctl = true ∧
    cr4OSXSAVE (withCtl fun c => { c with cr4 := 0#64 }).ctl = false ∧
    (withCtl fun c => { c with xcr0 := 0xE5#64 }).ctl.xcr0.extractLsb' 1 2 ≠ 3#2 ∧
    (withCtl fun c => { c with xcr0 := 0x67#64 }).ctl.xcr0.extractLsb' 5 3 ≠ 7#3 ∧
    (lenNarrow (shapeOf regForm).vl = true ∧ ({ avx512Fp16 := true, avx512vl := false } : Cpuid).avx512vl = false) ∧
    (cr0TS (withCtl fun c => { c with cr0 := 0x19#64 }).ctl = true ∧
      Enabled true { (withCtl fun c => { c with cr0 := 0x19#64 }) with
        ctl := { (withCtl fun c => { c with cr0 := 0x19#64 }).ctl with cr0 := 0x19#64 &&& ~~~8#64 } }) := by decide

/-- With OSXMMEXCPT = 1 the fault is #XM, with 0 it is #UD; Precision is pending in both. -/
theorem test_witness_unmasked_invalid :
    (shapeOf (.vreducephZmm wfOps (.reg 2#5))).sae = false ∧ Enabled false signalling ∧
    SignalsInvalid signalling .v512 { wfOps with mask := 0#3, imm := 2#8 } (.reg 2#5) 7 ∧
    SignalsPrecision signalling .v512 { wfOps with mask := 0#3, imm := 2#8 } (.reg 2#5) 7 ∧
    mxIM signalling.mxcsr = false ∧
    faultOf (exec (.vreducephZmm { wfOps with mask := 0#3, imm := 2#8 } (.reg 2#5))
      { signalling with ctl := { signalling.ctl with cr4 := 0x40000#64 } }) = some (.ud 0x1000#64 1#32) := by decide

/-- Invalid masked and signalled, Precision unmasked and signalled. -/
theorem test_witness_unmasked_precision :
    SignalsPrecision (setMx signalling 0x80) .v128 { wfOps with mask := 0#3, imm := 2#8 } (.reg 2#5) 7 ∧
    SignalsInvalid (setMx signalling 0x80) .v128 { wfOps with mask := 0#3, imm := 2#8 } (.reg 2#5) 7 ∧
    mxIM (setMx signalling 0x80).mxcsr = true ∧ mxPM (setMx signalling 0x80).mxcsr = false ∧
    faultOf (exec (.vreducephXmm { wfOps with mask := 0#3, imm := 2#8 } (.reg 2#5)) (setMx signalling 0x80)) =
      some (.xm 0x1000#64 0xA1#32) := by decide

/-- `aaa` = 000 does not look at K0; `aaa` = 7 looks at K7, up to its bit 31. -/
theorem test_witness_writemask :
    elemActive launched { wfOps with mask := 0#3 } 5 = true ∧
    elemActive (setK launched 7 0x80000000) { wfOps with mask := 7#3 } 31 = true ∧
    elemActive (setK launched 7 0x80000000) { wfOps with mask := 7#3 } 0 = false := by decide

/-- I11: no active element, the operand in unreadable memory; K1 has ones above KL only. -/
theorem test_witness_no_active_element :
    Enabled true (deny (setK launched 1 0xFF00) 0 0x100 (.pageFault 4#32)) ∧
    (∀ j < 8, elemActive (deny (setK launched 1 0xFF00) 0 0x100 (.pageFault 4#32)) wfOps j = false) := by decide

theorem test_witness_mask_bits_above_kl :
    (∀ (n : Fin 8) (j : Nat), j < 8 → (setK quiet 1 0xFF05).k[n].getLsbD j = quiet.k[n].getLsbD j) ∧
    ∃ t, exec fullForm quiet = .next t :=
  ⟨by decide, next_of_isSome (by decide)⟩

/-- Byte 2 belongs to element 1, which K1 = 5 masks off. -/
theorem test_witness_masked_off_bytes :
    (∀ j < 8, elemActive quiet wfOps j = true →
      memRead [(2, 0x7D#8)] (byteAddr quiet (accessOf quiet .v128 wfOps 7 false (.based false 0#4 .zero)) (2 * j)) =
        memRead quiet.mem (byteAddr quiet (accessOf quiet .v128 wfOps 7 false (.based false 0#4 .zero)) (2 * j)) ∧
      memRead [(2, 0x7D#8)] (byteAddr quiet (accessOf quiet .v128 wfOps 7 false (.based false 0#4 .zero)) (2 * j + 1)) =
        memRead quiet.mem (byteAddr quiet (accessOf quiet .v128 wfOps 7 false (.based false 0#4 .zero)) (2 * j + 1))) ∧
    memRead [(2, 0x7D#8)] 2#64 ≠ memRead quiet.mem 2#64 := by decide

/-- DAZ, FTZ, the other masks and every flag differ. -/
theorem test_witness_other_mxcsr_bits :
    mxRC 0x907F#32 = mxRC quiet.mxcsr ∧ mxIM 0x90FF#32 = mxIM quiet.mxcsr ∧ mxPM 0x90FF#32 = mxPM quiet.mxcsr ∧
    mxRC 0x90FF#32 = mxRC quiet.mxcsr := by decide

/-- Wrap at the top: with base FFFF_FFFF_FFFF_FFFFH, byte 1 lies at 0 in 64-bit mode; 67H cuts to FFFF_FFFFH. A scaled
disp8 after a SIB byte, and an absolute disp32. -/
theorem test_witness_addresses :
    modeOf launched = .mode64 ∧ LegacyByte.addrSize ∉ wfOps.legacy ∧ LegacyByte.fs ∉ wfOps.legacy ∧
    LegacyByte.gs ∉ wfOps.legacy ∧
    byteAddr (setG launched 0 (2 ^ 64 - 1)) (accessOf (setG launched 0 (2 ^ 64 - 1)) .v128 wfOps 7 false
      (.based false 0#4 .zero)) 1 = 0#64 ∧
    byteAddr (setG launched 0 (2 ^ 64 - 1)) (accessOf (setG launched 0 (2 ^ 64 - 1)) .v128
      { wfOps with legacy := [.addrSize] } 8 false (.based false 0#4 .zero)) 0 = 0xFFFFFFFF#64 ∧
    byteAddr (setG launched 3 0x100) (accessOf (setG launched 3 0x100) .v256 wfOps 9 false
      (.sib 3#2 3#4 3#4 (.disp8 0xFF#8))) 0 = 0x8E0#64 ∧
    byteAddr launched (accessOf launched .v256 wfOps 12 true (.sibNoBase false 3#2 4#4 0x80000000#32)) 0 =
      0xFFFFFFFF80000000#64 := by decide

/-- The same base outside 64-bit mode: byte 1 lies at 0; with 16-bit default addressing and 67H a GS base is added; mod =
00 with rm = 101 is a plain disp32. -/
theorem test_witness_addresses_outside_64_bit_mode :
    modeOf launched32 = .mode32 ∧ LegacyByte.addrSize ∉ wfOps.legacy ∧ modeOf launched16 = .mode16 ∧
    byteAddr (setG launched32 0 0xFFFFFFFF) (accessOf (setG launched32 0 0xFFFFFFFF) .v128 wfOps 7 false
      (.based false 0#4 .zero)) 1 = 0#64 ∧
    byteAddr { launched16 with seg := { launched16.seg with gs := ⟨0x100#64, 0xF#32, true⟩ } }
      (accessOf { launched16 with seg := { launched16.seg with gs := ⟨0x100#64, 0xF#32, true⟩ } } .v128
        { wfOps with legacy := [.gs, .addrSize] } 13 false (.ripRel false false 0xFFFFFFFE#32)) 3 = 0x101#64 := by decide

/-- I10: bytes 8 to 15 are denied and element 4 is active; the lowest denied byte is 8. With byte 3 a device's the page
fault is raised all the same. -/
theorem test_witness_page_fault :
    ReadsByte (deny (setK launched 1 0x1F) 8 8 (.pageFault 4#32)) fullForm
      (accessOf (deny (setK launched 1 0x1F) 8 8 (.pageFault 4#32)) .v128 wfOps 7 false (.based false 0#4 .zero)) 8 ∧
    (∀ n < 16, byteLegal (deny (setK launched 1 0x1F) 8 8 (.pageFault 4#32))
      (accessOf (deny (setK launched 1 0x1F) 8 8 (.pageFault 4#32)) .v128 wfOps 7 false (.based false 0#4 .zero)) n = true) ∧
    faultOf (exec fullForm (deny (setK launched 1 0x1F) 8 8 (.pageFault 4#32))) =
      some (.pf 0x1000#64 0x1F80#32 8#64 4#32) ∧
    faultOf (exec fullForm { setK launched 1 0x1F with regions := [⟨3, 1, .unnamed⟩, ⟨8, 8, .pageFault 4#32⟩] }) =
      some (.pf 0x1000#64 0x1F80#32 8#64 4#32) :=
  ⟨⟨rfl, 4, by decide, by decide, .inl rfl⟩, by decide, by decide, by decide⟩

/-- A page fault at byte 2 and an address fault of the launch memory at byte 4: the latter is raised (R83). -/
theorem test_witness_address_verdict :
    ReadsByte { quiet with regions := [⟨4, 1, .generalProtection⟩, ⟨0, 4, .pageFault 4#32⟩] } fullForm
      (accessOf { quiet with regions := [⟨4, 1, .generalProtection⟩, ⟨0, 4, .pageFault 4#32⟩] } .v128 wfOps 7 false
        (.based false 0#4 .zero)) 4 ∧
    faultOf (exec fullForm { quiet with regions := [⟨4, 1, .generalProtection⟩, ⟨0, 4, .pageFault 4#32⟩] }) =
      some (.gp 0x1000#64 0x1F80#32) ∧
    faultOf (exec fullForm { quiet with regions := [⟨4, 1, .stackFault⟩, ⟨5, 1, .generalProtection⟩] }) =
      some (.ss 0x1000#64 0x1F80#32) :=
  ⟨⟨rfl, 2, by decide, by decide, .inl rfl⟩, by decide, by decide⟩

/-- The two bytes of a broadcast element; the second is a device's. Alignment checking is off; at an odd address with it
on, #AC comes first. -/
theorem test_witness_unnamed_memory :
    (∀ n, ReadsByte (deny quiet 0x3 1 .unnamed) bcstForm
        (accessOf (deny quiet 0x3 1 .unnamed) .v256 wfOps 8 true (.based false 4#4 (.disp8 1#8))) n →
      byteLegal (deny quiet 0x3 1 .unnamed)
        (accessOf (deny quiet 0x3 1 .unnamed) .v256 wfOps 8 true (.based false 4#4 (.disp8 1#8))) n = true ∧
      (verdictOf (deny quiet 0x3 1 .unnamed) (byteAddr (deny quiet 0x3 1 .unnamed)
        (accessOf (deny quiet 0x3 1 .unnamed) .v256 wfOps 8 true (.based false 4#4 (.disp8 1#8))) n) ≠ none → n = 1)) ∧
    ¬(cr0AM quiet.ctl = true ∧ rflagsAC quiet.ctl = true ∧ quiet.ctl.cpl = 3#2) ∧
    refusalOf (exec bcstForm (deny quiet 0x3 1 .unnamed)) = some (.unnamedRegion 3#64) ∧
    faultOf (exec bcstForm (deny (setK (setG checking 4 0x2001) 1 1) 0x2003 2 .unnamed)) =
      some (.ac 0x1000#64 0x1F80#32) := by
  refine ⟨?_, by decide, by decide, by decide⟩
  rintro n ⟨-, -, rfl | rfl⟩ <;> decide

/-- The last byte of element 0 is the first non-canonical one: #GP for RAX, #SS for RSP, #GP for RSP with an override. -/
theorem test_witness_non_canonical :
    canonical 0x7FFFFFFFFFFF#64 = true ∧ canonical 0x800000000000#64 = false ∧
    faultOf (exec fullForm (setK (setG launched 0 0x7FFFFFFFFFFF) 1 1)) = some (.gp 0x1000#64 0x1F80#32) ∧
    faultOf (exec bcstForm (setK (setG launched 4 0x7FFFFFFFFFFD) 1 1)) = some (.ss 0x1000#64 0x1F80#32) ∧
    faultOf (exec (.vreducephYmm { wfOps with legacy := [.ds] } (.bcst (.based false 4#4 (.disp8 1#8))))
      (setK (setG launched 4 0x7FFFFFFFFFFD) 1 1)) = some (.gp 0x1000#64 0x1F80#32) ∧
    ReadsByte (setK (setG launched 0 0x7FFFFFFFFFFF) 1 1) fullForm
      (accessOf (setK (setG launched 0 0x7FFFFFFFFFFF) 1 1) .v128 wfOps 7 false (.based false 0#4 .zero)) 1 :=
  ⟨by decide, by decide, by decide, by decide, by decide, ⟨rfl, 0, by decide, by decide, .inr rfl⟩⟩

/-- GS ends at FH: an element at EH, FH is read, one at FH, 10H is not; a last GS override wins over SS. -/
theorem test_witness_segment_limit :
    modeOf launched32 ≠ .mode64 ∧
    (nextOf (exec (.vreducephXmm { wfOps with legacy := [.gs] } (.full (.based false 0#4 (.disp32 0xE#32))))
      (setK launched32 1 1))).isSome = true ∧
    faultOf (exec (.vreducephXmm { wfOps with legacy := [.ss, .gs] } (.full (.based false 0#4 (.disp32 0xF#32))))
      (setK launched32 1 1)) = some (.gp 0x1000#64 0x1F80#32) ∧
    faultOf (exec fullForm (setK { launched32 with seg := { launched32.seg with ds := ⟨0#64, 0xFFFFFFFF#32, false⟩ } } 1 1)) =
      some (.gp 0x1000#64 0x1F80#32) ∧
    (accessOf launched32 .v128 { wfOps with legacy := [.ss, .gs, .addrSize] } 8 false (.based false 0#4 .zero)).seg = .gs ∧
    (accessOf launched32 .v256 wfOps 8 true (.based false 4#4 (.disp8 1#8))).seg = .ss := by decide

/-- A broadcast element at an odd address with checking on; without checking, at an even address, with no active element,
and a full vector complete. -/
theorem test_witness_alignment_check :
    faultOf (exec bcstForm (setK (setG checking 4 0x2001) 1 1)) = some (.ac 0x1000#64 0x1F80#32) ∧
    (nextOf (exec bcstForm (setK (setG launched 4 0x2001) 1 1))).isSome = true ∧
    (nextOf (exec bcstForm (setK (setG checking 4 0x2000) 1 1))).isSome = true ∧
    (nextOf (exec bcstForm (setK (setG checking 4 0x2001) 1 0x10000))).isSome = true ∧
    (nextOf (exec fullForm (setK (setG checking 0 0x2001) 1 1))).isSome = true ∧
    cr0AM checking.ctl = true ∧ rflagsAC checking.ctl = true ∧ checking.ctl.cpl = 3#2 := by decide

/-- Halves, thirds and negative values in the four modes (R11). -/
theorem test_rounding_modes :
    [Rounding.rne, .rd, .ru, .rz].map (rint 5 2) = [2, 2, 3, 2] ∧ [Rounding.rne, .rd, .ru, .rz].map (rint 3 2) = [2, 1, 2, 1] ∧
    [Rounding.rne, .rd, .ru, .rz].map (rint (-5) 2) = [-2, -3, -2, -2] ∧
    [Rounding.rne, .rd, .ru, .rz].map (rint (-7) 3) = [-2, -3, -2, -2] := by decide

/-- Both ends of the range of `RFp16`, the carry to the next exponent, and the first inexact value (R12). -/
theorem test_round_to_fp16 :
    roundFp16 1 .rne = (0x0001#16, false) ∧ roundFp16 (-(2 ^ 24 : Int)) .rd = (0xBC00#16, false) ∧
    roundFp16 (2 ^ 24 - 1) .ru = (0x3C00#16, true) ∧ roundFp16 2049 .rz = (0x0800#16, true) ∧
    roundFp16 2049 .ru = (0x0801#16, true) ∧ roundFp16 (-2049) .rne = (0x8800#16, true) := by decide

/-- Hypotheses of the element statements: the least and greatest NaN, a source on the grid, one below `2^-M`, one at the
least magnitude `2^(10-M)` that gives a zero. -/
theorem test_witness_element_statements :
    ((0x7C01#16 : Half).extractLsb' 10 5 = 31#5 ∧ (0x7C01#16 : Half).extractLsb' 0 10 ≠ 0#10) ∧
    ((0xFFFF#16 : Half).extractLsb' 10 5 = 31#5 ∧ (0xFFFF#16 : Half).extractLsb' 0 10 ≠ 0#10) ∧
    (fpIsFinite 0xC000#16 = true ∧ fpUnits 0xC000#16 % (2 ^ (24 - immM 0#8) : Nat) = 0) ∧
    (fpIsFinite 0x8001#16 = true ∧ fpUnits 0x8001#16 < 0 ∧
      2 * (fpUnits 0x8001#16).natAbs < 2 ^ (24 - immM 0xF1#8)) ∧
    (fpIsFinite 0x6400#16 = true ∧ 2 ^ (34 - immM 0#8) = (fpUnits 0x6400#16).natAbs) := by decide

end Sys2Proof.Tests
end

section
/-! PROOFS. What the decoder does with legacy bytes, EVEX bytes and the bytes of an encoding, and the obligations that
speak of bytes at the fetch address (00_scope.md R4, R5; 30_encoding.md R38 to R53). -/

namespace Sys2Proof.Machine

/-! ## Legacy bytes (R52) -/

@[simp] theorem legacyOf_code (p : LegacyByte) : legacyOf p.code = some p := by
  cases p <;> rfl

/-- The decoder names exactly the accepted legacy bytes. -/
theorem legacyOf_eq_none_iff {b : Byte} : legacyOf b = none ↔ ¬AcceptedLegacy b := by
  unfold legacyOf
  simp only [AcceptedLegacy, List.mem_cons, List.not_mem_nil, or_false, not_or]
  constructor
  · intro h
    split_ifs at h
    exact ⟨‹_›, ‹_›, ‹_›, ‹_›, ‹_›, ‹_›, ‹_›⟩
  · rintro ⟨h1, h2, h3, h4, h5, h6, h7⟩
    simp [h1, h2, h3, h4, h5, h6, h7]

theorem forbiddenLegacy_iff {b : Byte} : forbiddenLegacy b = true ↔ ForbiddenLegacy b := by
  simp [forbiddenLegacy, ForbiddenLegacy, or_assoc]

/-- An accepted legacy byte is not a forbidden one. -/
theorem forbiddenLegacy_eq_false_of_legacyOf {b : Byte} {p : LegacyByte} (h : legacyOf b = some p) :
    forbiddenLegacy b = false := by
  have hacc : AcceptedLegacy b := by
    by_contra hn
    simp [legacyOf_eq_none_iff.2 hn] at h
  revert hacc
  simp only [AcceptedLegacy, List.mem_cons, List.not_mem_nil, or_false]
  rintro (rfl | rfl | rfl | rfl | rfl | rfl | rfl) <;> rfl

/-- The split of legacy bytes before a byte that is none: the accepted ones by name, and whether a forbidden one stands
among them. -/
theorem splitLegacy_append {ls : List Byte} (hls : ∀ b ∈ ls, AcceptedLegacy b ∨ ForbiddenLegacy b) {b : Byte}
    (hb : ¬AcceptedLegacy b) (hf : ¬ForbiddenLegacy b) (rest : List Byte) :
    splitLegacy (ls ++ b :: rest) = (ls.filterMap legacyOf, ls.any forbiddenLegacy, b :: rest) := by
  induction ls with
  | nil => simp [splitLegacy, legacyOf_eq_none_iff.2 hb, forbiddenLegacy_iff, hf]
  | cons c cs ih =>
    have ih := ih fun x hx => hls x (List.mem_cons_of_mem _ hx)
    cases hc : legacyOf c with
    | some p => simp [splitLegacy, hc, ih, forbiddenLegacy_eq_false_of_legacyOf hc]
    | none =>
      have hfc : forbiddenLegacy c = true :=
        forbiddenLegacy_iff.2 ((hls c List.mem_cons_self).resolve_left (legacyOf_eq_none_iff.1 hc))
      simp [splitLegacy, hc, ih, hfc]

theorem not_any_forbiddenLegacy {ls : List Byte} (hls : ∀ b ∈ ls, AcceptedLegacy b) :
    ls.any forbiddenLegacy = false := by
  rw [List.any_eq_false]
  intro b hb
  cases hp : legacyOf b with
  | none => exact absurd (hls b hb) (legacyOf_eq_none_iff.1 hp)
  | some p => simp [forbiddenLegacy_eq_false_of_legacyOf hp]

theorem acceptedLegacy_code (p : LegacyByte) : AcceptedLegacy p.code := by
  cases p <;> decide

/-- 67H among the legacy bytes is the address-size byte among their names. -/
theorem addrSize_mem_filterMap {ls : List Byte} :
    LegacyByte.addrSize ∈ ls.filterMap legacyOf ↔ 0x67#8 ∈ ls := by
  have hcode : ∀ b, legacyOf b = some .addrSize ↔ b = 0x67#8 := by
    intro b
    unfold legacyOf
    split_ifs <;> simp_all
  simp [List.mem_filterMap, hcode]

/-! ## From the window to the body (R39) -/

theorem not_acceptedLegacy_62 : ¬AcceptedLegacy 0x62#8 := by decide
theorem not_forbiddenLegacy_62 : ¬ForbiddenLegacy 0x62#8 := by decide

/-- An outcome of the body that does not ask for more bytes is the outcome of decoding. -/
theorem decode_eq_of_decodeBody {m : Mode} {bs tail : List Byte} {legacy : List LegacyByte} {forbidden : Bool}
    {r : Except DecodeError Instr} (hs : splitLegacy (bs.take 15) = (legacy, forbidden, tail))
    (hb : decodeBody m legacy forbidden tail = r) (hr : r ≠ .error .truncated) : decode m bs = r := by
  unfold decode
  simp only [Config.maxLength, hs, hb]

theorem fetchFrom_length_le (s : State) (fuel k : Nat) : (fetchFrom s fuel k).length ≤ fuel := by
  induction fuel generalizing k with
  | zero => simp [fetchFrom]
  | succ fuel ih =>
    unfold fetchFrom
    split
    · simpa using ih (k + 1)
    · simp

/-- The step sees at most 15 bytes, so the decoder cuts none of them off. -/
theorem take_fetchWindow (s : State) : (fetchWindow s).take 15 = fetchWindow s :=
  List.take_of_length_le (fetchFrom_length_le s 15 0)

/-- A step at bytes that decode executes the instruction (R5, R72 (1)). -/
theorem step_of_decode_ok {s : State} {i : Instr} (h : decode (modeOf s) (fetchWindow s) = .ok i) :
    step s = exec i s := by
  simp [step, decodeNext, h]

/-- A step at bytes that do not decode stops with the decoder's error. -/
theorem step_of_decode_error {s : State} {e : DecodeError} (h : decode (modeOf s) (fetchWindow s) = .error e) :
    step s = decodeStop e s := by
  simp [step, decodeNext, h]

/-- A step at legacy bytes and a first byte that is none stops with the error the body gives. -/
theorem step_of_decodeBody_error {s : State} {ls : List Byte} {b : Byte} {rest : List Byte} {e : DecodeError}
    (hls : ∀ b ∈ ls, AcceptedLegacy b ∨ ForbiddenLegacy b) (hw : fetchWindow s = ls ++ b :: rest)
    (hb : ¬AcceptedLegacy b) (hf : ¬ForbiddenLegacy b)
    (he : decodeBody (modeOf s) (ls.filterMap legacyOf) (ls.any forbiddenLegacy) (b :: rest) = .error e)
    (hne : e ≠ .truncated) : step s = decodeStop e s :=
  step_of_decode_error <| decode_eq_of_decodeBody
    (by rw [take_fetchWindow, hw, splitLegacy_append hls hb hf]) he (by simpa using hne)

/-- The body of an EVEX encoding with its ModRM byte: map 0F3A and opcode 56H, or another instruction. -/
theorem decodeBody_evex {m : Mode} {p0 : Byte} (hm : m = .mode64 ∨ p0.extractLsb' 6 2 = 3#2)
    (legacy : List LegacyByte) (forbidden : Bool) (p1 p2 op modrm : Byte) (rest : List Byte) :
    decodeBody m legacy forbidden (0x62#8 :: p0 :: p1 :: p2 :: op :: modrm :: rest) =
      if p0.extractLsb' 0 3 ≠ 3#3 ∨ op ≠ 0x56#8 then .error .otherInstruction
      else decodeEvex m legacy forbidden ⟨p0, p1, p2, modrm⟩ rest := by
  have hb : ¬(m ≠ .mode64 ∧ p0.extractLsb' 6 2 ≠ 3#2) := by tauto
  simp only [decodeBody, ne_eq, not_true_eq_false, if_false, if_neg hb]

/-! ## Refusals -/

/-- Settles O9: each clause is the error that the body gives after any legacy bytes. -/
theorem otherInstructionsAreRefused : Obligations.OtherInstructionsAreRefused := by
  intro s ls hls
  refine ⟨?_, ?_, ?_⟩
  · intro p0 p1 p2 modrm rest hw hmap hm hpp
    refine step_of_decodeBody_error hls hw not_acceptedLegacy_62 not_forbiddenLegacy_62 (e := .neighbour) ?_ (by simp)
    have hpp' : evexPp ⟨p0, p1, p2, modrm⟩ = 1#2 := hpp
    rw [decodeBody_evex hm, if_neg (by simp [hmap]), decodeEvex, if_pos hpp']
  · intro p0 p1 p2 op modrm rest hw hm hother
    refine step_of_decodeBody_error hls hw not_acceptedLegacy_62 not_forbiddenLegacy_62
      (e := .otherInstruction) ?_ (by simp)
    rw [decodeBody_evex hm, if_pos hother]
  · intro b rest hw hacc hforb hb
    refine step_of_decodeBody_error hls hw hacc hforb (e := .otherInstruction) ?_ (by simp)
    simp only [decodeBody, if_pos hb]

/-- Settles O1. -/
theorem stepRunsDecodedInstruction : Obligations.StepRunsDecodedInstruction :=
  fun _ _ => step_of_decode_ok

/-- The patterns of R51 and R52 in the fields of an encoding with no forbidden byte before it: none of them applies. -/
theorem udCause_eq_none {m : Mode} {e : Evex} (h3 : e.p0.getLsbD 3 = false) (hp1 : e.p1 = 0x7C#8)
    (hv : e.p2.getLsbD 3 = true) (hll : evexLL e ≠ 3#2 ∨ evexSae e = true)
    (hz : evexZ e = false ∨ evexAaa e ≠ 0#3) : udCause m false e = none := by
  have hlen : ¬(evexLL e == 3#2 && !evexSae e) = true := by
    rcases hll with h | h <;> simp [h]
  have hzero : ¬(evexZ e && evexAaa e == 0#3) = true := by
    rcases hz with h | h <;> simp [h]
  have hpp : evexPp e = 0#2 := by simp [evexPp, hp1]
  simp [udCause, h3, hp1, hv, hlen, hzero, hpp, -BitVec.getLsbD_eq_getElem]

/-- An encoding with good fixed fields is its operands (R51, R53). -/
theorem decodeEvex_eq_decodeOperands {m : Mode} {e : Evex} (legacy : List LegacyByte) (bs : List Byte)
    (hp1 : e.p1 = 0x7C#8) (hud : udCause m false e = none)
    (hext : m = .mode64 ∨ (evexB e = false ∧ evexR' e = false ∧ e.p2.getLsbD 3 = true)) :
    decodeEvex m legacy false e bs = decodeOperands m legacy e bs := by
  have hin : ¬(m ≠ .mode64 ∧ (evexB e || evexR' e || !e.p2.getLsbD 3) = true) := by
    rintro ⟨hm, hbits⟩
    obtain ⟨hb, hr, hv⟩ := hext.resolve_left hm
    rw [hb, hr, hv] at hbits
    cases hbits
  rw [decodeEvex, if_neg (by simp [evexPp, hp1]), hud]
  exact if_neg hin

/-- A memory source with 16-bit addressing stops there, whatever follows ModRM. -/
theorem decodeOperands_addressing16 {m : Mode} {legacy : List LegacyByte} {e : Evex} (bs : List Byte)
    (hmod : evexMod e ≠ 3#2) (ha : addrSizeOf m legacy = .a16) :
    decodeOperands m legacy e bs = .error (.addressing16 (evexNarrow e)) := by
  simp only [decodeOperands, if_neg hmod, if_pos ha]

theorem decodeStop_addressing16_of_enabled {s : State} {narrow : Bool} (h : Enabled narrow s) :
    decodeStop (.addressing16 narrow) s = .refused .addressing16 := by
  simp [decodeStop, platformFault_eq_none.2 h]

/-- 67H with 32-bit default addressing, or no 67H with 16-bit default addressing, is 16-bit addressing. -/
theorem addrSizeOf_filterMap_eq_a16 {m : Mode} {ls : List Byte}
    (h : m = .mode32 ∧ 0x67#8 ∈ ls ∨ m = .mode16 ∧ 0x67#8 ∉ ls) :
    addrSizeOf m (ls.filterMap legacyOf) = .a16 := by
  rw [← addrSize_mem_filterMap] at h
  rcases h with ⟨rfl, h⟩ | ⟨rfl, h⟩ <;> simp [addrSizeOf, h]

/-- Settles O12: the fixed fields are good, so decoding gets as far as the address size. -/
theorem sixteenBitAddressingIsRefused : Obligations.SixteenBitAddressingIsRefused := by
  intro s ls p2 modrm rest hls hmode hw hmod hv hll hz hen
  have hbody : decodeBody (modeOf s) (ls.filterMap legacyOf) (ls.any forbiddenLegacy)
      (0x62#8 :: 0xF3#8 :: 0x7C#8 :: p2 :: 0x56#8 :: modrm :: rest) =
        .error (.addressing16 (p2.extractLsb' 5 2 != 2#2)) := by
    have hnarrow : evexNarrow ⟨0xF3#8, 0x7C#8, p2, modrm⟩ = (p2.extractLsb' 5 2 != 2#2) := by
      simp [evexNarrow, evexSae, evexMod, evexLL, hmod]
    have hud : udCause (modeOf s) false ⟨0xF3#8, 0x7C#8, p2, modrm⟩ = none :=
      udCause_eq_none (by simp) rfl hv (.inl hll) hz
    rw [decodeBody_evex (.inr (by decide)), if_neg (by decide), not_any_forbiddenLegacy hls,
      decodeEvex_eq_decodeOperands _ _ rfl hud (.inr ⟨by simp [evexB], by simp [evexR'], hv⟩),
      decodeOperands_addressing16 (e := ⟨0xF3#8, 0x7C#8, p2, modrm⟩) _ hmod (addrSizeOf_filterMap_eq_a16 hmode),
      hnarrow]
  rw [step_of_decodeBody_error (fun b hb => .inl (hls b hb)) hw not_acceptedLegacy_62 not_forbiddenLegacy_62 hbody
    (by simp), decodeStop_addressing16_of_enabled hen]

end Sys2Proof.Machine
end

section
/-! PROOFS. The bytes of an encoding decode to the instruction (30_encoding.md R39 to R53), and an instruction stored
where the step fetches runs. -/

namespace Sys2Proof

/-! ## The fields of a byte, and a number from its fields (R40, R42, R46) -/

section Bytes
variable (dst : BitVec 5) (x b z : Bool) (ll mod : BitVec 2) (aaa reg rm : BitVec 3)

theorem p0Byte_bit7 : (p0Byte dst x b).getLsbD 7 = !dst.getLsbD 3 := by revert dst x b; decide
theorem p0Byte_bit6 : (p0Byte dst x b).getLsbD 6 = !x := by revert dst x b; decide
theorem p0Byte_bit5 : (p0Byte dst x b).getLsbD 5 = !b := by revert dst x b; decide
theorem p0Byte_bit4 : (p0Byte dst x b).getLsbD 4 = !dst.getLsbD 4 := by revert dst x b; decide
theorem p0Byte_bit3 : (p0Byte dst x b).getLsbD 3 = false := by revert dst x b; decide
theorem p0Byte_map : (p0Byte dst x b).extractLsb' 0 3 = 3#3 := by revert dst x b; decide

theorem p2Byte_z : (p2Byte z ll b aaa).getLsbD 7 = z := by revert z ll b aaa; decide
theorem p2Byte_ll : (p2Byte z ll b aaa).extractLsb' 5 2 = ll := by revert z ll b aaa; decide
theorem p2Byte_b : (p2Byte z ll b aaa).getLsbD 4 = b := by revert z ll b aaa; decide
theorem p2Byte_bit3 : (p2Byte z ll b aaa).getLsbD 3 = true := by revert z ll b aaa; decide
theorem p2Byte_aaa : (p2Byte z ll b aaa).extractLsb' 0 3 = aaa := by revert z ll b aaa; decide

theorem modrmByte_mod : (modrmByte mod reg rm).extractLsb' 6 2 = mod := by revert mod reg rm; decide
theorem modrmByte_reg : (modrmByte mod reg rm).extractLsb' 3 3 = reg := by revert mod reg rm; decide
theorem modrmByte_rm : (modrmByte mod reg rm).extractLsb' 0 3 = rm := by revert mod reg rm; decide

theorem sibByte_scale : (sibByte mod reg rm).extractLsb' 6 2 = mod := modrmByte_mod mod reg rm
theorem sibByte_index : (sibByte mod reg rm).extractLsb' 3 3 = reg := modrmByte_reg mod reg rm
theorem sibByte_base : (sibByte mod reg rm).extractLsb' 0 3 = rm := modrmByte_rm mod reg rm

end Bytes

/-- Without extension bits `62 P0` is not BOUND (R53). -/
theorem p0Byte_high_of_low : ∀ (dst : BitVec 5) (b : Bool), dst.getLsbD 3 = false →
    (p0Byte dst false b).extractLsb' 6 2 = 3#2 := by
  decide

theorem vectorNumber_of_fields : ∀ n : BitVec 5,
    BitVec.ofBool (n.getLsbD 4) ++ BitVec.ofBool (n.getLsbD 3) ++ n.extractLsb' 0 3 = n := by
  decide

theorem gprNumber_of_fields : ∀ n : BitVec 4, gprNumber (n.getLsbD 3) (n.extractLsb' 0 3) = n := by
  decide

theorem regIn_of_ne_mode64 {m : Mode} (hm : m ≠ .mode64) {n : BitVec 5} (h : regIn m n = true) :
    n.getLsbD 3 = false ∧ n.getLsbD 4 = false := by
  have hhigh : ∀ n : BitVec 5, n.extractLsb' 3 2 = 0#2 → n.getLsbD 3 = false ∧ n.getLsbD 4 = false := by decide
  exact hhigh n (by simpa [regIn, hm] using h)

/-! ## The EVEX fields of an encoding -/

/-- The four free bytes of the encoding that `encodeParts` writes. -/
def evexOfParts (o : Operands) (p : RmPart) (ll : BitVec 2) (b : Bool) : Evex :=
  ⟨p0Byte o.dst p.x p.b, 0x7C#8, p2Byte o.zeroing ll b o.mask, modrmByte p.mod (o.dst.extractLsb' 0 3) p.rm⟩

@[simp] theorem regPart_mod (n : BitVec 5) : (regPart n).mod = 3#2 := rfl
@[simp] theorem regPart_tail (n : BitVec 5) : (regPart n).tail = [] := rfl

section Fields
variable (o : Operands) (p : RmPart) (ll : BitVec 2) (b : Bool)

theorem encodeParts_append (rest : List Byte) :
    encodeParts o p ll b ++ rest = o.legacy.map LegacyByte.code ++ 0x62#8 :: (evexOfParts o p ll b).p0 :: 0x7C#8 ::
      (evexOfParts o p ll b).p2 :: 0x56#8 :: (evexOfParts o p ll b).modrm :: (p.tail ++ o.imm :: rest) := by
  simp [encodeParts, evexOfParts]

@[simp] theorem evexMod_evexOfParts : evexMod (evexOfParts o p ll b) = p.mod := modrmByte_mod _ _ _
@[simp] theorem evexRm_evexOfParts : evexRm (evexOfParts o p ll b) = p.rm := modrmByte_rm _ _ _
@[simp] theorem evexReg_evexOfParts : evexReg (evexOfParts o p ll b) = o.dst.extractLsb' 0 3 :=
  modrmByte_reg _ _ _
@[simp] theorem evexLL_evexOfParts : evexLL (evexOfParts o p ll b) = ll := p2Byte_ll _ _ _ _
@[simp] theorem evexZ_evexOfParts : evexZ (evexOfParts o p ll b) = o.zeroing := p2Byte_z _ _ _ _
@[simp] theorem evexBit_evexOfParts : evexBit (evexOfParts o p ll b) = b := p2Byte_b _ _ _ _
@[simp] theorem evexAaa_evexOfParts : evexAaa (evexOfParts o p ll b) = o.mask := p2Byte_aaa _ _ _ _

@[simp] theorem evexR_evexOfParts : evexR (evexOfParts o p ll b) = o.dst.getLsbD 3 := by
  rw [evexR, evexOfParts, p0Byte_bit7, Bool.not_not]

@[simp] theorem evexX_evexOfParts : evexX (evexOfParts o p ll b) = p.x := by
  rw [evexX, evexOfParts, p0Byte_bit6, Bool.not_not]

@[simp] theorem evexB_evexOfParts : evexB (evexOfParts o p ll b) = p.b := by
  rw [evexB, evexOfParts, p0Byte_bit5, Bool.not_not]

@[simp] theorem evexR'_evexOfParts : evexR' (evexOfParts o p ll b) = o.dst.getLsbD 4 := by
  rw [evexR', evexOfParts, p0Byte_bit4, Bool.not_not]

@[simp] theorem evexDst_evexOfParts : evexDst (evexOfParts o p ll b) = o.dst := by
  rw [evexDst, evexR'_evexOfParts, evexR_evexOfParts, evexReg_evexOfParts, vectorNumber_of_fields]

@[simp] theorem evexSrcReg_evexOfParts (n : BitVec 5) : evexSrcReg (evexOfParts o (regPart n) ll b) = n := by
  rw [evexSrcReg, evexX_evexOfParts, evexB_evexOfParts, evexRm_evexOfParts]
  exact vectorNumber_of_fields n

@[simp] theorem evexOperands_evexOfParts : evexOperands o.legacy (evexOfParts o p ll b) o.imm = o := by
  simp [evexOperands]

end Fields

/-! ## Displacements and memory operands (R39, R42, R43) -/

theorem le32_of_bytes (d : BitVec 32) :
    le32 (d.extractLsb' 0 8) (d.extractLsb' 8 8) (d.extractLsb' 16 8) (d.extractLsb' 24 8) = d := by
  rw [le32, BitVec.extractLsb'_append_extractLsb'_eq_extractLsb' (by rfl),
    BitVec.extractLsb'_append_extractLsb'_eq_extractLsb' (by rfl),
    BitVec.extractLsb'_append_extractLsb'_eq_extractLsb' (by rfl)]
  exact BitVec.extractLsb'_eq_self

@[simp] theorem takeDisp32_disp32Bytes (d : BitVec 32) (rest : List Byte) :
    takeDisp32 (disp32Bytes d ++ rest) = some (d, rest) := by
  simp only [disp32Bytes, List.cons_append, List.nil_append, takeDisp32, le32_of_bytes]

@[simp] theorem takeDisp_bytes (d : Disp) (rest : List Byte) :
    takeDisp d.mod (d.bytes ++ rest) = some (d, rest) := by
  cases d with
  | zero => rfl
  | disp8 d => rfl
  | disp32 d => simp [takeDisp, Disp.mod, Disp.bytes]

theorem Disp.mod_eq_zero {d : Disp} : d.mod = 0#2 ↔ d = .zero := by
  cases d <;> simp [Disp.mod]

theorem Disp.mod_ne_three (d : Disp) : d.mod ≠ 3#2 := by
  cases d <;> simp [Disp.mod]

/-- A well-formed base with its displacement does not announce that there is no base (R42). -/
theorem Disp.not_noBase {d : Disp} {base : BitVec 3} (h : d ≠ .zero ∨ base ≠ 5#3) : ¬(d.mod = 0#2 ∧ base = 5#3) := by
  rw [Disp.mod_eq_zero]
  tauto

theorem Mem.part_mod_ne_three (a : Mem) : a.part.mod ≠ 3#2 := by
  cases a with
  | ripRel x b d => simp [Mem.part]
  | based x base d => exact Disp.mod_ne_three d
  | sib scale index base d => exact Disp.mod_ne_three d
  | sibNoBase b scale index d => simp [Mem.part]

/-- The bytes of a memory operand, in the encoding that announces it, give it back. -/
theorem takeMem_part {a : Mem} (h : a.wf = true) (o : Operands) (ll : BitVec 2) (b : Bool) (rest : List Byte) :
    takeMem (evexOfParts o a.part ll b) (a.part.tail ++ rest) = some (a, rest) := by
  cases a with
  | ripRel x b d => simp [takeMem, Mem.part]
  | based x base d =>
    simp only [Mem.wf, Bool.and_eq_true, bne_iff_ne, Bool.or_eq_true] at h
    simp [takeMem, Mem.part, h.1, Disp.not_noBase h.2, gprNumber_of_fields, -BitVec.getLsbD_eq_getElem]
  | sib scale index base d =>
    simp only [Mem.wf, Bool.or_eq_true, bne_iff_ne] at h
    simp [takeMem, Mem.part, sibByte_scale, sibByte_index, sibByte_base, Disp.not_noBase h, gprNumber_of_fields,
      -BitVec.getLsbD_eq_getElem]
  | sibNoBase b scale index d =>
    simp [takeMem, Mem.part, sibByte_scale, sibByte_index, sibByte_base, gprNumber_of_fields,
      -BitVec.getLsbD_eq_getElem]

/-! ## Well-formed operands and lengths (R39, R53) -/

theorem Mem.wfIn_iff {m : Mode} {legacy : List LegacyByte} {a : Mem} : a.wfIn m legacy = true ↔
    a.wf = true ∧ (m = .mode64 ∨ a.low = true) ∧ addrSizeOf m legacy ≠ .a16 := by
  simp [Mem.wfIn, and_assoc]

/-- The parts of a source use no extension bit outside 64-bit mode (R53). -/
theorem Source.part_low {m : Mode} (hm : m ≠ .mode64) {legacy : List LegacyByte} {src : Source}
    (h : src.wfIn m legacy = true) : src.part.x = false ∧ src.part.b = false := by
  have hmem : ∀ a : Mem, a.wfIn m legacy = true → a.part.x = false ∧ a.part.b = false := by
    intro a ha
    have hlow : a.low = true := (Mem.wfIn_iff.1 ha).2.1.resolve_left hm
    cases a <;> simpa [Mem.low, Mem.part, -BitVec.getLsbD_eq_getElem, and_comm] using hlow
  cases src with
  | reg n => exact (regIn_of_ne_mode64 hm h).symm
  | full a => exact hmem a h
  | bcst a => exact hmem a h

theorem plainWf_iff {m : Mode} {o : Operands} {src : Source} : plainWf m o src = true ↔
    o.wf m = true ∧ src.wfIn m o.legacy = true ∧ plainLength o src ≤ 15 := by
  simp only [plainWf, Bool.and_eq_true, decide_eq_true_eq, and_assoc]
  rfl

theorem encode_length (i : Instr) : (encode i).length = i.length := by
  cases i with
  | vreducephXmm o src => exact Laws.EncodeLength.vreducephXmm o src
  | vreducephYmm o src => exact Laws.EncodeLength.vreducephYmm o src
  | vreducephZmm o src => exact Laws.EncodeLength.vreducephZmm o src
  | vreducephZmmSae o n ll => exact Laws.EncodeLength.vreducephZmmSae o n ll

theorem length_le_fifteen_of_wf {m : Mode} {i : Instr} (h : i.wf m = true) : i.length ≤ 15 := by
  cases i <;> exact (plainWf_iff.1 h).2.2

end Sys2Proof

namespace Sys2Proof.Machine

/-! ## Decoding an encoding -/

/-- An encoding whose fields are good decodes to what its operand bytes give, whatever follows it. -/
theorem decode_encodeParts {m : Mode} {o : Operands} {p : RmPart} {ll : BitVec 2} {b : Bool} {i : Instr}
    (ho : o.wf m = true) (hlow : m ≠ .mode64 → p.x = false ∧ p.b = false)
    (hll : ll ≠ 3#2 ∨ (b = true ∧ p.mod = 3#2)) (hlen : (encodeParts o p ll b).length ≤ 15)
    (hop : ∀ rest, decodeOperands m o.legacy (evexOfParts o p ll b) (p.tail ++ o.imm :: rest) = .ok i)
    (rest : List Byte) : decode m (encodeParts o p ll b ++ rest) = .ok i := by
  obtain ⟨hreg, hz⟩ : regIn m o.dst = true ∧ (o.zeroing = false ∨ o.mask ≠ 0#3) := by
    simpa [Operands.wf] using ho
  have hacc : ∀ x ∈ o.legacy.map LegacyByte.code, AcceptedLegacy x := by
    simpa only [List.forall_mem_map] using fun c _ => acceptedLegacy_code c
  have hhigh : m = .mode64 ∨ (evexOfParts o p ll b).p0.extractLsb' 6 2 = 3#2 := by
    refine or_iff_not_imp_left.2 fun hm => ?_
    rw [evexOfParts, (hlow hm).1]
    exact p0Byte_high_of_low _ _ (regIn_of_ne_mode64 hm hreg).1
  have hext : m = .mode64 ∨ (evexB (evexOfParts o p ll b) = false ∧ evexR' (evexOfParts o p ll b) = false ∧
      (evexOfParts o p ll b).p2.getLsbD 3 = true) := by
    refine or_iff_not_imp_left.2 fun hm => ?_
    rw [evexB_evexOfParts, evexR'_evexOfParts]
    exact ⟨(hlow hm).2, (regIn_of_ne_mode64 hm hreg).2, p2Byte_bit3 _ _ _ _⟩
  have hud : udCause m false (evexOfParts o p ll b) = none :=
    udCause_eq_none (p0Byte_bit3 _ _ _) rfl (p2Byte_bit3 _ _ _ _)
      (by simpa [evexSae] using hll) (by simpa using hz)
  have htake : (encodeParts o p ll b ++ rest).take 15 =
      encodeParts o p ll b ++ rest.take (15 - (encodeParts o p ll b).length) := by
    rw [List.take_append, List.take_of_length_le hlen]
  have hnames : (o.legacy.map LegacyByte.code).filterMap legacyOf = o.legacy := by
    simp [List.filterMap_map]
  refine decode_eq_of_decodeBody (by rw [htake, encodeParts_append,
    splitLegacy_append (fun x hx => .inl (hacc x hx)) not_acceptedLegacy_62 not_forbiddenLegacy_62]) ?_ (by simp)
  rw [decodeBody_evex hhigh, if_neg (by simp [evexOfParts, p0Byte_map]), not_any_forbiddenLegacy hacc, hnames]
  exact (decodeEvex_eq_decodeOperands _ _ rfl hud hext).trans (hop _)

/-- The operand bytes of a plain form decode to the source. -/
theorem decodeOperands_plain {m : Mode} {o : Operands} {src : Source} (h : src.wfIn m o.legacy = true) (ll : BitVec 2)
    (rest : List Byte) :
    decodeOperands m o.legacy (evexOfParts o src.part ll src.bit) (src.part.tail ++ o.imm :: rest) =
      .ok (plainForm ll o src) := by
  have hmem : ∀ (a : Mem) (b : Bool), a.wfIn m o.legacy = true →
      decodeOperands m o.legacy (evexOfParts o a.part ll b) (a.part.tail ++ o.imm :: rest) =
        .ok (plainForm ll o (if b then .bcst a else .full a)) := by
    intro a b ha
    obtain ⟨hwf, -, hsize⟩ := Mem.wfIn_iff.1 ha
    simp [decodeOperands, Mem.part_mod_ne_three, hsize, takeMem_part hwf]
  cases src with
  | reg n => simp [decodeOperands, Source.part, Source.bit]
  | full a => exact hmem a false h
  | bcst a => exact hmem a true h

/-- A well-formed plain form decodes from its encoding. -/
theorem decode_plain {m : Mode} {o : Operands} {src : Source} (h : plainWf m o src = true) {ll : BitVec 2}
    (hll : ll ≠ 3#2) (rest : List Byte) :
    decode m (encodeParts o src.part ll src.bit ++ rest) = .ok (plainForm ll o src) := by
  obtain ⟨ho, hsrc, hlen⟩ := plainWf_iff.1 h
  refine decode_encodeParts ho (fun hm => Source.part_low hm hsrc) (.inl hll) ?_
    (decodeOperands_plain hsrc ll) rest
  rwa [encodeParts_length, Source.part_tail_length]

/-- A well-formed instruction decodes from its encoding, whatever bytes follow (R39 to R50). -/
theorem decode_encode_append {m : Mode} {i : Instr} (h : i.wf m = true) (rest : List Byte) :
    decode m (encode i ++ rest) = .ok i := by
  cases i with
  | vreducephXmm o src => exact decode_plain h (by decide) rest
  | vreducephYmm o src => exact decode_plain h (by decide) rest
  | vreducephZmm o src => exact decode_plain h (by decide) rest
  | vreducephZmmSae o n ll =>
    obtain ⟨ho, hreg, hlen⟩ := plainWf_iff.1 h
    refine decode_encodeParts ho (fun hm => (regIn_of_ne_mode64 hm hreg).symm) (.inr ⟨rfl, rfl⟩) ?_ ?_ rest
    · rwa [encodeParts_length]
    · intro rest
      simp [decodeOperands]

/-! ## An instruction stored where the step fetches (R5, R17) -/

/-- Bytes that stand where instruction bytes `k`, `k + 1`, … are fetched, and can be fetched, are fetched first. -/
theorem fetchFrom_eq_append {s : State} {bs : List Byte} {fuel k : Nat} (hfuel : bs.length ≤ fuel)
    (h : ∀ j < bs.length, fetchable s (k + j) = true ∧ bs[j]? = some (memRead s.mem (fetchAddr s (k + j)))) :
    fetchFrom s fuel k = bs ++ fetchFrom s (fuel - bs.length) (k + bs.length) := by
  induction bs generalizing fuel k with
  | nil => simp
  | cons b bs ih =>
    obtain ⟨fuel, rfl⟩ : ∃ f, fuel = f + 1 := ⟨fuel - 1, by simp at hfuel; omega⟩
    obtain ⟨hf, hb⟩ := h 0 (by simp)
    have hrest := ih (fuel := fuel) (k := k + 1) (by simpa using hfuel) fun j hj => by
      simpa [Nat.add_assoc, Nat.add_comm 1] using h (j + 1) (by simpa using hj)
    obtain rfl : b = memRead s.mem (fetchAddr s k) := by simpa using hb
    simp only [Nat.add_zero] at hf
    rw [fetchFrom, if_pos hf, hrest, List.length_cons, Nat.add_sub_add_right, Nat.add_assoc k, Nat.add_comm 1,
      List.cons_append]

/-- Settles O2: the window begins with the encoding, which decodes to the instruction. -/
theorem storedInstructionRuns : Obligations.StoredInstructionRuns := by
  intro s i hwf hbytes
  have hlen : (encode i).length ≤ 15 := encode_length i ▸ length_le_fifteen_of_wf hwf
  have hwindow : fetchWindow s = encode i ++ fetchFrom s (15 - (encode i).length) (0 + (encode i).length) :=
    fetchFrom_eq_append hlen (by simpa [encode_length] using hbytes)
  exact step_of_decode_ok (by rw [hwindow, decode_encode_append hwf])

end Sys2Proof.Machine
end

section
/-! PROOFS. The elements of a register as bits of its 512-bit number, and what a completed register form leaves in its
destination (00_scope.md R7; 30_encoding.md R46 to R48; 40_vreduceph.md R66). -/

namespace Sys2Proof.Machine

/-! ## The number a register holds (R7) -/

theorem lanesBits_succ (v : Lanes) (n : Nat) :
    lanesBits v (n + 1) = lanesBits v n + (lane v n).toNat * 2 ^ (16 * n) := by
  unfold lane
  rw [lanesBits]
  split <;> simp

theorem lanesBits_lt (v : Lanes) (n : Nat) : lanesBits v n < 2 ^ (16 * n) := by
  induction n with
  | zero => simp [lanesBits]
  | succ n ih =>
    have hlane : (lane v n).toNat + 1 ≤ 2 ^ 16 := (lane v n).isLt
    calc lanesBits v (n + 1) < 2 ^ (16 * n) + (lane v n).toNat * 2 ^ (16 * n) := by
          rw [lanesBits_succ]
          omega
      _ = ((lane v n).toNat + 1) * 2 ^ (16 * n) := by ring
      _ ≤ 2 ^ 16 * 2 ^ (16 * n) := Nat.mul_le_mul_right _ hlane
      _ = 2 ^ (16 * (n + 1)) := by ring

/-- Bits `16i+15` to `16i` of the number are element `i`. -/
theorem lanesBits_div_mod (v : Lanes) {i n : Nat} (h : i < n) :
    lanesBits v n / 2 ^ (16 * i) % 2 ^ 16 = (lane v i).toNat := by
  induction n with
  | zero => omega
  | succ n ih =>
    rw [lanesBits_succ]
    rcases Nat.lt_succ_iff_lt_or_eq.1 h with hin | rfl
    · have hpow : 2 ^ (16 * n) = 2 ^ 16 * 2 ^ (16 * (n - i - 1)) * 2 ^ (16 * i) := by
        rw [← pow_add, ← pow_add]
        congr 1
        omega
      rw [hpow, ← Nat.mul_assoc, Nat.add_mul_div_right _ _ (by positivity), Nat.mul_left_comm,
        Nat.add_mul_mod_self_left, ih hin]
    · rw [Nat.add_mul_div_right _ _ (by positivity), Nat.div_eq_of_lt (lanesBits_lt v i), Nat.zero_add]
      exact Nat.mod_eq_of_lt (lane v i).isLt

/-- Settles O54: a register source is read lane by lane, for every vector length. -/
theorem registerSourceElements : Obligations.RegisterSourceElements := by
  intro s vl o n len i hi
  exact (lanesBits_div_mod (zmmRead s n) hi).symm

/-! ## The destination (R66) -/

/-- A lane is the 16-bit word cut out of the register's number. -/
theorem ofNat_lanesBits_div (v : Lanes) {i : Nat} (h : i < 32) :
    BitVec.ofNat 16 (lanesBits v 32 / 2 ^ (16 * i)) = lane v i :=
  BitVec.eq_of_toNat_eq (by rw [BitVec.toNat_ofNat, lanesBits_div_mod v h])

/-- An element is active with no writemask, or when its mask bit is 1 (R15, R47). -/
theorem elemActive_iff {s : State} {o : Operands} {i : Nat} :
    elemActive s o i = true ↔ o.mask = 0#3 ∨ (s.k[o.mask.toNat]'o.mask.isLt).getLsbD i = true := by
  simp [elemActive, kRead]

/-- A completed instruction leaves the element results in its destination. -/
theorem lane_dst_of_exec_next {i : Instr} {s t : State} (h : exec i s = .next t) {j : Nat} (hj : j < 32) :
    lane (zmmRead t (shapeOf i).o.dst) j =
      elemResult s (shapeOf i).vl (shapeOf i).o (shapeOf i).src i.length j := by
  rw [exec_next h, zmmRead_reduceDone_same, lane_resultLanes _ _ _ _ _ hj]

/-- Settles O55: the element results, with the source element and the mask bit read from the registers' numbers. -/
theorem registerFormElements : Obligations.RegisterFormElements := by
  intro i s t n hsrc hexec j hj
  have hword : BitVec.ofNat 16 (lanesBits (s.zmm[n.toNat]'n.isLt) 32 / 2 ^ (16 * j)) = lane (zmmRead s n) j :=
    ofNat_lanesBits_div (zmmRead s n) hj
  rw [lane_dst_of_exec_next hexec hj, hsrc, elemResult]
  simp only [elemActive_iff, elemReduced, sourceElem, hword]

end Sys2Proof.Machine
end

section
/-! PROOFS. The rounding of R11 to an integer and of R12 to FP16. -/

namespace Sys2Proof.Machine

/-! ## Rounding to an integer (R11) -/

theorem rint_rd_bounds (n : Int) {d : Nat} (hd : 0 < d) :
    rint n d .rd * d ≤ n ∧ n < (rint n d .rd + 1) * d :=
  ⟨Int.ediv_mul_le n (by omega), Int.lt_ediv_add_one_mul_self n (by omega)⟩

theorem rint_ru_eq (n : Int) (d : Nat) : rint n d .ru = -rint (-n) d .rd := rfl

theorem rint_ru_bounds (n : Int) {d : Nat} (hd : 0 < d) :
    (rint n d .ru - 1) * d < n ∧ n ≤ rint n d .ru * d := by
  obtain ⟨hle, hlt⟩ := rint_rd_bounds (-n) hd
  rw [rint_ru_eq]
  constructor <;> linarith

theorem rint_rz_eq (n : Int) (d : Nat) : rint n d .rz = if 0 ≤ n then rint n d .rd else rint n d .ru := rfl

/-- Rounding to nearest is off by at most half, and by exactly half only from an even integer. -/
theorem rint_rne_spec (n : Int) {d : Nat} (hd : 0 < d) :
    2 * (n - rint n d .rne * d).natAbs ≤ d ∧
      (2 * (n - rint n d .rne * d).natAbs = d → rint n d .rne % 2 = 0) := by
  have hdiv : n / d * d + n % d = n := Int.ediv_mul_add_emod n d
  have hnonneg : 0 ≤ n % d := Int.emod_nonneg n (by omega)
  have hlt : n % d < d := Int.emod_lt_of_pos n (by omega)
  have hup : (n / d + 1) * d = n / d * d + d := by ring
  simp only [rint, roundNearest]
  split_ifs <;> omega

/-- Settles O42: the floor, its mirror image, the choice by sign, and the nearest. -/
theorem roundingModesRoundAsNamed : Obligations.RoundingModesRoundAsNamed :=
  ⟨by decide, fun n d hd => ⟨rint_rd_bounds n hd, rint_ru_bounds n hd, rint_rz_eq n d, rint_rne_spec n hd⟩⟩

/-- Every mode gives an integer less than one away. -/
theorem rint_error_lt (n : Int) {d : Nat} (hd : 0 < d) (rm : Rounding) : (n - rint n d rm * d).natAbs < d := by
  obtain ⟨hrd, hrd'⟩ := rint_rd_bounds n hd
  obtain ⟨hru, hru'⟩ := rint_ru_bounds n hd
  have hne := (rint_rne_spec n hd).1
  rw [add_mul] at hrd'
  rw [sub_mul] at hru
  cases rm with
  | rne => omega
  | rd => omega
  | ru => omega
  | rz =>
    rw [rint_rz_eq]
    split <;> omega

/-- An integer at or below `n / d` is at or below what `n / d` rounds to. -/
theorem le_rint {n c : Int} {d : Nat} (hd : 0 < d) (rm : Rounding) (h : c * d ≤ n) : c ≤ rint n d rm := by
  by_contra hlt
  have hmul : (rint n d rm + 1) * d ≤ c * d := mul_le_mul_of_nonneg_right (by omega) (by omega)
  have herr := rint_error_lt n hd rm
  rw [add_mul] at hmul
  omega

/-- An integer at or above `n / d` is at or above what `n / d` rounds to. -/
theorem rint_le {n c : Int} {d : Nat} (hd : 0 < d) (rm : Rounding) (h : n ≤ c * d) : rint n d rm ≤ c := by
  by_contra hlt
  have hmul : (c + 1) * d ≤ rint n d rm * d := mul_le_mul_of_nonneg_right (by omega) (by omega)
  have herr := rint_error_lt n hd rm
  rw [add_mul] at hmul
  omega

/-- No integer is nearer than the one rounding to nearest gives, and another as near leaves it even. -/
theorem rint_rne_nearest (n c : Int) {d : Nat} (hd : 0 < d) :
    (n - rint n d .rne * d).natAbs ≤ (n - c * d).natAbs ∧
      ((n - rint n d .rne * d).natAbs = (n - c * d).natAbs → c ≠ rint n d .rne → rint n d .rne % 2 = 0) := by
  obtain ⟨hhalf, heven⟩ := rint_rne_spec n hd
  by_cases hc : c = rint n d .rne
  · simp [hc]
  · have hfar : d ≤ (c * d - rint n d .rne * d).natAbs := by
      rw [← sub_mul, Int.natAbs_mul, Int.natAbs_natCast]
      exact Nat.le_mul_of_pos_left d (by omega)
    exact ⟨by omega, fun he _ => heven (by omega)⟩

/-! ## FP16 patterns (R10) -/

theorem fpSign_fpPack (sign : Bool) (e f : Nat) : fpSign (fpPack sign e f) = sign := by
  show (BitVec.ofBool sign ++ BitVec.ofNat 5 e ++ BitVec.ofNat 10 f).getLsbD 15 = sign
  rw [BitVec.getLsbD_append, BitVec.getLsbD_append]
  simp

theorem fpExp_fpPack (sign : Bool) {e : Nat} (f : Nat) (he : e < 32) : fpExp (fpPack sign e f) = e := by
  show ((BitVec.ofBool sign ++ BitVec.ofNat 5 e ++ BitVec.ofNat 10 f).extractLsb' 10 5).toNat = e
  rw [BitVec.extractLsb'_append_eq_of_le (by omega), BitVec.extractLsb'_append_eq_of_add_le (by omega)]
  simpa using he

theorem fpFraction_fpPack (sign : Bool) (e : Nat) {f : Nat} (hf : f < 1024) : fpFraction (fpPack sign e f) = f := by
  show ((BitVec.ofBool sign ++ BitVec.ofNat 5 e ++ BitVec.ofNat 10 f).extractLsb' 0 10).toNat = f
  rw [BitVec.extractLsb'_append_eq_right]
  simpa using hf

theorem fpMagnitude_fpPack_zero (sign : Bool) {f : Nat} (hf : f < 1024) : fpMagnitude (fpPack sign 0 f) = f := by
  rw [fpMagnitude, fpExp_fpPack sign f (by omega), if_pos rfl, fpFraction_fpPack sign 0 hf]

theorem fpMagnitude_fpPack_succ (sign : Bool) {e f : Nat} (he : e + 1 < 32) (hf : f < 1024) :
    fpMagnitude (fpPack sign (e + 1) f) = (1024 + f) * 2 ^ e := by
  rw [fpMagnitude, fpExp_fpPack sign f he, if_neg (by omega), fpFraction_fpPack sign _ hf, Nat.add_sub_cancel]

theorem fpFraction_lt (h : Half) : fpFraction h < 1024 := (h.extractLsb' 0 10).isLt

/-- The value of a pattern is its magnitude with its sign. -/
theorem fpUnits_eq_or (h : Half) :
    fpSign h = false ∧ fpUnits h = fpMagnitude h ∨ fpSign h = true ∧ fpUnits h = -fpMagnitude h := by
  unfold fpUnits
  cases fpSign h <;> simp

@[simp] theorem natAbs_fpUnits (h : Half) : (fpUnits h).natAbs = fpMagnitude h := by
  obtain ⟨-, hu⟩ | ⟨-, hu⟩ := fpUnits_eq_or h <;> simp [hu]

/-- A finite magnitude is a multiple of a power of two, or it is below 1024 times it: the fraction has 10 bits. -/
theorem two_pow_dvd_fpMagnitude_or_lt (h : Half) (k : Nat) :
    2 ^ k ∣ fpMagnitude h ∨ fpMagnitude h < 2 ^ (k + 10) := by
  have hf := fpFraction_lt h
  unfold fpMagnitude
  split
  · right
    calc fpFraction h < 2 ^ 10 := hf
      _ ≤ 2 ^ (k + 10) := Nat.pow_le_pow_right (by omega) (by omega)
  · rcases le_or_gt k (fpExp h - 1) with hk | hk
    · exact .inl (Dvd.dvd.mul_left (pow_dvd_pow 2 hk) _)
    · right
      calc (1024 + fpFraction h) * 2 ^ (fpExp h - 1) < 2 ^ 11 * 2 ^ (fpExp h - 1) :=
            Nat.mul_lt_mul_of_pos_right (by omega) (by positivity)
        _ = 2 ^ (fpExp h - 1 + 11) := by ring
        _ ≤ 2 ^ (k + 10) := Nat.pow_le_pow_right (by omega) (by omega)

/-! ## Rounding to FP16 (R12) -/

/-- The exponent of the spacing of the FP16 values around a magnitude of `a` units. -/
def spacingExp (a : Nat) : Nat := Nat.log2 a - 10

/-- The direction in which the magnitude of `r` is rounded. -/
def magnitudeMode (r : Int) (rm : Rounding) : Rounding := if r < 0 then mirror rm else rm

/-- The number of spacings that the magnitude of `r` is rounded to. -/
def roundedSpacings (r : Int) (rm : Rounding) : Nat :=
  (rint (r.natAbs : Int) (2 ^ spacingExp r.natAbs) (magnitudeMode r rm)).toNat

theorem lt_two_pow_spacingExp (a : Nat) : a < 2048 * 2 ^ spacingExp a := by
  calc a < 2 ^ (Nat.log2 a + 1) := Nat.lt_log2_self
    _ ≤ 2 ^ (11 + spacingExp a) := Nat.pow_le_pow_right (by omega) (by unfold spacingExp; omega)
    _ = 2048 * 2 ^ spacingExp a := by rw [pow_add]; norm_num

theorem two_pow_le_of_spacingExp_ne_zero {a : Nat} (hk : spacingExp a ≠ 0) : 1024 * 2 ^ spacingExp a ≤ a := by
  have hlog : Nat.log2 a = 10 + spacingExp a := by
    unfold spacingExp at *
    omega
  have ha : a ≠ 0 := by
    rintro rfl
    simp [spacingExp] at hk
  calc 1024 * 2 ^ spacingExp a = 2 ^ Nat.log2 a := by rw [hlog, pow_add]; norm_num
    _ ≤ a := Nat.log2_self_le ha

/-- Around `a` the FP16 magnitudes are the multiples of the spacing, but for those below a multiple that is at most
`a`. -/
theorem fpMagnitude_on_grid (h : Half) (a : Nat) :
    (∃ c, fpMagnitude h = c * 2 ^ spacingExp a) ∨
      (fpMagnitude h < 1024 * 2 ^ spacingExp a ∧ 1024 * 2 ^ spacingExp a ≤ a) := by
  by_cases hk : spacingExp a = 0
  · exact .inl ⟨fpMagnitude h, by simp [hk]⟩
  · refine (two_pow_dvd_fpMagnitude_or_lt h (spacingExp a)).imp exists_eq_mul_left_of_dvd fun hlt => ?_
    rw [pow_add, Nat.mul_comm] at hlt
    exact ⟨hlt, two_pow_le_of_spacingExp_ne_zero hk⟩

section Rounded
variable (r : Int) (rm : Rounding)

theorem roundedSpacings_cast : (roundedSpacings r rm : Int) =
    rint (r.natAbs : Int) (2 ^ spacingExp r.natAbs) (magnitudeMode r rm) :=
  Int.toNat_of_nonneg (le_rint (by positivity) _ (by simp))

variable {r}

/-- A number of spacings at or below the magnitude of `r` is at or below what it is rounded to. -/
theorem le_roundedSpacings {c : Nat} (h : c * 2 ^ spacingExp r.natAbs ≤ r.natAbs) : c ≤ roundedSpacings r rm := by
  have hc := le_rint (n := (r.natAbs : Int)) (c := c) (d := 2 ^ spacingExp r.natAbs) (by positivity)
    (magnitudeMode r rm) (by exact_mod_cast h)
  rw [← roundedSpacings_cast] at hc
  exact_mod_cast hc

/-- A number of spacings at or above the magnitude of `r` is at or above what it is rounded to. -/
theorem roundedSpacings_le {c : Nat} (h : r.natAbs ≤ c * 2 ^ spacingExp r.natAbs) : roundedSpacings r rm ≤ c := by
  have hc := rint_le (n := (r.natAbs : Int)) (c := c) (d := 2 ^ spacingExp r.natAbs) (by positivity)
    (magnitudeMode r rm) (by exact_mod_cast h)
  rw [← roundedSpacings_cast] at hc
  exact_mod_cast hc

/-- Rounding a magnitude passes no FP16 magnitude at or below it. -/
theorem fpMagnitude_le_rounded {h : Half} (hle : fpMagnitude h ≤ r.natAbs) :
    fpMagnitude h ≤ roundedSpacings r rm * 2 ^ spacingExp r.natAbs := by
  obtain ⟨c, hc⟩ | ⟨hlt, hle'⟩ := fpMagnitude_on_grid h r.natAbs
  · rw [hc]
    exact Nat.mul_le_mul_right _ (le_roundedSpacings rm (hc ▸ hle))
  · exact hlt.le.trans (Nat.mul_le_mul_right _ (le_roundedSpacings rm hle'))

/-- Rounding a magnitude passes no FP16 magnitude at or above it. -/
theorem rounded_le_fpMagnitude {h : Half} (hle : r.natAbs ≤ fpMagnitude h) :
    roundedSpacings r rm * 2 ^ spacingExp r.natAbs ≤ fpMagnitude h := by
  obtain ⟨c, hc⟩ | ⟨hlt, hle'⟩ := fpMagnitude_on_grid h r.natAbs
  · rw [hc]
    exact Nat.mul_le_mul_right _ (roundedSpacings_le rm (hc ▸ hle))
  · omega

variable {rm}

theorem rounded_le_natAbs (hm : magnitudeMode r rm = .rd ∨ magnitudeMode r rm = .rz) :
    roundedSpacings r rm * 2 ^ spacingExp r.natAbs ≤ r.natAbs := by
  have hrd : (roundedSpacings r rm : Int) = rint r.natAbs (2 ^ spacingExp r.natAbs) .rd := by
    rw [roundedSpacings_cast]
    rcases hm with h | h <;> simp [h, rint_rz_eq]
  have hle := (rint_rd_bounds (r.natAbs : Int) (d := 2 ^ spacingExp r.natAbs) (by positivity)).1
  rw [← hrd] at hle
  exact_mod_cast hle

theorem natAbs_le_rounded (hm : magnitudeMode r rm = .ru) :
    r.natAbs ≤ roundedSpacings r rm * 2 ^ spacingExp r.natAbs := by
  have hle := (rint_ru_bounds (r.natAbs : Int) (d := 2 ^ spacingExp r.natAbs) (by positivity)).2
  rw [← hm, ← roundedSpacings_cast] at hle
  exact_mod_cast hle

/-- Rounding a magnitude to nearest: no FP16 magnitude is nearer, and another as near leaves an even number of
spacings. -/
theorem rounded_nearest (hm : magnitudeMode r rm = .rne) (h : Half) :
    ((r.natAbs : Int) - roundedSpacings r rm * 2 ^ spacingExp r.natAbs).natAbs ≤
        ((r.natAbs : Int) - fpMagnitude h).natAbs ∧
      (((r.natAbs : Int) - roundedSpacings r rm * 2 ^ spacingExp r.natAbs).natAbs =
          ((r.natAbs : Int) - fpMagnitude h).natAbs →
        fpMagnitude h ≠ roundedSpacings r rm * 2 ^ spacingExp r.natAbs → roundedSpacings r rm % 2 = 0) := by
  have hnear : ∀ c : Nat, _ := fun c =>
    rint_rne_nearest (r.natAbs : Int) c (d := 2 ^ spacingExp r.natAbs) (by positivity)
  rw [← hm, ← roundedSpacings_cast] at hnear
  simp only [Nat.cast_pow, Nat.cast_ofNat] at hnear
  obtain ⟨c, hc⟩ | ⟨hlt, hle⟩ := fpMagnitude_on_grid h r.natAbs
  · obtain ⟨hn, he⟩ := hnear c
    simp only [hc, Nat.cast_mul, Nat.cast_pow, Nat.cast_ofNat]
    refine ⟨hn, fun heq hne => ?_⟩
    have := he heq (by rintro hcr; exact hne (by rw [Int.ofNat_inj.1 hcr]))
    omega
  · have hn := (hnear 1024).1
    simp only [Nat.cast_ofNat] at hn
    have hlt' : (fpMagnitude h : Int) < 1024 * 2 ^ spacingExp r.natAbs := by exact_mod_cast hlt
    have hle' : (1024 * 2 ^ spacingExp r.natAbs : Int) ≤ r.natAbs := by exact_mod_cast hle
    omega

end Rounded

/-- The largest spacing of the range of R12. -/
theorem spacingExp_le {a : Nat} (ha : a ≤ 2 ^ 24) : spacingExp a ≤ 14 := by
  have hlog : Nat.log2 a < 25 := by
    by_cases h0 : a = 0
    · simp [h0]
    · exact (Nat.log2_lt h0).2 (by omega)
  unfold spacingExp
  omega

/-- What `RFp16` returns, by the number of spacings. -/
theorem roundFp16_eq (r : Int) (rm : Rounding) : roundFp16 r rm =
    (if roundedSpacings r rm = 2048 then fpPack (decide (r < 0)) (spacingExp r.natAbs + 2) 0
      else if roundedSpacings r rm < 1024 then fpPack (decide (r < 0)) 0 (roundedSpacings r rm)
      else fpPack (decide (r < 0)) (spacingExp r.natAbs + 1) (roundedSpacings r rm - 1024),
      decide (roundedSpacings r rm * 2 ^ spacingExp r.natAbs ≠ r.natAbs)) := by
  simp only [roundFp16, roundedSpacings, magnitudeMode, spacingExp, decide_eq_true_eq]
  split_ifs <;> rfl

section Result
variable {r : Int} (hr : r.natAbs ≤ 2 ^ 24) (rm : Rounding)
include hr

/-- The result is the pattern of the rounded magnitude with the sign of `r`; its fraction is even when the number of
spacings is. -/
theorem roundFp16_spec : fpIsFinite (roundFp16 r rm).1 = true ∧ fpSign (roundFp16 r rm).1 = decide (r < 0) ∧
    fpMagnitude (roundFp16 r rm).1 = roundedSpacings r rm * 2 ^ spacingExp r.natAbs ∧
    fpFraction (roundFp16 r rm).1 % 2 = roundedSpacings r rm % 2 := by
  have hk := spacingExp_le hr
  have hmax : roundedSpacings r rm ≤ 2048 := roundedSpacings_le rm (lt_two_pow_spacingExp _).le
  rw [roundFp16_eq]
  simp only [fpIsFinite, bne_iff_ne]
  split_ifs with hcarry hsmall
  · rw [fpExp_fpPack _ _ (by omega), fpSign_fpPack, fpMagnitude_fpPack_succ _ (by omega) (by omega),
      fpFraction_fpPack _ _ (by omega), hcarry]
    exact ⟨by omega, rfl, by ring, rfl⟩
  · have hk0 : spacingExp r.natAbs = 0 := by
      by_contra hne
      have := le_roundedSpacings rm (two_pow_le_of_spacingExp_ne_zero hne)
      omega
    rw [fpExp_fpPack _ _ (by omega), fpSign_fpPack, fpMagnitude_fpPack_zero _ hsmall, fpFraction_fpPack _ _ hsmall, hk0]
    exact ⟨by omega, rfl, by ring, rfl⟩
  · rw [fpExp_fpPack _ _ (by omega), fpSign_fpPack, fpMagnitude_fpPack_succ _ (by omega) (by omega),
      fpFraction_fpPack _ _ (by omega)]
    exact ⟨by omega, rfl, by rw [Nat.add_sub_cancel' (by omega)], by omega⟩

theorem fpMagnitude_roundFp16 :
    fpMagnitude (roundFp16 r rm).1 = roundedSpacings r rm * 2 ^ spacingExp r.natAbs := by
  obtain ⟨-, -, hmag, -⟩ := roundFp16_spec hr rm
  exact hmag

theorem fpUnits_roundFp16 : fpUnits (roundFp16 r rm).1 =
    if r < 0 then -(fpMagnitude (roundFp16 r rm).1 : Int) else fpMagnitude (roundFp16 r rm).1 := by
  obtain ⟨-, hsign, -, -⟩ := roundFp16_spec hr rm
  simp [fpUnits, hsign]

/-- Inexact says whether the result differs from `r`. -/
theorem roundFp16_inexact_iff : (roundFp16 r rm).2 = true ↔ fpUnits (roundFp16 r rm).1 ≠ r := by
  have hne : (roundFp16 r rm).2 = true ↔ fpMagnitude (roundFp16 r rm).1 ≠ r.natAbs := by
    rw [fpMagnitude_roundFp16 hr, roundFp16_eq]
    exact decide_eq_true_iff
  rw [hne, fpUnits_roundFp16 hr]
  split_ifs <;> omega

/-- Rounding passes no FP16 magnitude at or below that of `r`. -/
theorem fpMagnitude_le_roundFp16 {h : Half} (hle : fpMagnitude h ≤ r.natAbs) :
    fpMagnitude h ≤ fpMagnitude (roundFp16 r rm).1 := by
  rw [fpMagnitude_roundFp16 hr]
  exact fpMagnitude_le_rounded rm hle

/-- Rounding passes no FP16 magnitude at or above that of `r`. -/
theorem roundFp16_le_fpMagnitude {h : Half} (hle : r.natAbs ≤ fpMagnitude h) :
    fpMagnitude (roundFp16 r rm).1 ≤ fpMagnitude h := by
  rw [fpMagnitude_roundFp16 hr]
  exact rounded_le_fpMagnitude rm hle

/-- Rounding passes no FP16 value at or below `r`. -/
theorem fpUnits_le_roundFp16 {h : Half} (hle : fpUnits h ≤ r) : fpUnits h ≤ fpUnits (roundFp16 r rm).1 := by
  have hbelow := fpMagnitude_le_roundFp16 hr rm (h := h)
  have habove := roundFp16_le_fpMagnitude hr rm (h := h)
  rw [fpUnits_roundFp16 hr]
  obtain ⟨-, hu⟩ | ⟨-, hu⟩ := fpUnits_eq_or h <;> split_ifs <;> omega

/-- Rounding passes no FP16 value at or above `r`. -/
theorem roundFp16_le_fpUnits {h : Half} (hle : r ≤ fpUnits h) : fpUnits (roundFp16 r rm).1 ≤ fpUnits h := by
  have hbelow := fpMagnitude_le_roundFp16 hr rm (h := h)
  have habove := roundFp16_le_fpMagnitude hr rm (h := h)
  rw [fpUnits_roundFp16 hr]
  obtain ⟨-, hu⟩ | ⟨-, hu⟩ := fpUnits_eq_or h <;> split_ifs <;> omega

variable {rm}

theorem fpMagnitude_roundFp16_le (hm : magnitudeMode r rm = .rd ∨ magnitudeMode r rm = .rz) :
    fpMagnitude (roundFp16 r rm).1 ≤ r.natAbs := by
  rw [fpMagnitude_roundFp16 hr]
  exact rounded_le_natAbs hm

theorem le_fpMagnitude_roundFp16 (hm : magnitudeMode r rm = .ru) : r.natAbs ≤ fpMagnitude (roundFp16 r rm).1 := by
  rw [fpMagnitude_roundFp16 hr]
  exact natAbs_le_rounded hm

/-- RD rounds down: a positive magnitude down, a negative one up. -/
theorem roundFp16_rd_le : fpUnits (roundFp16 r .rd).1 ≤ r := by
  rw [fpUnits_roundFp16 hr]
  split_ifs with hneg
  · have := le_fpMagnitude_roundFp16 hr (rm := .rd) (by simp [magnitudeMode, hneg, mirror])
    omega
  · have := fpMagnitude_roundFp16_le hr (rm := .rd) (by simp [magnitudeMode, hneg])
    omega

/-- RU rounds up: a positive magnitude up, a negative one down. -/
theorem le_roundFp16_ru : r ≤ fpUnits (roundFp16 r .ru).1 := by
  rw [fpUnits_roundFp16 hr]
  split_ifs with hneg
  · have := fpMagnitude_roundFp16_le hr (rm := .ru) (by simp [magnitudeMode, hneg, mirror])
    omega
  · have := le_fpMagnitude_roundFp16 hr (rm := .ru) (by simp [magnitudeMode, hneg])
    omega

/-- RZ rounds the magnitude down. -/
theorem roundFp16_rz_natAbs_le : fpMagnitude (roundFp16 r .rz).1 ≤ r.natAbs :=
  fpMagnitude_roundFp16_le hr (by simp [magnitudeMode, mirror])

/-- RNE gives a nearest FP16 value; another as near leaves the fraction even. A value of the other sign is as near as
its magnitude only when it is a zero. -/
theorem roundFp16_rne_nearest (hr0 : r ≠ 0) (h : Half) :
    (fpUnits (roundFp16 r .rne).1 - r).natAbs ≤ (fpUnits h - r).natAbs ∧
      ((fpUnits (roundFp16 r .rne).1 - r).natAbs = (fpUnits h - r).natAbs →
        fpUnits h ≠ fpUnits (roundFp16 r .rne).1 → fpFraction (roundFp16 r .rne).1 % 2 = 0) := by
  obtain ⟨-, -, hmag, heven⟩ := roundFp16_spec hr .rne
  have hnear := rounded_nearest (r := r) (rm := .rne) (by simp [magnitudeMode, mirror]) h
  have hcast : ((roundedSpacings r .rne : Int) * 2 ^ spacingExp r.natAbs) = fpMagnitude (roundFp16 r .rne).1 := by
    exact_mod_cast hmag.symm
  rw [← hmag, hcast] at hnear
  rw [fpUnits_roundFp16 hr, heven]
  obtain ⟨-, hu⟩ | ⟨-, hu⟩ := fpUnits_eq_or h <;> split_ifs <;> omega

end Result

/-- Settles O44: rounding passes no FP16 value, and each mode lands on its side or at a nearest one. -/
theorem roundToFp16IsCorrectRounding : Obligations.RoundToFp16IsCorrectRounding := by
  intro r rm hr0 hr
  obtain ⟨hfin, hsign, -, -⟩ := roundFp16_spec hr rm
  refine ⟨hfin, hsign, roundFp16_inexact_iff hr rm, ?_, ?_, ?_, ?_⟩
  · rintro rfl
    exact ⟨roundFp16_rd_le hr, fun h _ => fpUnits_le_roundFp16 hr .rd⟩
  · rintro rfl
    exact ⟨le_roundFp16_ru hr, fun h _ => roundFp16_le_fpUnits hr .ru⟩
  · rintro rfl
    simp only [natAbs_fpUnits]
    exact ⟨roundFp16_rz_natAbs_le hr, fun h _ => fpMagnitude_le_roundFp16 hr .rz⟩
  · rintro rfl h -
    exact roundFp16_rne_nearest hr hr0 h

end Sys2Proof.Machine
end

section
/-! PROOFS. What bytes that decode are, and the length of the instruction they decode to (10_state.md R17;
30_encoding.md R39 to R53). -/

namespace Sys2Proof

/-! ## The length of a decoded instruction (R17, R39) -/

/-- The fixed bytes `62 P0 P1 P2 56 ModRM` and `imm8` are seven. -/
theorem seven_le_length (i : Instr) : 7 ≤ i.length := by
  cases i <;> simp only [Instr.length, plainLength] <;> omega

/-- Settles O5. -/
theorem lengthBetweenSevenAndFifteen : Obligations.LengthBetweenSevenAndFifteen :=
  fun _ i h => ⟨seven_le_length i, length_le_fifteen_of_wf h⟩

/-- The split of legacy bytes invents no byte. -/
theorem splitLegacy_length_le (bs : List Byte) :
    (splitLegacy bs).1.length + (splitLegacy bs).2.2.length ≤ bs.length := by
  induction bs with
  | nil => simp [splitLegacy]
  | cons b bs ih =>
    unfold splitLegacy
    split
    · simp only [List.length_cons]
      omega
    · split
      · simp only [List.length_cons]
        omega
      · simp

theorem takeDisp32_length {bs rest : List Byte} {d : BitVec 32} (h : takeDisp32 bs = some (d, rest)) :
    bs.length = 4 + rest.length := by
  unfold takeDisp32 at h
  split at h
  · cases h
    simp only [List.length_cons]
    omega
  · cases h

theorem takeDisp_length {mod : BitVec 2} {bs rest : List Byte} {d : Disp} (h : takeDisp mod bs = some (d, rest)) :
    bs.length = d.count + rest.length := by
  unfold takeDisp at h
  split at h
  · cases bs with
    | nil => cases h
    | cons b bs =>
      cases h
      exact Nat.add_comm _ 1
  · split at h
    · obtain ⟨⟨d32, tail⟩, htake, heq⟩ := Option.map_eq_some_iff.1 h
      cases heq
      exact takeDisp32_length htake
    · cases h
      exact (Nat.zero_add _).symm

/-- A memory operand takes the bytes of its SIB and displacement (R39). -/
theorem takeMem_length {e : Evex} {bs rest : List Byte} {a : Mem} (h : takeMem e bs = some (a, rest)) :
    bs.length = a.count + rest.length := by
  unfold takeMem at h
  split at h
  · cases bs with
    | nil => cases h
    | cons sib bs =>
      simp only at h
      split at h
      · obtain ⟨⟨d, tail⟩, htake, heq⟩ := Option.map_eq_some_iff.1 h
        cases heq
        simp only [List.length_cons, takeDisp32_length htake, Mem.count]
        omega
      · obtain ⟨⟨d, tail⟩, htake, heq⟩ := Option.map_eq_some_iff.1 h
        cases heq
        simp only [List.length_cons, takeDisp_length htake, Mem.count]
        omega
  · split at h
    · obtain ⟨⟨d, tail⟩, htake, heq⟩ := Option.map_eq_some_iff.1 h
      cases heq
      exact takeDisp32_length htake
    · obtain ⟨⟨d, tail⟩, htake, heq⟩ := Option.map_eq_some_iff.1 h
      cases heq
      exact takeDisp_length htake

/-- Everything operand bytes that decode can be: a register source with its `imm8`, or a memory source with its own
bytes and `imm8` (R39, R46, R49). -/
theorem decodeOperands_ok {m : Mode} {legacy : List LegacyByte} {e : Evex} {bs : List Byte} {i : Instr}
    (h : decodeOperands m legacy e bs = .ok i) :
    (evexMod e = 3#2 ∧ ∃ imm rest, bs = imm :: rest ∧
      i = if evexBit e then .vreducephZmmSae (evexOperands legacy e imm) (evexSrcReg e) (evexLL e)
        else plainForm (evexLL e) (evexOperands legacy e imm) (.reg (evexSrcReg e))) ∨
    (evexMod e ≠ 3#2 ∧ addrSizeOf m legacy ≠ .a16 ∧ ∃ a imm rest, takeMem e bs = some (a, imm :: rest) ∧
      i = plainForm (evexLL e) (evexOperands legacy e imm) (if evexBit e then .bcst a else .full a)) := by
  unfold decodeOperands at h
  split at h
  · rename_i hmod
    cases bs with
    | nil => cases h
    | cons imm rest =>
      refine .inl ⟨hmod, imm, rest, rfl, ?_⟩
      simp only at h
      split at h <;> cases h <;> simp [*]
  · rename_i hmod
    split at h
    · cases h
    · rename_i hsize
      split at h
      · rename_i a imm rest htake
        cases h
        exact .inr ⟨hmod, hsize, a, imm, rest, htake, rfl⟩
      · cases h

/-- EVEX bytes that decode have no neighbour's `pp`, none of the #UD patterns and, outside 64-bit mode, no extension
bit (R51 to R53). -/
theorem decodeEvex_ok {m : Mode} {legacy : List LegacyByte} {forbidden : Bool} {e : Evex} {bs : List Byte} {i : Instr}
    (h : decodeEvex m legacy forbidden e bs = .ok i) :
    evexPp e ≠ 1#2 ∧ udCause m forbidden e = none ∧
      ¬(m ≠ .mode64 ∧ (evexB e || evexR' e || !e.p2.getLsbD 3) = true) ∧ decodeOperands m legacy e bs = .ok i := by
  unfold decodeEvex at h
  split at h
  · cases h
  · rename_i hpp
    split at h
    · cases h
    · rename_i hud
      split at h
      · cases h
      · rename_i hext
        exact ⟨hpp, hud, hext, h⟩

/-- A body that decodes is `62 P0 P1 P2 56 ModRM` of map 0F3A, which is no BOUND, and its operand bytes (R39, R41). -/
theorem decodeBody_ok {m : Mode} {legacy : List LegacyByte} {forbidden : Bool} {bs : List Byte} {i : Instr}
    (h : decodeBody m legacy forbidden bs = .ok i) :
    ∃ p0 p1 p2 modrm rest, bs = 0x62#8 :: p0 :: p1 :: p2 :: 0x56#8 :: modrm :: rest ∧
      p0.extractLsb' 0 3 = 3#3 ∧ ¬(m ≠ .mode64 ∧ p0.extractLsb' 6 2 ≠ 3#2) ∧
      decodeEvex m legacy forbidden ⟨p0, p1, p2, modrm⟩ rest = .ok i := by
  unfold decodeBody at h
  split at h
  · cases h
  · split at h
    · cases h
    · rename_i h62
      split at h
      · cases h
      · split at h
        · cases h
        · rename_i hbound
          split at h
          · split at h
            · cases h
            · rename_i hmap
              obtain ⟨hmap, hop⟩ := not_or.1 hmap
              exact ⟨_, _, _, _, _, by rw [not_not.1 h62, not_not.1 hop], not_not.1 hmap, hbound, h⟩
          · cases h

/-- Bytes that decode are legacy bytes and a body that decodes, within the first 15 (R39). -/
theorem decode_ok {m : Mode} {bs : List Byte} {i : Instr} (h : decode m bs = .ok i) :
    decodeBody m (splitLegacy (bs.take 15)).1 (splitLegacy (bs.take 15)).2.1 (splitLegacy (bs.take 15)).2.2 =
      .ok i := by
  unfold decode at h
  dsimp only at h
  split at h
  · split at h <;> cases h
  · exact h

@[simp] theorem evexOperands_legacy (legacy : List LegacyByte) (e : Evex) (imm : Byte) :
    (evexOperands legacy e imm).legacy = legacy := rfl

theorem length_plainForm (ll : BitVec 2) (o : Operands) (src : Source) :
    (plainForm ll o src).length = plainLength o src := by
  unfold plainForm
  split_ifs <;> rfl

/-- The operand bytes hold at least the source's bytes and `imm8`. -/
theorem length_le_of_decodeOperands {m : Mode} {legacy : List LegacyByte} {e : Evex} {bs : List Byte} {i : Instr}
    (h : decodeOperands m legacy e bs = .ok i) : i.length ≤ legacy.length + 6 + bs.length := by
  obtain ⟨-, imm, rest, rfl, rfl⟩ | ⟨-, -, a, imm, rest, htake, rfl⟩ := decodeOperands_ok h
  · have hlen : ∀ n, plainLength (evexOperands legacy e imm) (.reg n) = legacy.length + 7 := fun _ => rfl
    rw [List.length_cons]
    split
    · rw [Instr.length, hlen]
      omega
    · rw [length_plainForm, hlen]
      omega
  · have hcount : (if evexBit e then Source.bcst a else .full a).count = a.count := by split <;> rfl
    rw [length_plainForm, plainLength, hcount, takeMem_length htake, List.length_cons, evexOperands_legacy]
    omega

/-- No decoded instruction has more than 15 bytes (R39). -/
theorem length_le_fifteen_of_decode {m : Mode} {bs : List Byte} {i : Instr} (h : decode m bs = .ok i) :
    i.length ≤ 15 := by
  obtain ⟨p0, p1, p2, modrm, rest, hbody, -, -, hevex⟩ := decodeBody_ok (decode_ok h)
  obtain ⟨-, -, -, hop⟩ := decodeEvex_ok hevex
  have hbytes := splitLegacy_length_le (bs.take 15)
  simp only [hbody, List.length_cons, List.length_take] at hbytes
  have hlen := length_le_of_decodeOperands hop
  omega

end Sys2Proof
end

section
/-! PROOFS. The state: reset, the invariant and frame of a step, the platform's faults, and what a completed instruction
does not depend on (10_state.md R13 to R24; 40_vreduceph.md R71 to R75; 60_exceptions.md R79). -/

namespace Sys2Proof.Machine

/-! ## MXCSR and `rip` of a completed instruction (R16, R17, R71, R73) -/

/-- Whether an unmasked exception is raised depends on IM and PM alone (R16, R71). -/
theorem simdUpdate_snd (sae : Bool) (m : BitVec 32) (ie pe : Bool) :
    (simdUpdate sae m ie pe).2 = (!sae && (ie && !mxIM m || pe && !mxPM m)) := by
  unfold simdUpdate
  cases sae <;> cases ie <;> cases mxIM m <;> simp

/-- IE and PE are sticky (R16, D9). -/
theorem getLsbD_simdUpdate_of_set (sae : Bool) {m : BitVec 32} (ie pe : Bool) {j : Nat} (h : m.getLsbD j = true) :
    (simdUpdate sae m ie pe).1.getLsbD j = true := by
  obtain ⟨-, he⟩ | ⟨-, -, -, he⟩ | ⟨-, -, he⟩ := simdUpdate_cases sae m ie pe <;>
    simp only [he, getLsbD_mxSetFlags, h, Bool.true_or]

/-- The reserved bits of MXCSR stay as they are (R16). -/
theorem reserved_simdUpdate (sae : Bool) (m : BitVec 32) (ie pe : Bool) :
    (simdUpdate sae m ie pe).1.extractLsb' 16 16 = m.extractLsb' 16 16 := by
  refine BitVec.eq_of_getLsbD_eq fun j _ => ?_
  rw [BitVec.getLsbD_extractLsb', BitVec.getLsbD_extractLsb', getLsbD_simdUpdate _ _ _ _ (by omega) (by omega)]

/-- The new `rip` as a number, in and outside 64-bit mode (R17, D4). -/
theorem toNat_ripAdvance (s : State) (len : Nat) :
    (ripAdvance s len).toNat =
      if modeOf s = .mode64 then (s.rip.toNat + len) % 2 ^ 64 else (s.rip.toNat + len) % 2 ^ 32 := by
  have hsum : (s.rip + BitVec.ofNat 64 len).toNat = (s.rip.toNat + len) % 2 ^ 64 := by simp [BitVec.toNat_add]
  have hcut : (((s.rip + BitVec.ofNat 64 len).setWidth 32).setWidth 64).toNat = (s.rip.toNat + len) % 2 ^ 32 := by
    rw [BitVec.toNat_setWidth, BitVec.toNat_setWidth, hsum]
    omega
  unfold ripAdvance
  cases modeOf s <;> simp only [hsum, hcut] <;> rfl

/-- A completed instruction moves `rip` past its bytes (R17, R73). -/
theorem ripAdvanced_reduceDone (s : State) (vl : VecLen) (sae : Bool) (o : Operands) (src : Source) (len : Nat) :
    RipAdvanced s (reduceDone s vl sae o src len) len := by
  rw [RipAdvanced, reduceDone_rip, toNat_ripAdvance]
  exact ⟨fun h => if_pos h, fun h => if_neg h⟩

/-! ## The frame and the invariant (R16, R17, R20, R75) -/

/-- What a completed instruction leaves as it was (R75). -/
theorem frameKept_reduceDone (s : State) (vl : VecLen) (sae : Bool) (o : Operands) (src : Source) (len : Nat) :
    FrameKept s (reduceDone s vl sae o src len) o.dst :=
  ⟨fun _ h => zmmRead_reduceDone_ne s vl sae o src len h, rfl, rfl, rfl, fun _ => rfl, rfl, rfl, rfl,
    fun _ h0 h5 => getLsbD_simdUpdate _ _ _ _ h0 h5⟩

/-- A completed instruction keeps the invariant. -/
theorem stateInv_reduceDone {s : State} (h : StateInv s) (vl : VecLen) (sae : Bool) (o : Operands) (src : Source)
    (len : Nat) : StateInv (reduceDone s vl sae o src len) := by
  obtain ⟨hmem, hmx, -⟩ := h
  refine ⟨hmem, (reserved_simdUpdate _ _ _ _).trans hmx, fun hmode => ?_⟩
  rw [modeOf_reduceDone] at hmode
  have hlt : (ripAdvance s len).toNat < 2 ^ 32 := by
    rw [toNat_ripAdvance, if_neg hmode]
    exact Nat.mod_lt _ (by decide)
  refine BitVec.eq_of_toNat_eq ?_
  rw [reduceDone_rip, BitVec.extractLsb'_toNat, Nat.shiftRight_eq_div_pow, Nat.div_eq_of_lt hlt]
  rfl

/-- Settles O17: a step that answers a next state is a completed instruction. -/
theorem stepKeepsInvariant : Obligations.StepKeepsInvariant := by
  intro s t hs hstep
  obtain ⟨i, -, hexec⟩ := step_next hstep
  rw [exec_next hexec]
  exact stateInv_reduceDone hs _ _ _ _ _

/-- Settles O18: the decoded instruction has at most 15 bytes, and completed it leaves the frame. -/
theorem stepChangesOnlyItsDestination : Obligations.StepChangesOnlyItsDestination := by
  intro s t hstep
  obtain ⟨i, hdec, hexec⟩ := step_next hstep
  rw [exec_next hexec]
  exact ⟨i, hdec, frameKept_reduceDone _ _ _ _ _ _, getLsbD_simdUpdate_of_set _ _ _, getLsbD_simdUpdate_of_set _ _ _,
    seven_le_length i, length_le_fifteen_of_decode hdec, ripAdvanced_reduceDone _ _ _ _ _ _⟩

/-- Settles O15. -/
theorem resetHoldsTheSpecsValues : Obligations.ResetHoldsTheSpecsValues :=
  ⟨rfl, rfl, by decide, by decide, by decide⟩

/-- Settles O16. -/
theorem resetMeetsInvariant : Obligations.ResetMeetsInvariant :=
  ⟨reset_mem_wf, by decide, fun _ => by decide⟩

/-! ## The platform's faults (R23, R79) -/

theorem platformFault_of_not_noPlatformUd {narrow : Bool} {s : State} (h : ¬NoPlatformUd narrow s) :
    platformFault narrow s = some .ud := by
  rw [← platformUd_eq_false, Bool.not_eq_false] at h
  simp [platformFault, h]

theorem platformFault_of_cr0TS {narrow : Bool} {s : State} (h : NoPlatformUd narrow s) (hts : cr0TS s.ctl = true) :
    platformFault narrow s = some .nm := by
  simp [platformFault, platformUd_eq_false.2 h, hts]

/-- A platform fault ends every form before an operand is looked at (R72, R83). -/
theorem exec_of_platformFault {i : Instr} {s : State} {mk : Quad → BitVec 32 → Fault}
    (h : platformFault (lenNarrow (shapeOf i).vl) s = some mk) : exec i s = .fault (mk s.rip s.mxcsr) := by
  rw [exec_eq, reducePacked, h]
  rfl

/-- Clearing CR0.TS changes none of the #UD conditions. -/
theorem noPlatformUd_clear_ts {narrow : Bool} {s : State} :
    NoPlatformUd narrow { s with ctl := { s.ctl with cr0 := s.ctl.cr0 &&& ~~~8#64 } } ↔ NoPlatformUd narrow s := by
  have hpe : (s.ctl.cr0 &&& ~~~8#64).getLsbD 0 = s.ctl.cr0.getLsbD 0 := by
    rw [BitVec.getLsbD_and, show (~~~8#64).getLsbD 0 = true by decide, Bool.and_true]
  simp only [NoPlatformUd, cr0PE, hpe]
  rfl

/-- Settles O26: the platform check comes first in every form. -/
theorem disabledPlatformFaults : Obligations.DisabledPlatformFaults := by
  refine ⟨fun i s h => exec_of_platformFault (platformFault_of_not_noPlatformUd ?_), fun i s hen hts =>
    exec_of_platformFault (platformFault_of_cr0TS (noPlatformUd_clear_ts.1 (enabled_iff.1 hen).1) hts)⟩
  rintro ⟨hpe, hvm, hxsave, hx12, hx57, hfp16, hvl⟩
  rcases h with h | h | h | h | h | h | ⟨hn, h⟩
  · exact absurd hpe (by simp [h])
  · exact absurd hvm (by simp [h])
  · exact absurd hxsave (by simp [h])
  · exact h hx12
  · exact h hx57
  · exact absurd hfp16 (by simp [h])
  · exact absurd (hvl hn) (by simp [h])

/-! ## What a completed instruction does not depend on (R15, R16, R64) -/

/-- Nothing in its way, a packed operation completes. -/
theorem reducePacked_eq_next {vl : VecLen} {sae : Bool} {o : Operands} {src : Source} {len : Nat} {s : State}
    (hen : Enabled (lenNarrow vl) s) (hsrc : SourceReadable s vl o len src)
    (hmx : (mxUpdate s vl sae o src len).2 = false) :
    reducePacked vl sae o src len s = .next (reduceDone s vl sae o src len) := by
  simp [reducePacked, platformFault_eq_none.2 hen, sourceStop_eq_none.2 hsrc, hmx]

/-- Two states make the same elements active and reduce each active element to the same result. -/
def ElementsAgree (s s' : State) (vl : VecLen) (o : Operands) (src : Source) (len : Nat) : Prop :=
  ∀ j < lenKL vl, elemActive s' o j = elemActive s o j ∧
    (elemActive s o j = true → elemReduced s' vl o src len j = elemReduced s vl o src len j)

section Agree
variable {s s' : State} {vl : VecLen} {o : Operands} {src : Source} {len : Nat}

/-- States whose elements agree signal the same, whichever signal is read. -/
theorem ElementsAgree.any_eq (h : ElementsAgree s s' vl o src len) (f : ElemResult → Bool) :
    ((List.range (lenKL vl)).any fun j => elemActive s' o j && f (elemReduced s' vl o src len j)) =
      (List.range (lenKL vl)).any fun j => elemActive s o j && f (elemReduced s vl o src len j) := by
  rw [Bool.eq_iff_iff]
  simp only [List.any_eq_true, List.mem_range, Bool.and_eq_true]
  refine exists_congr fun j => and_congr_right fun hj => ?_
  obtain ⟨hact, hred⟩ := h j hj
  rw [hact]
  exact and_congr_right fun ha => by rw [hred ha]

theorem ElementsAgree.anyInvalid_eq (h : ElementsAgree s s' vl o src len) :
    anyInvalid s' vl o src len = anyInvalid s vl o src len := h.any_eq ElemResult.ie

theorem ElementsAgree.anyPrecision_eq (h : ElementsAgree s s' vl o src len) :
    anyPrecision s' vl o src len = anyPrecision s vl o src len := h.any_eq ElemResult.pe

/-- States whose elements and old destination agree get the same destination. -/
theorem ElementsAgree.resultLanes_eq (h : ElementsAgree s s' vl o src len)
    (hdst : zmmRead s' o.dst = zmmRead s o.dst) : resultLanes s' vl o src len = resultLanes s vl o src len := by
  unfold resultLanes
  congr 1
  funext j
  unfold elemResult
  split
  · rename_i hj
    obtain ⟨hact, hred⟩ := h j hj
    rw [hact, hdst]
    split
    · rw [hred ‹_›]
    · rfl
  · rfl

end Agree

/-- Where an instruction completes, it completes in a state that is enabled and readable with it, agrees in the
elements, and has the same IM and PM. -/
theorem exec_next_of_elementsAgree {i : Instr} {s s' t : State} (h : exec i s = .next t)
    (hagree : ElementsAgree s s' (shapeOf i).vl (shapeOf i).o (shapeOf i).src i.length)
    (hen : Enabled (lenNarrow (shapeOf i).vl) s → Enabled (lenNarrow (shapeOf i).vl) s')
    (hsrc : SourceReadable s (shapeOf i).vl (shapeOf i).o i.length (shapeOf i).src →
      SourceReadable s' (shapeOf i).vl (shapeOf i).o i.length (shapeOf i).src)
    (him : mxIM s'.mxcsr = mxIM s.mxcsr) (hpm : mxPM s'.mxcsr = mxPM s.mxcsr) :
    exec i s' = .next (reduceDone s' (shapeOf i).vl (shapeOf i).sae (shapeOf i).o (shapeOf i).src i.length) := by
  obtain ⟨hs, hread, hmx, -⟩ := reducePacked_next (exec_eq i s ▸ h)
  rw [exec_eq]
  refine reducePacked_eq_next (hen hs) (hsrc hread) ?_
  simpa only [mxUpdate, simdUpdate_snd, hagree.anyInvalid_eq, hagree.anyPrecision_eq, him, hpm] using hmx

/-- Other opmask bits from KL up: the same elements are active, with the same results. -/
theorem elementsAgree_of_k {s : State} {k' : Vector Quad 8} {vl : VecLen}
    (hk : ∀ (n : Fin 8) (j : Nat), j < lenKL vl → k'[n].getLsbD j = s.k[n].getLsbD j) (o : Operands) (src : Source)
    (len : Nat) : ElementsAgree s { s with k := k' } vl o src len := by
  intro j hj
  refine ⟨?_, fun _ => by cases src <;> rfl⟩
  simp only [elemActive, kRead]
  exact congrArg _ (hk ⟨o.mask.toNat, o.mask.isLt⟩ j hj)

/-- Whether the source may be read depends on which elements are active, and on no other opmask bit (R32). -/
theorem sourceReadable_of_k {s : State} {k' : Vector Quad 8} {vl : VecLen} {o : Operands} {src : Source} {len : Nat}
    (hact : ∀ j < lenKL vl, elemActive { s with k := k' } o j = elemActive s o j)
    (h : SourceReadable s vl o len src) : SourceReadable { s with k := k' } vl o len src := by
  cases src with
  | reg n => trivial
  | full a => exact fun j hj ha => h j hj (hact j hj ▸ ha)
  | bcst a => exact fun ⟨j, hj, ha⟩ => h ⟨j, hj, hact j hj ▸ ha⟩

/-- Settles O30: the elements agree, and no other part of the execution reads an opmask register. -/
theorem maskBitsAboveKLAreIgnored : Obligations.MaskBitsAboveKLAreIgnored := by
  intro i s t k' hk hexec
  have hagree := elementsAgree_of_k hk (shapeOf i).o (shapeOf i).src i.length
  rw [exec_next_of_elementsAgree hexec hagree id (sourceReadable_of_k fun j hj => (hagree j hj).1) rfl rfl,
    exec_next hexec]
  simp only [reduceDone, mxUpdate, hagree.anyInvalid_eq, hagree.anyPrecision_eq, hagree.resultLanes_eq rfl]
  rfl

/-- Another MXCSR with the same RC: the same elements are active, with the same results. -/
theorem elementsAgree_of_mxRC {s : State} {m' : BitVec 32} (hrc : mxRC m' = mxRC s.mxcsr) (vl : VecLen) (o : Operands)
    (src : Source) (len : Nat) : ElementsAgree s { s with mxcsr := m' } vl o src len := by
  refine fun j _ => ⟨rfl, fun _ => ?_⟩
  have hrm : effectiveRounding o.imm m' = effectiveRounding o.imm s.mxcsr := by simp only [effectiveRounding, hrc]
  simp only [elemReduced, hrm]
  cases src <;> rfl

/-- Settles O32: RC fixes the elements, IM and PM whether an exception is raised. -/
theorem otherMxcsrBitsAreNotConsulted : Obligations.OtherMxcsrBitsAreNotConsulted := by
  intro i s t m' hrc him hpm hexec
  have hagree := elementsAgree_of_mxRC hrc (shapeOf i).vl (shapeOf i).o (shapeOf i).src i.length
  have hsrc : SourceReadable s (shapeOf i).vl (shapeOf i).o i.length (shapeOf i).src →
      SourceReadable { s with mxcsr := m' } (shapeOf i).vl (shapeOf i).o i.length (shapeOf i).src := id
  refine ⟨_, exec_next_of_elementsAgree hexec hagree id hsrc him hpm, ?_, ?_,
    fun j h0 h5 => getLsbD_simdUpdate _ _ _ _ h0 h5⟩
  · simp only [exec_next hexec, reduceDone, zmmWrite, hagree.resultLanes_eq rfl]
  · rw [exec_next hexec]
    rfl

end Sys2Proof.Machine
end

section
/-! PROOFS. Where the bytes of a memory operand lie, in and outside 64-bit mode, and the elements they make up
(20_memory.md R25 to R29; 30_encoding.md R43, R44, R52, R53). -/

namespace Sys2Proof.Machine

/-! ## The segment of an operand (R28, R29, R52) -/

theorem legacySeg_eq_none {p : LegacyByte} : legacySeg p = none ↔ p = .addrSize := by
  cases p <;> simp [legacySeg]

theorem legacySeg_eq_fs {p : LegacyByte} : legacySeg p = some .fs ↔ p = .fs := by
  cases p <;> simp [legacySeg]

theorem legacySeg_eq_gs {p : LegacyByte} : legacySeg p = some .gs ↔ p = .gs := by
  cases p <;> simp [legacySeg]

/-- No legacy byte overrides the segment exactly when each is 67H. -/
theorem filterMap_legacySeg_eq_nil {ls : List LegacyByte} :
    ls.filterMap legacySeg = [] ↔ ∀ p ∈ ls, p = .addrSize := by
  simp only [List.filterMap_eq_nil_iff, legacySeg_eq_none]

theorem defaultSeg_eq (a : Mem) :
    defaultSeg a = if memBase a = some 4#4 ∨ memBase a = some 5#4 then .ss else .ds := by
  unfold defaultSeg
  cases memBase a <;> simp

/-- With no override the segment is the default one, in every mode. -/
theorem segUsed_of_no_override {m : Mode} {ls : List LegacyByte} (h : ∀ p ∈ ls, p = .addrSize) (a : Mem) :
    segUsed m ls a = if memBase a = some 4#4 ∨ memBase a = some 5#4 then .ss else .ds := by
  simp only [segUsed, if_pos (filterMap_legacySeg_eq_nil.2 h), defaultSeg_eq]

/-- In 64-bit mode an override makes the segment the last of FS and GS, or else DS. -/
theorem segUsed_mode64_of_override {ls : List LegacyByte} (h : ¬∀ p ∈ ls, p = .addrSize) (a : Mem) :
    segUsed .mode64 ls a =
      (((ls.filterMap legacySeg).filter fun g => g = .fs ∨ g = .gs).getLast?).getD .ds := by
  simp only [segUsed, if_neg (mt filterMap_legacySeg_eq_nil.1 h), if_true]

/-- Outside 64-bit mode the last override names the segment. -/
theorem segUsed_of_last_override {m : Mode} (hm : m ≠ .mode64) {before after : List LegacyByte} {p : LegacyByte}
    {g : SegName} (hp : legacySeg p = some g) (h : ∀ q ∈ after, q = .addrSize) (a : Mem) :
    segUsed m (before ++ p :: after) a = g := by
  have hoverrides : (before ++ p :: after).filterMap legacySeg = before.filterMap legacySeg ++ [g] := by
    rw [List.filterMap_append, List.filterMap_cons_some hp, filterMap_legacySeg_eq_nil.2 h]
  simp [segUsed, hoverrides, hm]

/-- In 64-bit mode an access is an SS access only through its base register and with no override (R29). -/
theorem segUsed_mode64_eq_ss {ls : List LegacyByte} {a : Mem} : segUsed .mode64 ls a = .ss ↔
    (memBase a = some 4#4 ∨ memBase a = some 5#4) ∧ ∀ p ∈ ls, p = .addrSize := by
  by_cases h : ∀ p ∈ ls, p = .addrSize
  · rw [segUsed_of_no_override h, and_iff_left h]
    split <;> simp [*]
  · refine iff_of_false (fun hss => ?_) fun hr => h hr.2
    rw [segUsed_mode64_of_override h, Option.getD_eq_iff] at hss
    rcases hss with hlast | ⟨-, hds⟩
    · simpa using List.of_mem_filter (List.mem_of_getLast? hlast)
    · cases hds

/-- In 64-bit mode without an FS or GS override the segment has base 0 (R28). -/
theorem segBase_segUsed_mode64 {s : State} (hm : modeOf s = .mode64) {ls : List LegacyByte}
    (hfs : LegacyByte.fs ∉ ls) (hgs : LegacyByte.gs ∉ ls) (a : Mem) : segBase s (segUsed .mode64 ls a) = 0#64 := by
  by_cases h : ∀ p ∈ ls, p = .addrSize
  · rw [segUsed_of_no_override h]
    split <;> simp [segBase, hm]
  · have hnone : (ls.filterMap legacySeg).filter (fun g => g = .fs ∨ g = .gs) = [] := by
      simp only [List.filter_eq_nil_iff, List.mem_filterMap, decide_eq_true_eq]
      rintro g ⟨p, hp, hg⟩ (rfl | rfl)
      · exact hfs (legacySeg_eq_fs.1 hg ▸ hp)
      · exact hgs (legacySeg_eq_gs.1 hg ▸ hp)
    rw [segUsed_mode64_of_override h, hnone]
    simp [segBase, hm]

/-! ## The terms of an address (R28, R43, R44) -/

theorem indexValue_eq (s : State) (scale : BitVec 2) (index : BitVec 4) :
    indexValue s scale index = indexOffset s scale index := by
  have hpow : BitVec.twoPow 64 scale.toNat = BitVec.ofNat 64 (2 ^ scale.toNat) :=
    BitVec.eq_of_toNat_eq (by simp)
  rw [indexValue, indexOffset, BitVec.shiftLeft_eq_mul_twoPow, hpow]

theorem dispValue_dispScale (vl : VecLen) (bc : Bool) (d : Disp) :
    dispValue (dispScale vl bc) d = dispOffset vl bc d := by
  cases d <;> rfl

/-- The low 32 bits of a sign-extended disp32 are the disp32. -/
theorem toNat_signExtend_mod (d : BitVec 32) : (d.signExtend 64).toNat % 2 ^ 32 = d.toNat := by
  rw [BitVec.toNat_signExtend, BitVec.toNat_setWidth]
  split <;> omega

/-! ## Byte addresses -/

/-- In 64-bit mode byte `k` lies at segment base plus effective address plus `k`. -/
theorem byteAddr_mode64 {s : State} (hm : modeOf s = .mode64) (acc : Access) (k : Nat) :
    byteAddr s acc k = segBase s acc.seg + acc.offset + BitVec.ofNat 64 k := by
  simp only [byteAddr, if_pos hm]

/-- Outside 64-bit mode byte `k` lies at segment base plus effective address plus `k`, modulo `2^32`. -/
theorem toNat_byteAddr_of_ne_mode64 {s : State} (hm : modeOf s ≠ .mode64) (acc : Access) (k : Nat) :
    (byteAddr s acc k).toNat = ((segGet s acc.seg).base.toNat + acc.offset.toNat + k) % 2 ^ 32 := by
  simp only [byteAddr, segBase, if_neg hm, BitVec.toNat_setWidth, BitVec.toNat_add, BitVec.toNat_ofNat]
  omega

/-- With 64-bit addressing and no FS or GS override, byte `k` lies at the sum of the operand's terms plus `k`. -/
theorem byteAddr_accessOf_mode64 {s : State} {o : Operands} (hm : modeOf s = .mode64)
    (h67 : LegacyByte.addrSize ∉ o.legacy) (hfs : LegacyByte.fs ∉ o.legacy) (hgs : LegacyByte.gs ∉ o.legacy)
    (vl : VecLen) (len : Nat) (bc : Bool) (a : Mem) (k : Nat) :
    byteAddr s (accessOf s vl o len bc a) k =
      addressSum s (dispScale vl bc) (s.rip + BitVec.ofNat 64 len) a + BitVec.ofNat 64 k := by
  simp [byteAddr_mode64 hm, accessOf, hm, segBase_segUsed_mode64 hm hfs hgs, effectiveAddress, addrSizeOf, h67,
    ripAdvance]

/-- Settles O34: the effective address of each form is its sum, and the segment base is 0. -/
theorem linearAddressInSixtyFourBitMode : Obligations.LinearAddressInSixtyFourBitMode := by
  intro s vl o len k bc hm h67 hfs hgs
  have haddr := fun a => byteAddr_accessOf_mode64 hm h67 hfs hgs vl len bc a k
  refine ⟨fun x base d => ?_, fun scale index base d => ?_, fun b scale index d => ?_, fun x b d => ?_⟩
  · rw [haddr, addressSum, dispValue_dispScale]
  · rw [haddr, addressSum, dispValue_dispScale, indexValue_eq]
  · rw [haddr, addressSum, indexValue_eq]
  · rw [haddr, addressSum, if_pos hm]

/-- In 64-bit mode a lone FS or GS override adds its segment's base. -/
theorem byteAddr_accessOf_override {s : State} {o : Operands} (hm : modeOf s = .mode64) (hnone : o.legacy = [])
    {p : LegacyByte} {g : SegName} (hp : legacySeg p = some g) (hg : g = .fs ∨ g = .gs) (vl : VecLen) (len : Nat)
    (bc : Bool) (a : Mem) (k : Nat) : byteAddr s (accessOf s vl { o with legacy := [p] } len bc a) k =
      segBase s g + byteAddr s (accessOf s vl o len bc a) k := by
  have hseg : segUsed .mode64 [p] a = g := by simp [segUsed, hp, hg]
  have h67 : p ≠ .addrSize := fun h => by simp [legacySeg_eq_none.2 h] at hp
  rw [byteAddr_accessOf_mode64 (o := o) hm (by simp [hnone]) (by simp [hnone]) (by simp [hnone]), byteAddr_mode64 hm]
  simp [accessOf, hseg, effectiveAddress, addrSizeOf, h67.symm, ripAdvance, hm, BitVec.add_assoc]

/-- Settles O35: each legacy byte changes one term of the address, the segment base or the cut of the sum. -/
theorem segmentBaseAndAddressSizeOverride : Obligations.SegmentBaseAndAddressSizeOverride := by
  intro s vl o len k bc a hm hnone
  refine ⟨?_, ?_, ?_⟩
  · rw [byteAddr_accessOf_override hm hnone rfl (.inl rfl), segBase, if_pos hm]
  · rw [byteAddr_accessOf_override hm hnone rfl (.inr rfl), segBase, if_pos hm]
  · rw [byteAddr_accessOf_mode64 (o := o) hm (by simp [hnone]) (by simp [hnone]) (by simp [hnone]), byteAddr_mode64 hm]
    simp [accessOf, segBase_segUsed_mode64 hm, effectiveAddress, addrSizeOf, ripAdvance, hm]

/-- With 32-bit addressing the effective address is the sum of the operand's terms modulo `2^32`. -/
theorem toNat_offset_accessOf {s : State} {o : Operands} (h : addrSizeOf (modeOf s) o.legacy = .a32) (vl : VecLen)
    (len : Nat) (bc : Bool) (a : Mem) : (accessOf s vl o len bc a).offset.toNat =
      (addressSum s (dispScale vl bc) (ripAdvance s len) a).toNat % 2 ^ 32 := by
  simp only [accessOf, effectiveAddress, h, BitVec.toNat_setWidth]
  omega

/-- Settles O56: both cases are 32-bit addressing, where each form's address is its sum modulo `2^32`. -/
theorem linearAddressOutsideSixtyFourBitMode : Obligations.LinearAddressOutsideSixtyFourBitMode := by
  intro s vl o len k bc hmode
  have hm : modeOf s ≠ .mode64 := by
    rcases hmode with ⟨h, -⟩ | ⟨h, -⟩ <;> simp [h]
  have hsize : addrSizeOf (modeOf s) o.legacy = .a32 := by
    rcases hmode with ⟨h, h67⟩ | ⟨h, h67⟩ <;> simp [addrSizeOf, h, h67]
  have hoffset := toNat_offset_accessOf hsize vl len bc
  refine ⟨fun a => toNat_byteAddr_of_ne_mode64 hm _ k, fun x base d => ?_, fun scale index base d => ?_,
    fun b scale index d => ?_, fun x b d => ?_⟩
  · rw [hoffset, addressSum, dispValue_dispScale]
  · rw [hoffset, addressSum, dispValue_dispScale, indexValue_eq]
  · rw [hoffset, addressSum, indexValue_eq]
  · rw [hoffset, addressSum, if_neg hm, BitVec.zero_add, toNat_signExtend_mod]

/-! ## The elements in memory (R25 to R27) -/

/-- Two bytes, low byte first. -/
theorem toNat_memRead16 (m : Memory) (lo hi : Quad) :
    (memRead16 m lo hi).toNat = (memRead m lo).toNat + 256 * (memRead m hi).toNat := by
  rw [memRead16, BitVec.toNat_append, ← Nat.shiftLeft_add_eq_or_of_lt (memRead m lo).isLt, Nat.shiftLeft_eq]
  omega

/-- Settles O36. -/
theorem memoryElementsAreLittleEndian : Obligations.MemoryElementsAreLittleEndian :=
  fun _ _ _ _ _ _ => ⟨toNat_memRead16 _ _ _, toNat_memRead16 _ _ _⟩

end Sys2Proof.Machine
end

section
/-! PROOFS. The faults and the refusal of a memory source, byte by byte, and what an inactive element leaves unread
(20_memory.md R29 to R34; 60_exceptions.md R76, R81, R83). -/

namespace Sys2Proof.Machine

/-! ## The denied byte that decides (R81, R83) -/

theorem verdictAddress_iff {v : Verdict} : verdictAddress v = true ↔ v = .generalProtection ∨ v = .stackFault := by
  cases v <;> simp [verdictAddress]

theorem mem_deniedBytes {s : State} {acc : Access} {ks : List Nat} {d : Quad × Verdict} :
    d ∈ deniedBytes s acc ks ↔ ∃ k ∈ ks, byteAddr s acc k = d.1 ∧ verdictOf s d.1 = some d.2 := by
  obtain ⟨a, v⟩ := d
  simp only [deniedBytes, List.mem_filterMap, Option.map_eq_some_iff, Prod.mk.injEq]
  constructor
  · rintro ⟨k, hk, w, hw, rfl, rfl⟩
    exact ⟨k, hk, rfl, hw⟩
  · rintro ⟨k, hk, rfl, hv⟩
    exact ⟨k, hk, v, hv, rfl, rfl⟩

/-- A denied byte below which there is no other is the lowest, when its address stands for it. -/
theorem lowestDenied_eq_some {l : List (Quad × Verdict)} {d : Quad × Verdict} (hd : d ∈ l)
    (hmin : ∀ e ∈ l, d.1.toNat ≤ e.1.toNat) (haddr : ∀ e ∈ l, e.1 = d.1 → e = d) :
    lowestDenied l = some d := by
  cases h : lowestDenied l with
  | none => simp [lowestDenied_eq_none.1 h] at hd
  | some e =>
    obtain ⟨he, hle⟩ := lowestDenied_spec h
    rw [haddr e he (BitVec.eq_of_toNat_eq (Nat.le_antisymm (hle d hd) (hmin e he)))]

section Denied
variable {s : State} {acc : Access} {ks : List Nat} {k : Nat} {v : Verdict} {p : Verdict → Bool}

/-- Of the denied bytes with one sort of verdict, the lowest is the one below which there is no other of that sort. -/
theorem lowestDenied_filter_deniedBytes (hk : k ∈ ks) (hv : verdictOf s (byteAddr s acc k) = some v) (hp : p v = true)
    (hmin : ∀ n ∈ ks, ∀ w, verdictOf s (byteAddr s acc n) = some w → p w = true →
      (byteAddr s acc k).toNat ≤ (byteAddr s acc n).toNat) :
    lowestDenied ((deniedBytes s acc ks).filter fun d => p d.2) = some (byteAddr s acc k, v) := by
  refine lowestDenied_eq_some ?_ ?_ ?_
  · exact List.mem_filter.2 ⟨mem_deniedBytes.2 ⟨k, hk, rfl, hv⟩, hp⟩
  · rintro ⟨a, w⟩ he
    obtain ⟨hden, hw⟩ := List.mem_filter.1 he
    obtain ⟨n, hn, rfl, hvn⟩ := mem_deniedBytes.1 hden
    exact hmin n hn w hvn hw
  · rintro ⟨a, w⟩ he rfl
    obtain ⟨-, -, -, hw⟩ := mem_deniedBytes.1 (List.mem_filter.1 he).1
    exact Prod.ext rfl (Option.some.inj (hw.symm.trans hv))

/-- A byte with #GP(0) or #SS(0) below which there is no other raises its fault. -/
theorem faultingByte_of_lowest_address (hk : k ∈ ks) (hv : verdictOf s (byteAddr s acc k) = some v)
    (hp : verdictAddress v = true)
    (hmin : ∀ n ∈ ks, ∀ w, verdictOf s (byteAddr s acc n) = some w → verdictAddress w = true →
      (byteAddr s acc k).toNat ≤ (byteAddr s acc n).toNat) :
    faultingByte (deniedBytes s acc ks) = some (byteAddr s acc k, v) := by
  rw [faultingByte, lowestDenied_filter_deniedBytes hk hv hp hmin]

/-- With no #GP(0) or #SS(0), a byte with a page fault below which there is no other raises its fault. -/
theorem faultingByte_of_lowest_page (hk : k ∈ ks) (hv : verdictOf s (byteAddr s acc k) = some v)
    (hp : verdictPage v = true)
    (hno : ∀ n ∈ ks, ∀ w, verdictOf s (byteAddr s acc n) = some w → verdictAddress w = false)
    (hmin : ∀ n ∈ ks, ∀ w, verdictOf s (byteAddr s acc n) = some w → verdictPage w = true →
      (byteAddr s acc k).toNat ≤ (byteAddr s acc n).toNat) :
    faultingByte (deniedBytes s acc ks) = some (byteAddr s acc k, v) := by
  have hnone : (deniedBytes s acc ks).filter (fun d => verdictAddress d.2) = [] := by
    rw [List.filter_eq_nil_iff]
    intro d hd
    obtain ⟨n, hn, haddr, hvn⟩ := mem_deniedBytes.1 hd
    simp [hno n hn d.2 (haddr ▸ hvn)]
  rw [faultingByte, hnone]
  exact lowestDenied_filter_deniedBytes hk hv hp hmin

/-! ## What stops a read of byte positions (R29, R30, R83) -/

/-- An illegal address comes first: #SS(0) in SS and #GP(0) elsewhere. -/
theorem readStop_of_illegal (broadcast : Bool) (hk : k ∈ ks) (hbad : byteLegal s acc k = false) :
    readStop s acc broadcast ks =
      some (.fault (if acc.seg = .ss then .ss s.rip s.mxcsr else .gp s.rip s.mxcsr)) := by
  have hany : (ks.any fun k => !byteLegal s acc k) = true := List.any_eq_true.2 ⟨k, hk, by simp [hbad]⟩
  rw [readStop, if_pos hany]
  split <;> rfl

/-- With legal addresses throughout, a byte with a named fault comes next. -/
theorem readStop_of_faultingByte (broadcast : Bool) (hlegal : ∀ n ∈ ks, byteLegal s acc n = true)
    {d : Quad × Verdict} (hd : faultingByte (deniedBytes s acc ks) = some d) :
    readStop s acc broadcast ks = some (verdictStop s d) := by
  have hany : ¬(ks.any fun k => !byteLegal s acc k) = true := by simpa using hlegal
  rw [readStop, if_neg hany, hd]

/-- With legal addresses and no named fault, the alignment check comes before the refusal of a byte. -/
theorem readStop_of_no_faultingByte (broadcast : Bool) (hlegal : ∀ n ∈ ks, byteLegal s acc n = true)
    (hnone : faultingByte (deniedBytes s acc ks) = none) :
    readStop s acc broadcast ks =
      if broadcast = true ∧ ks ≠ [] ∧ acEnabled s.ctl = true ∧ (byteAddr s acc 0).getLsbD 0 = true then
        some (.fault (.ac s.rip s.mxcsr))
      else (lowestDenied (deniedBytes s acc ks)).map (verdictStop s) := by
  have hany : ¬(ks.any fun k => !byteLegal s acc k) = true := by simpa using hlegal
  rw [readStop, if_neg hany, hnone]
  simp only [Bool.and_eq_true, Bool.not_eq_true', List.isEmpty_eq_false_iff, and_assoc]
  rfl

/-- A denied byte never gives #AC(0). -/
theorem verdictStop_ne_ac {d : Quad × Verdict} {r : Quad} {m : BitVec 32} : verdictStop s d ≠ .fault (.ac r m) := by
  obtain ⟨a, v⟩ := d
  cases v <;> simp [verdictStop, raise]

/-- A read gives #AC(0) only for a broadcast element at an odd address, read with alignment checking on. -/
theorem readStop_eq_ac {broadcast : Bool} {r : Quad} {m : BitVec 32}
    (h : readStop s acc broadcast ks = some (.fault (.ac r m))) :
    r = s.rip ∧ m = s.mxcsr ∧ broadcast = true ∧ ks ≠ [] ∧ acEnabled s.ctl = true ∧
      (byteAddr s acc 0).getLsbD 0 = true := by
  by_cases hbad : ∃ k ∈ ks, byteLegal s acc k = false
  · obtain ⟨k, hk, hbad⟩ := hbad
    rw [readStop_of_illegal broadcast hk hbad] at h
    split at h <;> simp at h
  have hlegal : ∀ n ∈ ks, byteLegal s acc n = true := by simpa using hbad
  cases hf : faultingByte (deniedBytes s acc ks) with
  | some d =>
    rw [readStop_of_faultingByte broadcast hlegal hf] at h
    exact absurd (Option.some.inj h) verdictStop_ne_ac
  | none =>
    rw [readStop_of_no_faultingByte broadcast hlegal hf] at h
    split at h
    · cases h
      exact ⟨rfl, rfl, ‹_›⟩
    · obtain ⟨d, -, hd⟩ := Option.map_eq_some_iff.1 h
      exact absurd hd verdictStop_ne_ac

end Denied

/-! ## The read of the source (R27, R32) -/

theorem mem_bcstOffsets {s : State} {vl : VecLen} {o : Operands} {k : Nat} :
    k ∈ bcstOffsets s vl o ↔ (∃ i < lenKL vl, elemActive s o i = true) ∧ (k = 0 ∨ k = 1) := by
  rw [bcstOffsets_eq]
  split <;> simp_all

/-- The access of a byte that a source reads is that of its memory operand. -/
theorem access_of_sourceByte {s : State} {vl : VecLen} {o : Operands} {src : Source} {len : Nat} {acc : Access}
    {k : Nat} (h : SourceByte s vl o len acc k src) :
    ∃ a, sourceMem src = some a ∧ acc = accessOf s vl o len src.bit a := by
  cases src with
  | reg n => exact h.elim
  | full a => exact ⟨a, rfl, h.1⟩
  | bcst a => exact ⟨a, rfl, h.1⟩

/-- A source that reads a byte is one read, of the positions of all the bytes it reads. -/
theorem sourceStop_eq_readStop {s : State} {vl : VecLen} {o : Operands} {src : Source} {len : Nat} {acc : Access}
    {k : Nat} (h : SourceByte s vl o len acc k src) :
    ∃ ks, (∀ n, n ∈ ks ↔ SourceByte s vl o len acc n src) ∧
      sourceStop s vl o src len = readStop s acc src.bit ks := by
  cases src with
  | reg n => exact h.elim
  | full a =>
    obtain ⟨rfl, -⟩ := h
    exact ⟨fullOffsets s vl o, fun n => by simp [mem_fullOffsets], rfl⟩
  | bcst a =>
    obtain ⟨rfl, -⟩ := h
    exact ⟨bcstOffsets s vl o, fun n => by simp [mem_bcstOffsets], rfl⟩

/-- On an enabled platform a stop of the source read is the instruction's outcome (R72). -/
theorem exec_of_sourceStop {i : Instr} {s : State} {r : Result} (hen : Enabled (lenNarrow (shapeOf i).vl) s)
    (h : sourceStop s (shapeOf i).vl (shapeOf i).o (shapeOf i).src i.length = some r) : exec i s = r := by
  rw [exec_eq, reducePacked, platformFault_eq_none.2 hen, h]

section Reads
variable {i : Instr} {s : State} {acc : Access} {k : Nat}

/-- What stops the read of all the bytes an instruction reads is its outcome. -/
theorem exec_of_readStop {r : Result} (hen : Enabled (lenNarrow (shapeOf i).vl) s) (hk : ReadsByte s i acc k)
    (h : ∀ ks, (∀ n, n ∈ ks ↔ ReadsByte s i acc n) → readStop s acc (shapeOf i).src.bit ks = some r) :
    exec i s = r := by
  obtain ⟨ks, hks, hstop⟩ := sourceStop_eq_readStop hk
  exact exec_of_sourceStop hen (hstop.trans (h ks hks))

/-- A byte at an illegal address faults before any other byte is looked at. -/
theorem exec_of_illegal (hen : Enabled (lenNarrow (shapeOf i).vl) s) (hk : ReadsByte s i acc k)
    (hbad : byteLegal s acc k = false) :
    exec i s = .fault (if acc.seg = .ss then .ss s.rip s.mxcsr else .gp s.rip s.mxcsr) :=
  exec_of_readStop hen hk fun _ hks => readStop_of_illegal _ ((hks k).2 hk) hbad

/-- With legal addresses throughout, a byte with #GP(0) or #SS(0) below which there is no other decides. -/
theorem exec_of_lowest_address {v : Verdict} (hen : Enabled (lenNarrow (shapeOf i).vl) s) (hk : ReadsByte s i acc k)
    (hlegal : ∀ n, ReadsByte s i acc n → byteLegal s acc n = true)
    (hmin : ∀ n, ReadsByte s i acc n → verdictOf s (byteAddr s acc n) = some .generalProtection ∨
      verdictOf s (byteAddr s acc n) = some .stackFault → (byteAddr s acc k).toNat ≤ (byteAddr s acc n).toNat)
    (hv : verdictOf s (byteAddr s acc k) = some v) (hp : verdictAddress v = true) :
    exec i s = verdictStop s (byteAddr s acc k, v) := by
  refine exec_of_readStop hen hk fun ks hks => readStop_of_faultingByte _ (fun n hn => hlegal n ((hks n).1 hn)) ?_
  refine faultingByte_of_lowest_address ((hks k).2 hk) hv hp fun n hn w hw hpw => hmin n ((hks n).1 hn) ?_
  simpa [hw] using verdictAddress_iff.1 hpw

end Reads

/-- Settles O57: the byte decides, by its verdict. -/
theorem addressVerdictsComeBeforePageFaults : Obligations.AddressVerdictsComeBeforePageFaults :=
  fun _ _ _ _ hen hk hlegal hmin =>
    ⟨fun hv => exec_of_lowest_address hen hk hlegal hmin hv rfl,
      fun hv => exec_of_lowest_address hen hk hlegal hmin hv rfl⟩

/-- Settles O37: no byte has an address fault, so the lowest page fault decides. -/
theorem pageFaultReportsTheLowestAddress : Obligations.PageFaultReportsTheLowestAddress := by
  intro i s acc k code hen hk hlegal hno hv hmin
  refine exec_of_readStop hen hk fun ks hks => readStop_of_faultingByte _ (fun n hn => hlegal n ((hks n).1 hn))
    (faultingByte_of_lowest_page ((hks k).2 hk) hv rfl ?_ ?_)
  · intro n hn w hw
    obtain ⟨hgp, hss⟩ := hno n ((hks n).1 hn)
    refine Bool.eq_false_iff.2 fun ha => ?_
    rcases verdictAddress_iff.1 ha with rfl | rfl
    · exact hgp hw
    · exact hss hw
  · intro n hn w hw hpw
    cases w with
    | pageFault c => exact hmin n c ((hks n).1 hn) hw
    | _ => cases hpw

/-- Settles O38: no byte has a named fault and no alignment check hits, so the lowest denied byte is refused. -/
theorem unnamedMemoryIsRefused : Obligations.UnnamedMemoryIsRefused := by
  intro i s acc k hen hk hlegal hunnamed hac hv hmin
  refine exec_of_readStop hen hk fun ks hks => ?_
  have hdenied : ∀ n ∈ ks, ∀ w, verdictOf s (byteAddr s acc n) = some w → w = .unnamed := by
    intro n hn w hw
    simpa [hw] using hunnamed n ((hks n).1 hn)
  have hnone : faultingByte (deniedBytes s acc ks) = none := by
    refine faultingByte_eq_none.2 fun d hd => ?_
    obtain ⟨n, hn, haddr, hvn⟩ := mem_deniedBytes.1 hd
    exact hdenied n hn d.2 (haddr ▸ hvn)
  have hlow : lowestDenied (deniedBytes s acc ks) = some (byteAddr s acc k, .unnamed) := by
    simpa using lowestDenied_filter_deniedBytes (p := fun _ => true) ((hks k).2 hk) hv rfl fun n hn w hw _ =>
      hmin n ((hks n).1 hn) (hdenied n hn w hw ▸ hw)
  have hcheck : ¬((shapeOf i).src.bit = true ∧ ks ≠ [] ∧ acEnabled s.ctl = true ∧
      (byteAddr s acc 0).getLsbD 0 = true) := by
    rintro ⟨hbit, -, hon, hodd⟩
    rcases hac with hfull | hoff | heven
    · cases hsrc : (shapeOf i).src with
      | reg n => simp [hsrc, Source.bit] at hbit
      | full a => simp [hsrc, Source.bit] at hbit
      | bcst a => exact hfull a hsrc
    · exact hoff (acEnabled_iff.1 hon)
    · exact Bool.false_ne_true (heven.symm.trans hodd)
  rw [readStop_of_no_faultingByte _ (fun n hn => hlegal n ((hks n).1 hn)) hnone, if_neg hcheck, hlow]
  rfl

/-- Settles O39: the segment is SS exactly with a stack base and no override. -/
theorem nonCanonicalAddressFaults : Obligations.NonCanonicalAddressFaults := by
  intro i s acc k hen hm hk hbad
  obtain ⟨a, ha, hacc⟩ := access_of_sourceByte hk
  have hseg : acc.seg = .ss ↔ StackBased (shapeOf i).src ∧ ∀ p ∈ (shapeOf i).o.legacy, p = .addrSize := by
    simp only [hacc, accessOf, hm, segUsed_mode64_eq_ss, StackBased, ha, Option.bind_some]
  simp only [exec_of_illegal hen hk (by simpa only [byteLegal, if_pos hm] using hbad), hseg]

/-- Settles O40: a byte out of the limit or of the type is illegal, and the last override or the base names the
segment. -/
theorem segmentLimitAndTypeFault : Obligations.SegmentLimitAndTypeFault := by
  refine ⟨fun i s acc k hen hm hk hbad => exec_of_illegal hen hk ?_, fun s vl o len bc a hm hnone =>
    segUsed_of_no_override hnone a, fun s vl o len bc a before after p g hm hlegacy hp hafter => ?_⟩
  · rw [byteLegal, if_neg hm]
    rcases hbad with hlimit | htype
    · simp [hlimit]
    · simp [htype]
  · rw [accessOf, hlegacy, segUsed_of_last_override hm hp hafter]

/-- A source read gives #AC(0) only for an active broadcast element at an odd address with alignment checking on. -/
theorem sourceStop_eq_ac {s : State} {vl : VecLen} {o : Operands} {src : Source} {len : Nat} {r : Quad}
    {m : BitVec 32} (h : sourceStop s vl o src len = some (.fault (.ac r m))) :
    r = s.rip ∧ m = s.mxcsr ∧ acEnabled s.ctl = true ∧ (∃ j < lenKL vl, elemActive s o j = true) ∧
      ∃ a, src = .bcst a ∧ (byteAddr s (accessOf s vl o len true a) 0).getLsbD 0 = true := by
  cases src with
  | reg n => cases h
  | full a =>
    obtain ⟨-, -, hbit, -⟩ := readStop_eq_ac h
    cases hbit
  | bcst a =>
    obtain ⟨hr, hm, -, hread, hon, hodd⟩ := readStop_eq_ac h
    obtain ⟨k, hk⟩ := List.exists_mem_of_ne_nil _ hread
    exact ⟨hr, hm, hon, (mem_bcstOffsets.1 hk).1, a, rfl, hodd⟩

/-- An instruction raises #AC(0) only in the read of its source: the platform raises #UD and #NM, and an unmasked
exception is #XM or #UD. -/
theorem sourceStop_of_exec_eq_ac {i : Instr} {s : State} {r : Quad} {m : BitVec 32}
    (h : exec i s = .fault (.ac r m)) :
    sourceStop s (shapeOf i).vl (shapeOf i).o (shapeOf i).src i.length = some (.fault (.ac r m)) := by
  rw [exec_eq] at h
  obtain ⟨mk, hmk, he⟩ | ⟨-, r', hr', he⟩ | ⟨-, -, -, he⟩ | ⟨-, -, -, he⟩ :=
    reducePacked_cases (shapeOf i).vl (shapeOf i).sae (shapeOf i).o (shapeOf i).src i.length s
  · rw [he] at h
    rcases platformFault_eq_some hmk with rfl | rfl <;> cases h
  · rw [hr', ← he, h]
  · rw [he, simdFault] at h
    split at h <;> cases h
  · rw [he] at h
    cases h

/-- Settles O41: the alignment check is all that is left to stop a readable element, and nothing else gives #AC(0). -/
theorem alignmentCheckOnlyForBroadcast : Obligations.AlignmentCheckOnlyForBroadcast := by
  refine ⟨?_, ?_⟩
  · intro i a s hsrc hen hact h0 h1 ham hrf hcpl hodd
    have hread : ∀ k ∈ [0, 1], ByteReadable s (accessOf s (shapeOf i).vl (shapeOf i).o i.length true a) k :=
      List.forall_mem_cons.2 ⟨h0, List.forall_mem_singleton.2 h1⟩
    have hdenied := deniedBytes_eq_nil.2 fun k hk => (hread k hk).2
    refine exec_of_sourceStop hen ?_
    rw [hsrc, sourceStop, bcstOffsets_eq, if_pos hact,
      readStop_of_no_faultingByte true (fun k hk => (hread k hk).1) (faultingByte_eq_none.2 (by simp [hdenied])),
      if_pos ⟨rfl, by simp, acEnabled_iff.2 ⟨ham, hrf, hcpl⟩, hodd⟩]
  · intro i s r m h
    obtain ⟨hr, hm, hon, hact, hodd⟩ := sourceStop_eq_ac (sourceStop_of_exec_eq_ac h)
    obtain ⟨ham, hrf, hcpl⟩ := acEnabled_iff.1 hon
    exact ⟨hr, hm, ham, hrf, hcpl, hact, hodd⟩

/-! ## What is not read (R32, R66) -/

theorem lenKL_le (vl : VecLen) : lenKL vl ≤ 32 := by
  cases vl <;> decide

section Inactive
variable {s : State} {vl : VecLen} {o : Operands} (hoff : ∀ j < lenKL vl, elemActive s o j = false)
include hoff

/-- With no active element no byte of the source is read, so it may be read. -/
theorem sourceReadable_of_inactive (src : Source) (len : Nat) : SourceReadable s vl o len src := by
  cases src with
  | reg n => trivial
  | full a => exact fun j hj ha => absurd ha (by simp [hoff j hj])
  | bcst a => exact fun ⟨j, hj, ha⟩ => absurd ha (by simp [hoff j hj])

/-- With no active element MXCSR stays as it is and no exception is raised (R71). -/
theorem mxUpdate_of_inactive (sae : Bool) (src : Source) (len : Nat) :
    mxUpdate s vl sae o src len = (s.mxcsr, false) := by
  have hnone : ∀ f : Nat → Bool, ((List.range (lenKL vl)).any fun j => elemActive s o j && f j) = false :=
    fun f => List.any_eq_false.2 fun j hj => by simp [hoff j (List.mem_range.1 hj)]
  have hie : anyInvalid s vl o src len = false := hnone _
  have hpe : anyPrecision s vl o src len = false := hnone _
  rw [mxUpdate, hie, hpe]
  cases sae <;> simp [simdUpdate, mxSetFlags]

end Inactive

/-- Settles O29: nothing is read, no element signals, and every element is zeroed or kept. -/
theorem noActiveElementReadsNothing : Obligations.NoActiveElementReadsNothing := by
  intro i s _ hen hoff
  have hmx := mxUpdate_of_inactive hoff (shapeOf i).sae (shapeOf i).src i.length
  have hexec := (exec_eq i s).trans (reducePacked_eq_next hen (sourceReadable_of_inactive hoff _ _) (by rw [hmx]))
  refine ⟨_, hexec, by rw [reduceDone_mxcsr, hmx], fun j hj => ?_⟩
  rw [lane_dst_of_exec_next hexec (hj.trans_le (lenKL_le _)), elemResult, if_pos hj, if_neg (by simp [hoff j hj])]

/-- Another memory with the same active elements: the same elements are active, with the same results. -/
theorem elementsAgree_of_mem {s : State} {vl : VecLen} {o : Operands} {len : Nat} {a : Mem} {m' : Memory}
    (h : ∀ j < lenKL vl, elemActive s o j = true →
      memElem { s with mem := m' } (accessOf s vl o len false a) j = memElem s (accessOf s vl o len false a) j) :
    ElementsAgree s { s with mem := m' } vl o (.full a) len := by
  refine fun j hj => ⟨rfl, fun ha => ?_⟩
  have helem : sourceElem { s with mem := m' } vl o (.full a) len j = sourceElem s vl o (.full a) len j := h j hj ha
  simp only [elemReduced, helem]

/-- Settles O31: the elements agree, and no other part of the execution reads memory. -/
theorem maskedOffBytesAreNotRead : Obligations.MaskedOffBytesAreNotRead := by
  intro i a s t m' hsrc hbytes hexec
  have hagree : ElementsAgree s { s with mem := m' } (shapeOf i).vl (shapeOf i).o (shapeOf i).src i.length :=
    hsrc ▸ elementsAgree_of_mem fun j hj ha =>
      congrArg₂ (fun hi lo : Byte => hi ++ lo) (hbytes j hj ha).2 (hbytes j hj ha).1
  rw [exec_next_of_elementsAgree hexec hagree id (by rw [hsrc]; exact id) rfl rfl, exec_next hexec]
  simp only [reduceDone, mxUpdate, hagree.anyInvalid_eq, hagree.anyPrecision_eq, hagree.resultLanes_eq rfl]
  rfl

end Sys2Proof.Machine
end

section
/-! PROOFS. Encoding and decoding are inverse: the encoding of every form at once, what an instruction keeps of the bytes
it was decoded from, and the fixed bits of those bytes (30_encoding.md R39 to R53). -/

namespace Sys2Proof.Machine

/-! ## The encoding of every form at once (R39, R49, R50) -/

/-- The field L'L of an encoding (R50). -/
def llOf : Instr → BitVec 2
  | .vreducephXmm _ _ => 0#2
  | .vreducephYmm _ _ => 1#2
  | .vreducephZmm _ _ => 2#2
  | .vreducephZmmSae _ _ ll => ll

/-- The field `EVEX.b` of an encoding (R49). -/
def bitOf : Instr → Bool
  | .vreducephXmm _ src => src.bit
  | .vreducephYmm _ src => src.bit
  | .vreducephZmm _ src => src.bit
  | .vreducephZmmSae _ _ _ => true

/-- The four free bytes of an instruction's encoding. -/
def evexOf (i : Instr) : Evex := evexOfParts (shapeOf i).o (shapeOf i).src.part (llOf i) (bitOf i)

/-- The bytes of an encoding after ModRM. -/
def tailOf (i : Instr) : List Byte := (shapeOf i).src.part.tail ++ [(shapeOf i).o.imm]

/-- The bytes from 62H on of an encoding of map 0F3A with opcode 56H (R39, R41). -/
abbrev bodyBytes (e : Evex) (bs : List Byte) : List Byte :=
  0x62#8 :: e.p0 :: e.p1 :: e.p2 :: 0x56#8 :: e.modrm :: bs

theorem length_eq_plainLength (i : Instr) : i.length = plainLength (shapeOf i).o (shapeOf i).src := by
  cases i <;> rfl

/-- The bytes of every form: legacy bytes, the six fixed and EVEX bytes, the operand bytes (R39). -/
theorem encode_eq (i : Instr) :
    encode i = (shapeOf i).o.legacy.map LegacyByte.code ++ bodyBytes (evexOf i) (tailOf i) := by
  cases i <;> rfl

theorem wf_iff_shape {m : Mode} {i : Instr} : i.wf m = true ↔
    (shapeOf i).o.wf m = true ∧ (shapeOf i).src.wfIn m (shapeOf i).o.legacy = true ∧ i.length ≤ 15 := by
  cases i <;> exact plainWf_iff

/-- L'L = 11 is the field of a `{sae}` form only (R49, R50). -/
theorem llOf_ne_three_or_sae (i : Instr) : llOf i ≠ 3#2 ∨ evexSae (evexOf i) = true := by
  cases i with
  | vreducephXmm o src => exact .inl (by simp [llOf])
  | vreducephYmm o src => exact .inl (by simp [llOf])
  | vreducephZmm o src => exact .inl (by simp [llOf])
  | vreducephZmmSae o n ll => exact .inr (by simp [evexSae, evexOf, shapeOf, bitOf, Source.part])

/-- The operand bytes of an encoding decode to the instruction. -/
theorem decodeOperands_evexOf {m : Mode} {i : Instr}
    (hsrc : (shapeOf i).src.wfIn m (shapeOf i).o.legacy = true) :
    decodeOperands m (shapeOf i).o.legacy (evexOf i) (tailOf i) = .ok i := by
  rw [evexOf, tailOf]
  cases i with
  | vreducephXmm o src => exact decodeOperands_plain hsrc _ []
  | vreducephYmm o src => exact decodeOperands_plain hsrc _ []
  | vreducephZmm o src => exact decodeOperands_plain hsrc _ []
  | vreducephZmmSae o n ll => simp [decodeOperands, shapeOf, bitOf, llOf, Source.part]

/-- Settles O3. -/
theorem decodeOfEncode : Obligations.DecodeOfEncode :=
  fun _ _ rest h => decode_encode_append h rest

/-! ## The bytes of what decodes (R39 to R46) -/

theorem code_of_legacyOf {b : Byte} {p : LegacyByte} (h : legacyOf b = some p) : p.code = b := by
  unfold legacyOf at h
  split_ifs at h <;> cases h <;> exact Eq.symm ‹_›

/-- With no forbidden byte among them, the legacy bytes are those of their names. -/
theorem splitLegacy_bytes {bs : List Byte} (h : (splitLegacy bs).2.1 = false) :
    bs = (splitLegacy bs).1.map LegacyByte.code ++ (splitLegacy bs).2.2 := by
  induction bs with
  | nil => rfl
  | cons b bs ih =>
    unfold splitLegacy at h ⊢
    split at h
    · rename_i p hp
      rw [List.map_cons, List.cons_append, code_of_legacyOf hp, ← ih h]
    · split at h
      · cases h
      · rename_i hf
        rw [if_neg hf]
        rfl

theorem disp32Bytes_le32 (b0 b1 b2 b3 : Byte) : disp32Bytes (le32 b0 b1 b2 b3) = [b0, b1, b2, b3] := by
  simp only [disp32Bytes, le32, List.cons.injEq, and_true]
  refine ⟨BitVec.extractLsb'_append_eq_right, ?_, ?_, ?_⟩
  · rw [BitVec.extractLsb'_append_eq_of_le (by decide), BitVec.extractLsb'_append_eq_right]
  · rw [BitVec.extractLsb'_append_eq_of_le (by decide), BitVec.extractLsb'_append_eq_of_le (by decide),
      BitVec.extractLsb'_append_eq_right]
  · rw [BitVec.extractLsb'_append_eq_of_le (by decide), BitVec.extractLsb'_append_eq_of_le (by decide),
      BitVec.extractLsb'_append_eq_of_le (by decide), BitVec.extractLsb'_eq_self]

/-- A disp32 that is taken stands at the front. -/
theorem takeDisp32_bytes {bs rest : List Byte} {d : BitVec 32} (h : takeDisp32 bs = some (d, rest)) :
    bs = disp32Bytes d ++ rest := by
  unfold takeDisp32 at h
  split at h
  · cases h
    rw [disp32Bytes_le32]
    rfl
  · cases h

/-- A displacement that is taken is the one ModRM.mod announces, and stands at the front. -/
theorem takeDisp_mod_bytes {mod : BitVec 2} (hmod : mod ≠ 3#2) {bs rest : List Byte} {d : Disp}
    (h : takeDisp mod bs = some (d, rest)) : d.mod = mod ∧ bs = d.bytes ++ rest := by
  unfold takeDisp at h
  split at h
  · rename_i h1
    cases bs with
    | nil => cases h
    | cons b bs =>
      cases h
      exact ⟨h1.symm, rfl⟩
  · rename_i h1
    split at h
    · rename_i h2
      obtain ⟨⟨d32, tail⟩, htake, heq⟩ := Option.map_eq_some_iff.1 h
      cases heq
      exact ⟨h2.symm, takeDisp32_bytes htake⟩
    · rename_i h2
      cases h
      have hzero : ∀ mod : BitVec 2, mod ≠ 1#2 → mod ≠ 2#2 → mod ≠ 3#2 → mod = 0#2 := by decide
      exact ⟨(hzero mod h1 h2 hmod).symm, rfl⟩

@[simp] theorem gprNumber_bit (hi : Bool) (lo : BitVec 3) : (gprNumber hi lo).getLsbD 3 = hi := by
  revert hi lo; decide

@[simp] theorem gprNumber_low (hi : Bool) (lo : BitVec 3) : (gprNumber hi lo).extractLsb' 0 3 = lo := by
  revert hi lo; decide

theorem sibByte_of_fields : ∀ sib : Byte,
    sibByte (sib.extractLsb' 6 2) (sib.extractLsb' 3 3) (sib.extractLsb' 0 3) = sib := by
  decide

/-- Where ModRM.mod and a base do not announce that there is no base, base and displacement are well-formed (R42). -/
theorem base_wf_of_mod {mod : BitVec 2} {d : Disp} {base : BitVec 3} (hd : d.mod = mod)
    (h : ¬(mod = 0#2 ∧ base = 5#3)) : (d != .zero || base != 5#3) = true := by
  rw [← hd, Disp.mod_eq_zero] at h
  simpa [← not_and_or] using h

/-- A memory operand that is taken is well-formed; its encoding has the EVEX and ModRM fields it was taken with, and its
bytes stand at the front. -/
theorem takeMem_part_bytes {e : Evex} (hmod : evexMod e ≠ 3#2) {bs rest : List Byte} {a : Mem}
    (h : takeMem e bs = some (a, rest)) :
    a.wf = true ∧ a.part = ⟨evexX e, evexB e, evexMod e, evexRm e, a.part.tail⟩ ∧ bs = a.part.tail ++ rest := by
  unfold takeMem at h
  split at h
  · rename_i hrm
    cases bs with
    | nil => cases h
    | cons sib bs =>
      simp only at h
      split at h
      · rename_i hno
        obtain ⟨⟨d, tail⟩, htake, heq⟩ := Option.map_eq_some_iff.1 h
        cases heq
        refine ⟨rfl, ?_, ?_⟩
        · simp only [Mem.part, gprNumber_bit, hno.1, hrm]
        · rw [takeDisp32_bytes htake, ← sibByte_of_fields sib, hno.2]
          simp [Mem.part, sibByte_scale, sibByte_index]
      · rename_i hno
        obtain ⟨⟨d, tail⟩, htake, heq⟩ := Option.map_eq_some_iff.1 h
        cases heq
        obtain ⟨hd, hbs⟩ := takeDisp_mod_bytes hmod htake
        refine ⟨?_, ?_, ?_⟩
        · rw [Mem.wf, gprNumber_low]
          exact base_wf_of_mod hd hno
        · simp only [Mem.part, gprNumber_bit, hd, hrm]
        · simp only [Mem.part, gprNumber_low, sibByte_of_fields, hbs, List.cons_append]
  · rename_i hrm
    split at h
    · rename_i hno
      obtain ⟨⟨d, tail⟩, htake, heq⟩ := Option.map_eq_some_iff.1 h
      cases heq
      exact ⟨rfl, by simp only [Mem.part, hno.1, hno.2], takeDisp32_bytes htake⟩
    · rename_i hno
      obtain ⟨⟨d, tail⟩, htake, heq⟩ := Option.map_eq_some_iff.1 h
      cases heq
      obtain ⟨hd, hbs⟩ := takeDisp_mod_bytes hmod htake
      refine ⟨?_, ?_, hbs⟩
      · rw [Mem.wf, gprNumber_low, base_wf_of_mod hd hno, Bool.and_true, bne_iff_ne]
        exact hrm
      · simp only [Mem.part, gprNumber_bit, gprNumber_low, hd]

theorem llOf_plainForm {ll : BitVec 2} (hll : ll ≠ 3#2) (o : Operands) (src : Source) :
    llOf (plainForm ll o src) = ll := by
  have htwo : ∀ ll : BitVec 2, ll ≠ 0#2 → ll ≠ 1#2 → ll ≠ 3#2 → ll = 2#2 := by decide
  unfold plainForm
  split_ifs with h0 h1
  · exact h0.symm
  · exact h1.symm
  · exact (htwo ll h0 h1 hll).symm

@[simp] theorem bitOf_plainForm (ll : BitVec 2) (o : Operands) (src : Source) :
    bitOf (plainForm ll o src) = src.bit := by
  unfold plainForm
  split_ifs <;> rfl

@[simp] theorem shapeOf_plainForm_o (ll : BitVec 2) (o : Operands) (src : Source) :
    (shapeOf (plainForm ll o src)).o = o := by
  unfold plainForm
  split_ifs <;> rfl

@[simp] theorem shapeOf_plainForm_src (ll : BitVec 2) (o : Operands) (src : Source) :
    (shapeOf (plainForm ll o src)).src = src := by
  unfold plainForm
  split_ifs <;> rfl

theorem evexSae_iff {e : Evex} : evexSae e = true ↔ evexBit e = true ∧ evexMod e = 3#2 := by
  simp [evexSae]

/-- What an instruction keeps of the EVEX bytes, legacy bytes and operand bytes it was decoded from: every field. -/
theorem decodeOperands_fields {m : Mode} {legacy : List LegacyByte} {e : Evex} {bs : List Byte} {i : Instr}
    (h : decodeOperands m legacy e bs = .ok i) (hll : evexLL e = 3#2 → evexSae e = true) :
    (∃ imm, (shapeOf i).o = evexOperands legacy e imm) ∧ llOf i = evexLL e ∧ bitOf i = evexBit e ∧
      (shapeOf i).src.part = ⟨evexX e, evexB e, evexMod e, evexRm e, (shapeOf i).src.part.tail⟩ ∧
      ∃ rest, bs = tailOf i ++ rest := by
  obtain ⟨hmod, imm, rest, rfl, rfl⟩ | ⟨hmod, -, a, imm, rest, htake, rfl⟩ := decodeOperands_ok h
  · have hreg : ∀ hi lo : Bool, ∀ rm : BitVec 3,
        regPart (BitVec.ofBool hi ++ BitVec.ofBool lo ++ rm) = ⟨hi, lo, 3#2, rm, []⟩ := by decide
    have hpart : regPart (evexSrcReg e) = ⟨evexX e, evexB e, evexMod e, evexRm e, []⟩ := hmod ▸ hreg _ _ _
    cases hb : evexBit e with
    | true => exact ⟨⟨imm, rfl⟩, rfl, rfl, hpart, rest, rfl⟩
    | false =>
      have hll3 : evexLL e ≠ 3#2 := fun h3 => by simpa [hb] using (evexSae_iff.1 (hll h3)).1
      simp [llOf_plainForm hll3, Source.bit, tailOf, Source.part, hpart, evexOperands]
  · have hll3 : evexLL e ≠ 3#2 := fun h3 => hmod (evexSae_iff.1 (hll h3)).2
    obtain ⟨-, hpart, hbs⟩ := takeMem_part_bytes hmod htake
    have hsrc : (if evexBit e then Source.bcst a else .full a).part = a.part := by split <;> rfl
    have hbit : (if evexBit e then Source.bcst a else .full a).bit = evexBit e := by
      cases evexBit e <;> rfl
    refine ⟨⟨imm, by simp⟩, llOf_plainForm hll3 _ _, by simp [hbit], by simpa [hsrc] using hpart, rest, ?_⟩
    simp [tailOf, hsrc, hbs, evexOperands]

/-! ## The #UD patterns and the fixed bits (R41, R51 to R53) -/

/-- The patterns of R51 and R52 are the ways in which the fixed bits of an encoding can be wrong. -/
theorem udCause_eq_none_iff {m : Mode} {forbidden : Bool} {e : Evex} : udCause m forbidden e = none ↔
    forbidden = false ∧ e.p0.getLsbD 3 = false ∧ e.p1.getLsbD 2 = true ∧ evexPp e = 0#2 ∧
    e.p1.getLsbD 7 = false ∧ e.p1.extractLsb' 3 4 = 15#4 ∧ (m = .mode64 → e.p2.getLsbD 3 = true) ∧
    (evexLL e = 3#2 → evexSae e = true) ∧ (evexZ e = true → evexAaa e ≠ 0#3) := by
  have hcheck : ∀ (c : Bool) (u : UdCause) (r : Option UdCause),
      (if c = true then some u else r) = none ↔ c = false ∧ r = none := by
    intro c u r
    cases c <;> simp
  simp only [udCause, hcheck, Bool.and_eq_false_imp, Bool.not_eq_false', bne_eq_false_iff_eq, beq_iff_eq,
    beq_eq_false_iff_ne, and_true]

/-- The fixed bits of `P1`, none of which is free (R41). -/
theorem p1_fixed_iff : ∀ p1 : Byte, (p1.getLsbD 2 = true ∧ p1.extractLsb' 0 2 = 0#2 ∧ p1.getLsbD 7 = false ∧
    p1.extractLsb' 3 4 = 15#4) ↔ p1 = 0x7C#8 := by
  decide

/-- Bytes that decode are accepted legacy bytes, and an EVEX encoding of map 0F3A with opcode 56H that decodes. -/
theorem decode_bytes {m : Mode} {bs : List Byte} {i : Instr} (h : decode m bs = .ok i) :
    ∃ legacy e rest, bs.take 15 = legacy.map LegacyByte.code ++ bodyBytes e rest ∧ e.p0.extractLsb' 0 3 = 3#3 ∧
      (m = .mode64 ∨ e.p0.extractLsb' 6 2 = 3#2) ∧ decodeEvex m legacy false e rest = .ok i := by
  obtain ⟨p0, p1, p2, modrm, rest, hbody, hmap, hbound, hevex⟩ := decodeBody_ok (decode_ok h)
  have hforb := (udCause_eq_none_iff.1 (decodeEvex_ok hevex).2.1).1
  refine ⟨_, ⟨p0, p1, p2, modrm⟩, rest, hbody ▸ splitLegacy_bytes hforb, hmap, by tauto, hforb ▸ hevex⟩

theorem p0Byte_of_fields : ∀ p0 : Byte, p0.getLsbD 3 = false → p0.extractLsb' 0 3 = 3#3 → ∀ reg : BitVec 3,
    p0Byte (BitVec.ofBool (!p0.getLsbD 4) ++ BitVec.ofBool (!p0.getLsbD 7) ++ reg) (!p0.getLsbD 6) (!p0.getLsbD 5) =
      p0 := by
  decide

theorem p2Byte_of_fields : ∀ p2 : Byte, p2.getLsbD 3 = true →
    p2Byte (p2.getLsbD 7) (p2.extractLsb' 5 2) (p2.getLsbD 4) (p2.extractLsb' 0 3) = p2 := by
  decide

theorem vectorNumber_low (hi lo : Bool) (reg : BitVec 3) :
    (BitVec.ofBool hi ++ BitVec.ofBool lo ++ reg).extractLsb' 0 3 = reg := by
  revert hi lo reg; decide

/-- EVEX bytes with good fixed bits are the encoding of an instruction that has their fields (R40, R41). -/
theorem evexOf_eq {i : Instr} {e : Evex} {legacy : List LegacyByte} {imm : Byte} {tail : List Byte}
    (ho : (shapeOf i).o = evexOperands legacy e imm) (hll : llOf i = evexLL e) (hbit : bitOf i = evexBit e)
    (hpart : (shapeOf i).src.part = ⟨evexX e, evexB e, evexMod e, evexRm e, tail⟩)
    (h3 : e.p0.getLsbD 3 = false) (hmap : e.p0.extractLsb' 0 3 = 3#3) (hp1 : e.p1 = 0x7C#8)
    (hv : e.p2.getLsbD 3 = true) : evexOf i = e := by
  have hp0 : p0Byte (evexDst e) (evexX e) (evexB e) = e.p0 := p0Byte_of_fields _ h3 hmap _
  have hp2 : p2Byte (evexZ e) (evexLL e) (evexBit e) (evexAaa e) = e.p2 := p2Byte_of_fields _ hv
  have hreg : (evexDst e).extractLsb' 0 3 = evexReg e := vectorNumber_low _ _ _
  have hmodrm : modrmByte (evexMod e) (evexReg e) (evexRm e) = e.modrm := sibByte_of_fields _
  rw [evexOf, evexOfParts, ho, hll, hbit, hpart]
  simp only [evexOperands, hreg, hp0, hp2, hmodrm, ← hp1]

/-! ## Well-formedness of what decodes (R48, R53) -/

/-- Outside 64-bit mode a vector register number has no extension bit. -/
theorem regIn_of_bits {m : Mode} {hi lo : Bool} (h : m = .mode64 ∨ (hi = false ∧ lo = false)) (reg : BitVec 3) :
    regIn m (BitVec.ofBool hi ++ BitVec.ofBool lo ++ reg) = true := by
  rcases h with rfl | ⟨rfl, rfl⟩
  · rfl
  · have hzero : ∀ reg : BitVec 3,
        (BitVec.ofBool false ++ BitVec.ofBool false ++ reg).extractLsb' 3 2 = 0#2 := by decide
    simp only [regIn, hzero, beq_self_eq_true, Bool.or_true]

theorem low_iff_part {a : Mem} : a.low = true ↔ a.part.x = false ∧ a.part.b = false := by
  cases a <;> simp [Mem.low, Mem.part, -BitVec.getLsbD_eq_getElem, and_comm]

/-- The source of a decoded instruction is well-formed where X and B are stored as 1 outside 64-bit mode. -/
theorem wfIn_of_decodeOperands {m : Mode} {legacy : List LegacyByte} {e : Evex} {bs : List Byte} {i : Instr}
    (h : decodeOperands m legacy e bs = .ok i) (hext : m = .mode64 ∨ (evexX e = false ∧ evexB e = false)) :
    (shapeOf i).src.wfIn m legacy = true := by
  obtain ⟨-, imm, rest, rfl, rfl⟩ | ⟨hmod, hsize, a, imm, rest, htake, rfl⟩ := decodeOperands_ok h
  · have hreg : regIn m (evexSrcReg e) = true := regIn_of_bits hext _
    split
    · exact hreg
    · rw [shapeOf_plainForm_src]
      exact hreg
  · obtain ⟨hwf, hpart, -⟩ := takeMem_part_bytes hmod htake
    have hlow : a.low = true ↔ evexX e = false ∧ evexB e = false := by rw [low_iff_part, hpart]
    have ha : a.wfIn m legacy = true := Mem.wfIn_iff.2 ⟨hwf, hext.imp_right hlow.2, hsize⟩
    rw [shapeOf_plainForm_src]
    split <;> exact ha

/-- Outside 64-bit mode, EVEX bytes that are no BOUND and not refused store R, X, B, R' and V' as 1 (R53). -/
theorem extension_bits_outside64 {m : Mode} {e : Evex} (hhigh : m = .mode64 ∨ e.p0.extractLsb' 6 2 = 3#2)
    (hext : ¬(m ≠ .mode64 ∧ (evexB e || evexR' e || !e.p2.getLsbD 3) = true)) :
    m = .mode64 ∨ (evexR' e = false ∧ evexR e = false ∧ evexX e = false ∧ evexB e = false ∧
      e.p2.getLsbD 3 = true) := by
  have hbits : ∀ p0 : Byte, p0.extractLsb' 6 2 = 3#2 → p0.getLsbD 7 = true ∧ p0.getLsbD 6 = true := by decide
  refine or_iff_not_imp_left.2 fun hm => ?_
  obtain ⟨h7, h6⟩ := hbits _ (hhigh.resolve_left hm)
  obtain ⟨⟨hb, hr⟩, hv⟩ : (evexB e = false ∧ evexR' e = false) ∧ e.p2.getLsbD 3 = true := by
    simpa [hm, -BitVec.getLsbD_eq_getElem] using hext
  exact ⟨hr, by simp only [evexR, h7, Bool.not_true], by simp only [evexX, h6, Bool.not_true], hb, hv⟩

/-- Settles O4: every field of the bytes is kept, and the fixed bits are those of an encoding. -/
theorem encodeOfDecode : Obligations.EncodeOfDecode := by
  intro m bs i h
  obtain ⟨legacy, e, rest, hbytes, hmap, hhigh, hevex⟩ := decode_bytes h
  obtain ⟨-, hud, hext, hop⟩ := decodeEvex_ok hevex
  obtain ⟨-, h3, h2, hpp, hw, hvvvv, hv64, hll3, hz⟩ := udCause_eq_none_iff.1 hud
  obtain ⟨⟨imm, ho⟩, hll, hbit, hpart, tail, htail⟩ := decodeOperands_fields hop hll3
  have hbits := extension_bits_outside64 hhigh hext
  have hp1 : e.p1 = 0x7C#8 := (p1_fixed_iff _).1 ⟨h2, hpp, hw, hvvvv⟩
  have hv : e.p2.getLsbD 3 = true := hbits.elim hv64 fun h => h.2.2.2.2
  have hlen : i.length ≤ 15 := length_le_fifteen_of_decode h
  constructor
  · have hdst : regIn m (evexDst e) = true := regIn_of_bits (hbits.imp_right fun h => ⟨h.1, h.2.1⟩) _
    have hzero : (!evexZ e || evexAaa e != 0#3) = true := by
      cases hze : evexZ e with
      | false => rfl
      | true => simpa [hze] using hz
    have hsrc := wfIn_of_decodeOperands hop (hbits.imp_right fun h => ⟨h.2.2.1, h.2.2.2.1⟩)
    rw [wf_iff_shape, ho]
    exact ⟨Bool.and_eq_true_iff.2 ⟨hdst, hzero⟩, hsrc, hlen⟩
  · have hevexOf := evexOf_eq ho hll hbit hpart h3 hmap hp1 hv
    have henc : bs.take 15 = encode i ++ tail := by
      rw [hbytes, htail, encode_eq, hevexOf, ho, List.append_assoc]
      rfl
    calc bs.take i.length = (bs.take 15).take i.length := by rw [List.take_take, Nat.min_eq_left hlen]
      _ = encode i := by rw [henc, ← encode_length, List.take_left]

end Sys2Proof.Machine
end

section
/-! PROOFS. Bytes that decode to no instruction: the illegal patterns, the forbidden legacy bytes, the extension bits
outside 64-bit mode and the length (30_encoding.md R39, R51 to R53); the legacy bytes of a register form (R52); the
fields of `imm8` and `aaa` (R45, R47). -/

namespace Sys2Proof.Machine

/-! ## Bytes that are #UD (R51, R52) -/

theorem step_of_udCause {s : State} {ls : List Byte} (hls : ∀ b ∈ ls, AcceptedLegacy b ∨ ForbiddenLegacy b) {e : Evex}
    {rest : List Byte} (hw : fetchWindow s = ls ++ bodyBytes e rest)
    (hm : modeOf s = .mode64 ∨ e.p0.extractLsb' 6 2 = 3#2) (hmap : e.p0.extractLsb' 0 3 = 3#3) (hpp : evexPp e ≠ 1#2)
    (hud : udCause (modeOf s) (ls.any forbiddenLegacy) e ≠ none) : step s = .fault (.ud s.rip s.mxcsr) := by
  obtain ⟨c, hc⟩ := Option.ne_none_iff_exists'.1 hud
  refine step_of_decodeBody_error hls hw not_acceptedLegacy_62 not_forbiddenLegacy_62 (e := .invalidOpcode c) ?_
    (by simp)
  rw [decodeBody_evex hm, if_neg (by simp [hmap]), decodeEvex, if_neg hpp, hc]

/-- Settles O7: each pattern makes one of the fixed bits wrong. -/
theorem illegalPatternsAreInvalidOpcode : Obligations.IllegalPatternsAreInvalidOpcode := by
  intro s ls p0 p1 p2 modrm rest hls hw hm hmap hpp hbad
  refine step_of_udCause (e := ⟨p0, p1, p2, modrm⟩) (fun b hb => .inl (hls b hb)) hw hm hmap hpp fun hnone => ?_
  obtain ⟨-, h3, h2, hpp0, hw7, hvvvv, hv64, hll, hz⟩ := udCause_eq_none_iff.1 hnone
  rcases hbad with h | h | h | h | h | ⟨hm64, h⟩ | ⟨h, hsae⟩ | ⟨h, haaa⟩
  · exact absurd (h3.symm.trans h) (by decide)
  · exact absurd (h2.symm.trans h) (by decide)
  · exact h hpp0
  · exact absurd (hw7.symm.trans h) (by decide)
  · exact h hvvvv
  · exact absurd ((hv64 hm64).symm.trans h) (by decide)
  · exact hsae (evexSae_iff.1 (hll h))
  · exact hz h haaa

/-- Settles O8: the encoding behind the bytes has good fields, and the forbidden byte makes them #UD. -/
theorem forbiddenLegacyByteIsInvalidOpcode : Obligations.ForbiddenLegacyByteIsInvalidOpcode := by
  intro s bs i rest hwf hbs ⟨b, hb, hforb⟩ hw
  have hdec := decode_encode_append hwf []
  obtain ⟨legacy, e, tail, hbytes, hmap, hhigh, hevex⟩ := decode_bytes hdec
  rw [List.append_nil, List.take_of_length_le (encode_length i ▸ length_le_fifteen_of_wf hwf)] at hbytes
  have hls : ∀ x ∈ bs ++ legacy.map LegacyByte.code, AcceptedLegacy x ∨ ForbiddenLegacy x := by
    intro x hx
    rcases List.mem_append.1 hx with hx | hx
    · exact hbs x hx
    · obtain ⟨c, -, rfl⟩ := List.mem_map.1 hx
      exact .inl (acceptedLegacy_code c)
  have hany : (bs ++ legacy.map LegacyByte.code).any forbiddenLegacy = true :=
    List.any_eq_true.2 ⟨b, List.mem_append_left _ hb, forbiddenLegacy_iff.2 hforb⟩
  refine step_of_udCause (rest := tail ++ rest) hls (by rw [hw, hbytes]; simp) hhigh hmap (decodeEvex_ok hevex).1
    fun hnone => ?_
  exact absurd (hany.symm.trans (udCause_eq_none_iff.1 hnone).1) (by decide)

/-! ## Extension bits outside 64-bit mode (R53) -/

theorem step_of_bound {s : State} (hm : modeOf s ≠ .mode64) {ls : List Byte}
    (hls : ∀ b ∈ ls, AcceptedLegacy b ∨ ForbiddenLegacy b) {p0 : Byte} {rest : List Byte}
    (hw : fetchWindow s = ls ++ 0x62#8 :: p0 :: rest) (hp0 : p0.extractLsb' 6 2 ≠ 3#2) :
    step s = .refused .otherInstruction :=
  step_of_decodeBody_error hls hw not_acceptedLegacy_62 not_forbiddenLegacy_62 (e := .bound)
    (by simp [decodeBody, hm, hp0]) (by simp)

theorem evexNarrow_eq_narrowEncoding (e : Evex) : evexNarrow e = narrowEncoding e.p2 e.modrm :=
  Bool.and_comm _ _

theorem decodeEvex_extended {m : Mode} {legacy : List LegacyByte} {e : Evex} (bs : List Byte) (hm : m ≠ .mode64)
    (hpp : evexPp e ≠ 1#2) (hud : udCause m false e = none)
    (hext : evexB e = true ∨ evexR' e = true ∨ e.p2.getLsbD 3 = false) :
    decodeEvex m legacy false e bs = .error (.extendedOutside64 (evexNarrow e)) := by
  have hbit : (evexB e || evexR' e || !e.p2.getLsbD 3) = true := by
    rcases hext with h | h | h <;> rw [h] <;> simp
  simp only [decodeEvex, if_neg hpp, hud, if_pos (And.intro hm hbit)]

theorem decodeStop_extended_of_noPlatformUd {narrow : Bool} {s : State} (h : NoPlatformUd narrow s) :
    decodeStop (.extendedOutside64 narrow) s = .refused .extendedOutside64 := by
  simp [decodeStop, platformUd_eq_false.2 h]

theorem decodeStop_extended_of_not_noPlatformUd {narrow : Bool} {s : State} (h : ¬NoPlatformUd narrow s) :
    decodeStop (.extendedOutside64 narrow) s = .fault (.ud s.rip s.mxcsr) := by
  rw [← platformUd_eq_false, Bool.not_eq_false] at h
  simp [decodeStop, h, raise]

/-- Settles O11: BOUND is told by `P0`, and the other fields of the encoding are good. -/
theorem extensionBitsOutsideSixtyFourBitMode : Obligations.ExtensionBitsOutsideSixtyFourBitMode := by
  refine ⟨fun s ls p0 rest hm hls hw hp0 => step_of_bound hm hls hw hp0, ?_⟩
  intro s ls p0 p2 modrm rest hm hls hw hhigh hlow hll hz hext
  have hp0 : ∀ p0 : Byte, p0.extractLsb' 0 4 = 3#4 → p0.extractLsb' 0 3 = 3#3 ∧ p0.getLsbD 3 = false := by decide
  obtain ⟨hmap, h3⟩ := hp0 p0 hlow
  obtain ⟨h2, hpp, hw7, hvvvv⟩ := (p1_fixed_iff _).2 rfl
  have hud : udCause (modeOf s) false ⟨p0, 0x7C#8, p2, modrm⟩ = none := by
    refine udCause_eq_none_iff.2 ⟨rfl, h3, h2, hpp, hw7, hvvvv, fun h => absurd h hm, fun h =>
      evexSae_iff.2 (hll.resolve_left (not_not.2 h)), fun h => hz.resolve_left ?_⟩
    exact Bool.not_eq_false _ ▸ h
  have hext' : evexB ⟨p0, 0x7C#8, p2, modrm⟩ = true ∨ evexR' ⟨p0, 0x7C#8, p2, modrm⟩ = true ∨
      p2.getLsbD 3 = false := by
    simpa [evexB, evexR', -BitVec.getLsbD_eq_getElem] using hext
  have hstep : step s = decodeStop (.extendedOutside64 (narrowEncoding p2 modrm)) s := by
    refine step_of_decodeBody_error (fun b hb => .inl (hls b hb)) hw not_acceptedLegacy_62 not_forbiddenLegacy_62 ?_
      (by simp)
    rw [decodeBody_evex (.inr hhigh), if_neg (by simp [hmap]), not_any_forbiddenLegacy hls,
      decodeEvex_extended (e := ⟨p0, 0x7C#8, p2, modrm⟩) rest hm (by simp [evexPp]) hud hext',
      evexNarrow_eq_narrowEncoding]
  rw [hstep]
  exact ⟨decodeStop_extended_of_noPlatformUd, decodeStop_extended_of_not_noPlatformUd⟩

/-! ## Instructions over 15 bytes (R39) -/

/-- Bytes that follow a memory operand do not change it. -/
theorem takeMem_append {e : Evex} (hmod : evexMod e ≠ 3#2) {bs rest : List Byte} {a : Mem}
    (h : takeMem e bs = some (a, rest)) (t : List Byte) : takeMem e (bs ++ t) = some (a, rest ++ t) := by
  obtain ⟨hwf, hpart, rfl⟩ := takeMem_part_bytes hmod h
  have hsame : takeMem e = takeMem (evexOfParts (evexOperands [] e 0#8) a.part 0#2 false) := by
    funext bs
    simp only [takeMem, evexMod_evexOfParts, evexRm_evexOfParts, evexX_evexOfParts, evexB_evexOfParts]
    rw [hpart]
  rw [hsame, List.append_assoc, takeMem_part hwf]

/-- Bytes that follow do not change an outcome that did not ask for more. -/
theorem decodeOperands_append {m : Mode} {legacy : List LegacyByte} {e : Evex} {bs : List Byte}
    (h : decodeOperands m legacy e bs ≠ .error .truncated) (t : List Byte) :
    decodeOperands m legacy e (bs ++ t) = decodeOperands m legacy e bs := by
  unfold decodeOperands at h ⊢
  by_cases hmod : evexMod e = 3#2
  · simp only [if_pos hmod] at h ⊢
    cases bs with
    | nil => exact absurd rfl h
    | cons b bs => rfl
  · simp only [if_neg hmod] at h ⊢
    by_cases hsize : addrSizeOf m legacy = .a16
    · simp only [if_pos hsize]
    · simp only [if_neg hsize] at h ⊢
      split at h
      · rename_i a imm rest htake
        simp only [takeMem_append hmod htake, List.cons_append]
      · exact absurd rfl h

/-- The encoding of good fields is not BOUND (R53). -/
theorem p0_high_evexOf {m : Mode} {i : Instr} (ho : (shapeOf i).o.wf m = true)
    (hsrc : (shapeOf i).src.wfIn m (shapeOf i).o.legacy = true) :
    m = .mode64 ∨ (evexOf i).p0.extractLsb' 6 2 = 3#2 := by
  refine or_iff_not_imp_left.2 fun hm => ?_
  have hreg : regIn m (shapeOf i).o.dst = true := (Bool.and_eq_true_iff.1 ho).1
  rw [evexOf, evexOfParts, (Source.part_low hm hsrc).1]
  exact p0Byte_high_of_low _ _ (regIn_of_ne_mode64 hm hreg).1

/-- An encoding with good fields, cut anywhere after ModRM or not at all, is its operand bytes (R51, R53). -/
theorem decodeBody_evexOf {m : Mode} {i : Instr} (ho : (shapeOf i).o.wf m = true)
    (hsrc : (shapeOf i).src.wfIn m (shapeOf i).o.legacy = true) (bs : List Byte) :
    decodeBody m (shapeOf i).o.legacy false (bodyBytes (evexOf i) bs) =
      decodeOperands m (shapeOf i).o.legacy (evexOf i) bs := by
  obtain ⟨hreg, hz⟩ : regIn m (shapeOf i).o.dst = true ∧
      ((shapeOf i).o.zeroing = false ∨ (shapeOf i).o.mask ≠ 0#3) := by
    simpa [Operands.wf] using ho
  have hv : (evexOf i).p2.getLsbD 3 = true := p2Byte_bit3 _ _ _ _
  have hud : udCause m false (evexOf i) = none :=
    udCause_eq_none (p0Byte_bit3 _ _ _) rfl hv ((llOf_ne_three_or_sae i).imp_left (by simp [evexOf]))
      (by simpa [evexOf] using hz)
  have hext : m = .mode64 ∨ (evexB (evexOf i) = false ∧ evexR' (evexOf i) = false ∧
      (evexOf i).p2.getLsbD 3 = true) := by
    refine or_iff_not_imp_left.2 fun hm => ⟨?_, ?_, hv⟩
    · rw [evexOf, evexB_evexOfParts, (Source.part_low hm hsrc).2]
    · rw [evexOf, evexR'_evexOfParts, (regIn_of_ne_mode64 hm hreg).2]
  rw [decodeBody_evex (p0_high_evexOf ho hsrc), if_neg (by simp [evexOf, evexOfParts, p0Byte_map])]
  exact decodeEvex_eq_decodeOperands _ _ rfl hud hext

/-- The instruction with other legacy bytes before it. -/
def withLegacy (ls : List LegacyByte) : Instr → Instr
  | .vreducephXmm o src => .vreducephXmm { o with legacy := ls } src
  | .vreducephYmm o src => .vreducephYmm { o with legacy := ls } src
  | .vreducephZmm o src => .vreducephZmm { o with legacy := ls } src
  | .vreducephZmmSae o n ll => .vreducephZmmSae { o with legacy := ls } n ll

theorem shapeOf_withLegacy (ls : List LegacyByte) (i : Instr) :
    shapeOf (withLegacy ls i) = { shapeOf i with o := { (shapeOf i).o with legacy := ls } } := by
  cases i <;> rfl

theorem encode_withLegacy (ls : List LegacyByte) {i : Instr} (h : (shapeOf i).o.legacy = []) :
    encode (withLegacy ls i) = ls.map LegacyByte.code ++ encode i := by
  rw [encode_eq, encode_eq i, h, shapeOf_withLegacy]
  cases i <;> rfl

theorem length_eq_tailOf (i : Instr) : (shapeOf i).o.legacy.length + 6 + (tailOf i).length = i.length := by
  rw [← encode_length, encode_eq]
  simp only [List.length_append, List.length_map, List.length_cons]
  omega

theorem splitLegacy_map_code (ls : List LegacyByte) (bs : List Byte) :
    splitLegacy (ls.map LegacyByte.code ++ bs) =
      (ls ++ (splitLegacy bs).1, (splitLegacy bs).2.1, (splitLegacy bs).2.2) := by
  induction ls with
  | nil => rfl
  | cons p ls ih => simp [splitLegacy, ih]

theorem splitLegacy_62 (bs : List Byte) : splitLegacy (0x62#8 :: bs) = ([], false, 0x62#8 :: bs) :=
  splitLegacy_append (ls := []) (fun _ h => nomatch h) not_acceptedLegacy_62 not_forbiddenLegacy_62 bs

/-- The bytes of an encoding from 62H on, cut before their end, ask for more. -/
theorem decodeBody_cut {m : Mode} {i : Instr} (ho : (shapeOf i).o.wf m = true)
    (hsrc : (shapeOf i).src.wfIn m (shapeOf i).o.legacy = true) {n : Nat} (hn : n < 6 + (tailOf i).length) :
    decodeBody m (shapeOf i).o.legacy false ((bodyBytes (evexOf i) (tailOf i)).take n) = .error .truncated := by
  by_cases hsix : n < 6
  · have hbound : ¬(m ≠ .mode64 ∧ (evexOf i).p0.extractLsb' 6 2 ≠ 3#2) := by
      have := p0_high_evexOf ho hsrc
      tauto
    interval_cases n <;> simp [decodeBody, hbound]
  · obtain ⟨k, rfl⟩ : ∃ k, n = k + 6 := ⟨n - 6, by omega⟩
    simp only [List.take_succ_cons, decodeBody_evexOf ho hsrc]
    by_contra hne
    have hfull := decodeOperands_append hne ((tailOf i).drop k)
    rw [List.take_append_drop, decodeOperands_evexOf hsrc] at hfull
    have hle := length_le_of_decodeOperands hfull.symm
    rw [List.length_take, Nat.min_eq_left (by omega)] at hle
    have hlen := length_eq_tailOf i
    omega

/-- An instruction with good fields and over 15 bytes is too long. -/
theorem decode_tooLong {m : Mode} {i : Instr} (ho : (shapeOf i).o.wf m = true)
    (hsrc : (shapeOf i).src.wfIn m (shapeOf i).o.legacy = true) (hlen : 15 < i.length) :
    decode m ((encode i).take 15) = .error .tooLong := by
  have hbytes := length_eq_tailOf i
  have hcut : decodeBody m (splitLegacy ((encode i).take 15)).1 (splitLegacy ((encode i).take 15)).2.1
      (splitLegacy ((encode i).take 15)).2.2 = .error .truncated := by
    rw [encode_eq, List.take_append, ← List.map_take, List.length_map, splitLegacy_map_code]
    by_cases hfit : (shapeOf i).o.legacy.length < 15
    · obtain ⟨k, hk⟩ : ∃ k, 15 - (shapeOf i).o.legacy.length = k + 1 := ⟨14 - (shapeOf i).o.legacy.length, by omega⟩
      rw [hk, List.take_succ_cons, splitLegacy_62, List.append_nil, List.take_of_length_le hfit.le, ← List.take_succ_cons]
      exact decodeBody_cut ho hsrc (by omega)
    · rw [Nat.sub_eq_zero_of_le (not_lt.1 hfit)]
      rfl
  have htake : 15 ≤ ((encode i).take 15).length := by rw [List.length_take, encode_length]; omega
  rw [decode, Config.maxLength, List.take_take, Nat.min_self]
  simp only [hcut, if_pos htake]

/-- Settles O10: the window is the first 15 bytes of the instruction with its legacy bytes. -/
theorem overlongInstructionIsGeneralProtection : Obligations.OverlongInstructionIsGeneralProtection := by
  intro s ls i hnil ho hsrc hlen hw
  have hj := shapeOf_withLegacy ls i
  rw [← encode_withLegacy ls hnil] at hw
  have hjlen : (withLegacy ls i).length = ls.length + i.length := by
    rw [← encode_length, encode_withLegacy ls hnil, List.length_append, List.length_map, encode_length]
  exact step_of_decode_error (e := .tooLong)
    (hw ▸ decode_tooLong (by rw [hj]; exact ho) (by rw [hj]; exact hsrc) (hjlen ▸ hlen))

/-! ## Legacy bytes and a register source (R52) -/

/-- Settles O33: nothing that a register form computes looks at its legacy bytes but the length. -/
theorem legacyBytesDoNotChangeARegisterForm : Obligations.LegacyBytesDoNotChangeARegisterForm := by
  intro i s t n ls hsrc hexec
  obtain ⟨hen, -, hmx, rfl⟩ := reducePacked_next (exec_eq i s ▸ hexec)
  have hlen : (withLegacy ls i).length = ls.length + 7 := by
    rw [length_eq_plainLength, shapeOf_withLegacy, plainLength, hsrc]
    rfl
  suffices h : ∃ u, exec (withLegacy ls i) s = .next u ∧
      u.zmm = (reduceDone s (shapeOf i).vl (shapeOf i).sae (shapeOf i).o (shapeOf i).src i.length).zmm ∧
      u.mxcsr = (reduceDone s (shapeOf i).vl (shapeOf i).sae (shapeOf i).o (shapeOf i).src i.length).mxcsr ∧
      RipAdvanced s u (ls.length + 7) by
    cases i <;> exact h
  rw [exec_eq, hlen, shapeOf_withLegacy]
  rw [hsrc] at hmx ⊢
  exact ⟨_, reducePacked_eq_next hen trivial hmx, rfl, rfl, ripAdvanced_reduceDone _ _ _ _ _ _⟩

/-! ## The fields of `imm8` and of `aaa` (R45, R47, R56) -/

/-- Settles O6. -/
theorem wordsOfTheSpecDecode : Obligations.WordsOfTheSpecDecode :=
  ⟨by decide, by decide, by decide, by decide⟩

/-- Settles O43: a bit and a field of a word by division and remainder. -/
theorem roundingModeSelection : Obligations.RoundingModeSelection := by
  intro imm m
  have hbit : ∀ j, imm.getLsbD j = true ↔ imm.toNat / 2 ^ j % 2 = 1 := fun j => by
    rw [BitVec.getLsbD, Nat.testBit_eq_decide_div_mod_eq, decide_eq_true_eq]
  have hrc : mxRC m = BitVec.ofNat 2 (m.toNat / 2 ^ 13) := by
    rw [mxRC, BitVec.extractLsb', Nat.shiftRight_eq_div_pow]
  refine ⟨?_, hbit 3, ?_⟩
  · rw [immM, BitVec.extractLsb'_toNat, Nat.shiftRight_eq_div_pow, Nat.mod_eq_of_lt (by omega)]
  · rw [effectiveRounding, hrc, apply_ite roundingOf]
    simp only [hbit 2]
    rfl

/-- Settles O53. -/
theorem writemaskSelection : Obligations.WritemaskSelection := by
  intro s o i
  constructor
  · intro h
    simp [elemActive, h]
  · intro h
    simp [elemActive, h, kRead]

end Sys2Proof.Machine
end

section
/-! PROOFS. What the four forms do when nothing stops them, their frame, the `{sae}` form beside the plain one, and the
unmasked exceptions (40_vreduceph.md R66 to R75; 60_exceptions.md R78). -/

namespace Sys2Proof.Machine

/-! ## What a completed form leaves (R66, R71, R75) -/

/-- The destination of a completed form, element by element. -/
theorem destinationIs_reduceDone (s : State) (vl : VecLen) (sae : Bool) (o : Operands) (src : Source) (len : Nat) :
    DestinationIs s (reduceDone s vl sae o src len) vl o src len := by
  have hlane : ∀ j < 32, lane (zmmRead (reduceDone s vl sae o src len) o.dst) j = elemResult s vl o src len j := by
    intro j hj
    rw [zmmRead_reduceDone_same, lane_resultLanes _ _ _ _ _ hj]
  have hKL := lenKL_le vl
  refine ⟨fun j hj ha => ?_, fun j hj ha hz => ?_, fun j hj ha hz => ?_, fun j hj hge => ?_⟩
  · rw [hlane j (by omega), elemResult, if_pos hj, if_pos ha, elemReduced]
  · rw [hlane j (by omega), elemResult, if_pos hj, if_neg (by simp [ha]), if_pos hz]
  · rw [hlane j (by omega), elemResult, if_pos hj, if_neg (by simp [ha]), if_neg (by simp [hz])]
  · rw [hlane j hj, elemResult, if_neg (by omega)]

/-- A plain form with no unmasked Invalid ORs its signals into MXCSR, and raises an exception for an unmasked
Precision. -/
theorem mxUpdate_of_invalid_masked {s : State} {vl : VecLen} {o : Operands} {src : Source} {len : Nat}
    (him : SignalsInvalid s vl o src len → mxIM s.mxcsr = true) :
    mxUpdate s vl false o src len =
      (mxSetFlags s.mxcsr (anyInvalid s vl o src len) (anyPrecision s vl o src len),
        anyPrecision s vl o src len && !mxPM s.mxcsr) := by
  rw [← anyInvalid_iff] at him
  rw [mxUpdate, simdUpdate, if_neg (by simp), if_neg (by simpa using him)]

theorem mxIE_mxSetFlags {m : BitVec 32} {ie pe : Bool} :
    mxIE (mxSetFlags m ie pe) = true ↔ mxIE m = true ∨ ie = true := by
  rw [mxIE, getLsbD_mxSetFlags]
  simp [mxIE]

theorem mxPE_mxSetFlags {m : BitVec 32} {ie pe : Bool} :
    mxPE (mxSetFlags m ie pe) = true ↔ mxPE m = true ∨ pe = true := by
  rw [mxPE, getLsbD_mxSetFlags]
  simp [mxPE]

/-- A completed plain form with no unmasked Invalid reports its signals in IE and PE alone. -/
theorem flagsReported_reduceDone {s : State} {vl : VecLen} {o : Operands} {src : Source} {len : Nat}
    (him : SignalsInvalid s vl o src len → mxIM s.mxcsr = true) :
    FlagsReported s (reduceDone s vl false o src len) vl o src len := by
  rw [FlagsReported, reduceDone_mxcsr, mxUpdate_of_invalid_masked him, mxIE_mxSetFlags, mxPE_mxSetFlags,
    anyInvalid_iff, anyPrecision_iff]
  exact ⟨Iff.rfl, Iff.rfl, fun j h0 h5 => by simp [getLsbD_mxSetFlags, h0, h5]⟩

/-! ## Completion of the four forms (R67 to R70) -/

/-- Enabled, with a readable source and no unmasked exception, a plain form completes with its whole effect. -/
theorem plain_form_completes {i : Instr} {s : State} (hplain : (shapeOf i).sae = false)
    (hen : Enabled (lenNarrow (shapeOf i).vl) s)
    (hread : SourceReadable s (shapeOf i).vl (shapeOf i).o i.length (shapeOf i).src)
    (hmasked : SignalsMasked s (shapeOf i).vl (shapeOf i).o (shapeOf i).src i.length) :
    ∃ t, exec i s = .next t ∧ CompletedAs s t (shapeOf i).vl (shapeOf i).o (shapeOf i).src i.length := by
  obtain ⟨him, hpm⟩ := hmasked
  have hquiet : (mxUpdate s (shapeOf i).vl false (shapeOf i).o (shapeOf i).src i.length).2 = false := by
    rw [← anyPrecision_iff] at hpm
    rw [mxUpdate_of_invalid_masked him]
    simpa using hpm
  rw [exec_eq, hplain]
  exact ⟨_, reducePacked_eq_next hen hread hquiet, destinationIs_reduceDone _ _ _ _ _ _, flagsReported_reduceDone him,
    ripAdvanced_reduceDone _ _ _ _ _ _, frameKept_reduceDone _ _ _ _ _ _⟩

/-- Settles O19. -/
theorem xmmFormCompletes : Obligations.XmmFormCompletes :=
  fun _ o src hen hread hmasked => plain_form_completes (i := .vreducephXmm o src) rfl hen hread hmasked

/-- Settles O20. -/
theorem ymmFormCompletes : Obligations.YmmFormCompletes :=
  fun _ o src hen hread hmasked => plain_form_completes (i := .vreducephYmm o src) rfl hen hread hmasked

/-- Settles O21. -/
theorem zmmFormCompletes : Obligations.ZmmFormCompletes :=
  fun _ o src hen hread hmasked => plain_form_completes (i := .vreducephZmm o src) rfl hen hread hmasked

/-- The `{sae}` form leaves MXCSR as it is and raises nothing (R70). -/
theorem mxUpdate_sae (s : State) (vl : VecLen) (o : Operands) (src : Source) (len : Nat) :
    mxUpdate s vl true o src len = (s.mxcsr, false) := rfl

/-- Enabled, the `{sae}` form completes: it reads a register and raises no exception. -/
theorem exec_sae {s : State} (o : Operands) (n : BitVec 5) (ll : BitVec 2) (hen : Enabled false s) :
    exec (.vreducephZmmSae o n ll) s = .next (reduceDone s .v512 true o (.reg n) (plainLength o (.reg n))) :=
  (exec_eq _ s).trans (reducePacked_eq_next hen trivial (congrArg Prod.snd (mxUpdate_sae s .v512 o (.reg n) _)))

/-- Settles O22: no premise on MXCSR is needed. -/
theorem saeFormCompletes : Obligations.SaeFormCompletes := fun _ o n ll hen =>
  ⟨_, exec_sae o n ll hen, destinationIs_reduceDone _ _ _ _ _ _, rfl, ripAdvanced_reduceDone _ _ _ _ _ _,
    frameKept_reduceDone _ _ _ _ _ _⟩

/-- Settles O23: a completed form leaves `reduceDone`, which keeps the frame. -/
theorem completedFormsKeepTheFrame : Obligations.CompletedFormsKeepTheFrame := by
  intro i s t hexec
  rw [exec_next hexec]
  exact frameKept_reduceDone _ _ _ _ _ _

/-- Settles O24: the destination and `rip` of `reduceDone` do not depend on `{sae}`. -/
theorem saeGivesThePlainResult : Obligations.SaeGivesThePlainResult := by
  intro s t o n ll hexec
  have hen : Enabled false s := (reducePacked_next (exec_eq _ s ▸ hexec)).1
  rw [exec_next hexec]
  exact ⟨_, exec_sae o n ll hen, rfl, rfl, rfl⟩

/-! ## Unmasked exceptions (R71, R78) -/

/-- An unmasked exception is #XM or #UD by OSXMMEXCPT and records the new MXCSR. -/
theorem exec_of_unmasked {i : Instr} {s : State} {m : BitVec 32} (hen : Enabled (lenNarrow (shapeOf i).vl) s)
    (hread : SourceReadable s (shapeOf i).vl (shapeOf i).o i.length (shapeOf i).src)
    (hmx : mxUpdate s (shapeOf i).vl (shapeOf i).sae (shapeOf i).o (shapeOf i).src i.length = (m, true)) :
    exec i s = .fault (if cr4OSXMMEXCPT s.ctl = true then .xm s.rip m else .ud s.rip m) := by
  rw [exec_eq, reducePacked, platformFault_eq_none.2 hen, sourceStop_eq_none.2 hread, hmx]
  simp only [if_true, raise, simdFault]
  split <;> rfl

/-- Settles O27: an unmasked Invalid comes first and sets IE alone. -/
theorem unmaskedInvalidFaults : Obligations.UnmaskedInvalidFaults := by
  intro i s hplain hen hread hinv him
  refine exec_of_unmasked hen hread ?_
  rw [mxUpdate, hplain, anyInvalid_iff.2 hinv, simdUpdate, him]
  simp [mxSetFlags]

/-- Settles O28: with no unmasked Invalid both signals are ORed in before the Precision faults. -/
theorem unmaskedPrecisionFaults : Obligations.UnmaskedPrecisionFaults := by
  intro i s hplain hen hread him hprec hpm
  have hmx := mxUpdate_of_invalid_masked him
  rw [← hplain, anyPrecision_iff.2 hprec, hpm] at hmx
  refine ⟨_, exec_of_unmasked hen hread hmx, mxPE_mxSetFlags.2 (.inr rfl), ?_, fun j h0 h5 => ?_⟩
  · rw [mxIE_mxSetFlags, anyInvalid_iff]
  · simp [getLsbD_mxSetFlags, h0, h5]

end Sys2Proof.Machine
end

section
/-! PROOFS. The element function: NaN, infinity, and the exact difference of a finite source with its rounding
(40_vreduceph.md R57 to R65). -/

namespace Sys2Proof.Machine

/-! ## FP16 patterns and their values (R10) -/

/-- A larger exponent is a larger magnitude. -/
theorem fpMagnitude_lt_of_fpExp_lt {h h' : Half} (he : fpExp h < fpExp h') : fpMagnitude h < fpMagnitude h' := by
  have hf := fpFraction_lt h
  have hpow : 2 ^ fpExp h ≤ 2 ^ (fpExp h' - 1) := Nat.pow_le_pow_right (by omega) (by omega)
  have hge : 1024 * 2 ^ fpExp h ≤ fpMagnitude h' := by
    rw [fpMagnitude, if_neg (by omega)]
    exact Nat.mul_le_mul (by omega) hpow
  refine lt_of_lt_of_le ?_ hge
  unfold fpMagnitude
  split
  · rename_i h0
    simpa [h0] using hf
  · have hsucc : 2 ^ fpExp h = 2 * 2 ^ (fpExp h - 1) := by
      rw [← pow_succ', Nat.sub_add_cancel (by omega)]
    have hpos : 0 < 2 ^ (fpExp h - 1) := by positivity
    rw [hsucc, ← Nat.mul_assoc]
    exact Nat.mul_lt_mul_of_pos_right (by omega) hpos

/-- A magnitude has one exponent and one fraction. -/
theorem fpExp_fpFraction_of_fpMagnitude_eq {h h' : Half} (hmag : fpMagnitude h = fpMagnitude h') :
    fpExp h = fpExp h' ∧ fpFraction h = fpFraction h' := by
  have hexp : fpExp h = fpExp h' := by
    rcases lt_trichotomy (fpExp h) (fpExp h') with hlt | heq | hgt
    · exact absurd hmag (fpMagnitude_lt_of_fpExp_lt hlt).ne
    · exact heq
    · exact absurd hmag (fpMagnitude_lt_of_fpExp_lt hgt).ne'
  refine ⟨hexp, ?_⟩
  rw [fpMagnitude, fpMagnitude, hexp] at hmag
  split at hmag
  · exact hmag
  · have := Nat.eq_of_mul_eq_mul_right (by positivity) hmag
    omega

/-- A pattern is its sign, exponent and fraction. -/
theorem toNat_eq_fields (h : Half) : h.toNat = (fpSign h).toNat * 2 ^ 15 + fpExp h * 2 ^ 10 + fpFraction h := by
  have hlt := h.isLt
  rw [fpSign, fpExp, fpFraction, BitVec.getLsbD, Nat.toNat_testBit, BitVec.extractLsb'_toNat, BitVec.extractLsb'_toNat,
    Nat.shiftRight_eq_div_pow, Nat.shiftRight_zero]
  omega

theorem fpSign_of_fpUnits_ne_zero {h : Half} (h0 : fpUnits h ≠ 0) : fpSign h = decide (fpUnits h < 0) := by
  obtain ⟨hs, hu⟩ | ⟨hs, hu⟩ := fpUnits_eq_or h
  · simp [hs, hu]
  · have hneg : fpUnits h < 0 := by omega
    simp [hs, hneg]

/-- A non-zero value has one pattern. -/
theorem eq_of_fpUnits_eq {h h' : Half} (hu : fpUnits h = fpUnits h') (h0 : fpUnits h' ≠ 0) : h = h' := by
  have hmag : fpMagnitude h = fpMagnitude h' := by rw [← natAbs_fpUnits, hu, natAbs_fpUnits]
  obtain ⟨hexp, hfrac⟩ := fpExp_fpFraction_of_fpMagnitude_eq hmag
  have hsign : fpSign h = fpSign h' := by
    rw [fpSign_of_fpUnits_ne_zero h0, fpSign_of_fpUnits_ne_zero (hu ▸ h0), hu]
  exact BitVec.eq_of_toNat_eq (by rw [toNat_eq_fields, toNat_eq_fields, hsign, hexp, hfrac])

theorem fpUnits_zeroResult (rm : Rounding) : fpUnits (zeroResult rm) = 0 := by
  cases rm <;> decide

theorem fpIsFinite_zeroResult (rm : Rounding) : fpIsFinite (zeroResult rm) = true := by
  cases rm <;> decide

/-! ## NaN and infinity (R58, R59) -/

theorem reduceFp16_of_nan {src : Half} (imm : BitVec 8) (rm : Rounding) (h : fpIsNaN src = true) :
    reduceFp16 src imm rm = ⟨src ||| 0x0200#16, fpIsSNaN src, false⟩ := by
  rw [reduceFp16, if_pos h]

theorem reduceFp16_of_inf {src : Half} (imm : BitVec 8) (rm : Rounding) (h : fpIsInf src = true) :
    reduceFp16 src imm rm = ⟨0x0000#16, false, false⟩ := by
  have hnan : ¬fpIsNaN src = true := by
    simp only [fpIsInf, fpIsNaN, Bool.and_eq_true, beq_iff_eq, bne_iff_ne] at *
    tauto
  rw [reduceFp16, if_neg hnan, if_pos h]

theorem reduceFp16_of_finite {src : Half} (imm : BitVec 8) (rm : Rounding) (h : fpIsFinite src = true) :
    reduceFp16 src imm rm = reduceFinite src imm rm := by
  have hexp : fpExp src ≠ 31 := by simpa [fpIsFinite] using h
  rw [reduceFp16, if_neg (by simp [fpIsNaN, hexp]), if_neg (by simp [fpIsInf, hexp])]

/-- Settles O45. -/
theorem nanSourceIsQuieted : Obligations.NanSourceIsQuieted := by
  intro src imm rm hexp hfrac
  have hnan : fpIsNaN src = true := by
    have hne : fpFraction src ≠ 0 := fun h => hfrac (BitVec.eq_of_toNat_eq h)
    simp [fpIsNaN, fpExp, hexp, hne]
  have hquiet : (0x0200#16 : Half) = BitVec.twoPow 16 9 := rfl
  rw [reduceFp16_of_nan imm rm hnan]
  refine ⟨fun j hj => ?_, by simp [fpIsSNaN, hnan], rfl⟩
  rw [BitVec.getLsbD_or, hquiet, BitVec.getLsbD_twoPow]
  simp [eq_comm]

/-- Settles O46. -/
theorem infiniteSourceGivesPlusZero : Obligations.InfiniteSourceGivesPlusZero := by
  intro src imm rm hsrc
  refine reduceFp16_of_inf imm rm ?_
  rcases hsrc with rfl | rfl <;> decide

/-! ## The difference `r = x - t * 2^-M` (R60) -/

theorem immM_lt (imm : BitVec 8) : immM imm < 16 := (imm.extractLsb' 4 4).isLt

theorem gridUnits_pos (m : Nat) : 0 < gridUnits m := Nat.two_pow_pos _

theorem gridUnits_le (m : Nat) : gridUnits m ≤ 2 ^ 24 := Nat.pow_le_pow_right (by omega) (by omega)

section Difference
variable (u : Int) (m : Nat) (rm : Rounding)

theorem natAbs_reducedUnits_lt : (reducedUnits u m rm).natAbs < gridUnits m := rint_error_lt u (gridUnits_pos m) rm

theorem natAbs_reducedUnits_le : (reducedUnits u m rm).natAbs ≤ 2 ^ 24 :=
  (natAbs_reducedUnits_lt u m rm).le.trans (gridUnits_le m)

/-- RD leaves a difference that is not negative: `t` is at or below `2^M x`. -/
theorem reducedUnits_rd_nonneg : 0 ≤ reducedUnits u m .rd := by
  have := (rint_rd_bounds u (gridUnits_pos m)).1
  unfold reducedUnits roundedMultiple
  omega

/-- RU leaves a difference that is not positive. -/
theorem reducedUnits_ru_nonpos : reducedUnits u m .ru ≤ 0 := by
  have := (rint_ru_bounds u (gridUnits_pos m)).2
  unfold reducedUnits roundedMultiple
  omega

theorem reducedUnits_rz_eq : reducedUnits u m .rz = if 0 ≤ u then reducedUnits u m .rd else reducedUnits u m .ru := by
  unfold reducedUnits roundedMultiple
  rw [rint_rz_eq]
  split <;> rfl

/-- RNE leaves a difference of at most half the spacing. -/
theorem two_mul_natAbs_reducedUnits_rne_le : 2 * (reducedUnits u m .rne).natAbs ≤ gridUnits m :=
  (rint_rne_spec u (gridUnits_pos m)).1

/-- The difference is the source less a multiple of the spacing. -/
theorem gridUnits_dvd_sub_reducedUnits : (gridUnits m : Int) ∣ u - reducedUnits u m rm :=
  ⟨roundedMultiple u m rm, by unfold reducedUnits; ring⟩

variable {u m rm}

/-- The difference is any value that is a multiple of the spacing off the source and less than the spacing off the
difference. -/
theorem reducedUnits_eq_of_close {c : Int} (hc : (gridUnits m : Int) ∣ u - c)
    (hclose : (c - reducedUnits u m rm).natAbs < gridUnits m) : reducedUnits u m rm = c := by
  have hdvd : (gridUnits m : Int) ∣ c - reducedUnits u m rm := by
    simpa using dvd_sub (gridUnits_dvd_sub_reducedUnits u m rm) hc
  have hzero := Int.eq_zero_of_dvd_of_natAbs_lt_natAbs hdvd hclose
  omega

/-- A multiple of `2^-M` leaves no difference. -/
theorem reducedUnits_eq_zero_of_dvd (h : (gridUnits m : Int) ∣ u) : reducedUnits u m rm = 0 :=
  reducedUnits_eq_of_close (by simpa using h) (by simpa using natAbs_reducedUnits_lt u m rm)

/-- RD of a source that is not negative leaves a difference between zero and the source. -/
theorem reducedUnits_rd_le (hu : 0 ≤ u) : reducedUnits u m .rd ≤ u := by
  have hmul : 0 ≤ rint u (gridUnits m) .rd * gridUnits m :=
    mul_nonneg (le_rint (gridUnits_pos m) .rd (by simpa using hu)) (by omega)
  unfold reducedUnits roundedMultiple
  omega

/-- RU of a source that is not positive leaves a difference between the source and zero. -/
theorem le_reducedUnits_ru (hu : u ≤ 0) : u ≤ reducedUnits u m .ru := by
  have hmul : rint u (gridUnits m) .ru * gridUnits m ≤ 0 :=
    mul_nonpos_of_nonpos_of_nonneg (rint_le (gridUnits_pos m) .ru (by simpa using hu)) (by omega)
  unfold reducedUnits roundedMultiple
  omega

/-- RZ leaves a difference between zero and the source. -/
theorem reducedUnits_rz_between : 0 ≤ reducedUnits u m .rz ∧ reducedUnits u m .rz ≤ u ∨
    u ≤ reducedUnits u m .rz ∧ reducedUnits u m .rz ≤ 0 := by
  rw [reducedUnits_rz_eq]
  split
  · exact .inl ⟨reducedUnits_rd_nonneg u m, reducedUnits_rd_le ‹_›⟩
  · exact .inr ⟨le_reducedUnits_ru (by omega), reducedUnits_ru_nonpos u m⟩

/-- The difference is no larger than the source, but under RU of a positive source and RD of a negative one (R63). -/
theorem natAbs_reducedUnits_le_natAbs (hru : rm = .ru → u ≤ 0) (hrd : rm = .rd → 0 ≤ u) :
    (reducedUnits u m rm).natAbs ≤ u.natAbs := by
  cases rm with
  | rne => simpa [reducedUnits, roundedMultiple] using (rint_rne_nearest u 0 (gridUnits_pos m)).1
  | rd =>
    have := reducedUnits_rd_nonneg u m
    have := reducedUnits_rd_le (m := m) (hrd rfl)
    omega
  | ru =>
    have := reducedUnits_ru_nonpos u m
    have := le_reducedUnits_ru (m := m) (hru rfl)
    omega
  | rz =>
    have := reducedUnits_rz_between (u := u) (m := m)
    omega

end Difference

/-! ## When the difference is an FP16 value (R63) -/

theorem spacingExp_le_of_lt {a n : Nat} (h : a < 2 ^ n) : spacingExp a ≤ n := by
  unfold spacingExp
  by_cases h0 : a = 0
  · simp [h0]
  · have := (Nat.log2_lt h0).2 h
    omega

/-- A multiple of its own spacing is rounded to itself. -/
theorem fpUnits_roundFp16_of_dvd {r : Int} (hr : r.natAbs ≤ 2 ^ 24) (rm : Rounding)
    (hdvd : 2 ^ spacingExp r.natAbs ∣ r.natAbs) : fpUnits (roundFp16 r rm).1 = r := by
  obtain ⟨c, hc⟩ := hdvd
  rw [Nat.mul_comm] at hc
  have hrounded : roundedSpacings r rm = c := le_antisymm (roundedSpacings_le rm hc.le) (le_roundedSpacings rm hc.ge)
  have hmag : fpMagnitude (roundFp16 r rm).1 = r.natAbs := by rw [fpMagnitude_roundFp16 hr, hrounded, ← hc]
  rw [fpUnits_roundFp16 hr, hmag]
  split <;> omega

/-- A difference no larger than its source is a multiple of its own spacing: the source is, and `2^-M` is. -/
theorem two_pow_spacingExp_dvd_reducedUnits {src : Half} {m : Nat} {rm : Rounding}
    (hle : (reducedUnits (fpUnits src) m rm).natAbs ≤ (fpUnits src).natAbs) :
    2 ^ spacingExp (reducedUnits (fpUnits src) m rm).natAbs ∣ (reducedUnits (fpUnits src) m rm).natAbs := by
  have hgrid := Nat.pow_dvd_pow 2 (spacingExp_le_of_lt (natAbs_reducedUnits_lt (fpUnits src) m rm))
  have hsub := gridUnits_dvd_sub_reducedUnits (fpUnits src) m rm
  generalize reducedUnits (fpUnits src) m rm = r at *
  have hsrc : 2 ^ spacingExp r.natAbs ∣ (fpUnits src).natAbs := by
    rw [natAbs_fpUnits] at hle ⊢
    obtain ⟨c, hc⟩ | ⟨hlt, hge⟩ := fpMagnitude_on_grid src r.natAbs
    · exact ⟨c, hc.trans (Nat.mul_comm _ _)⟩
    · omega
  have hdiff : ((2 ^ spacingExp r.natAbs : Nat) : Int) ∣ fpUnits src - r :=
    (Int.natCast_dvd_natCast.2 hgrid).trans hsub
  simpa using Int.natCast_dvd.1 ((Int.dvd_iff_dvd_of_dvd_sub hdiff).1 (Int.natCast_dvd.2 hsrc))

/-! ## A finite source (R60 to R63) -/

section Finite
variable {src : Half} (imm : BitVec 8) (rm : Rounding) (hfin : fpIsFinite src = true)
include hfin

/-- No difference is a zero, and signals nothing (R61). -/
theorem reduceFp16_of_reducedUnits_eq_zero (h : reducedUnits (fpUnits src) (immM imm) rm = 0) :
    reduceFp16 src imm rm = ⟨zeroResult rm, false, false⟩ := by
  rw [reduceFp16_of_finite imm rm hfin, reduceFinite]
  simp [h, precisionSignal, Config.pePolicy]

/-- A difference is rounded, and the rounding alone can signal Precision (R60, R62). -/
theorem reduceFp16_of_reducedUnits_ne_zero (h : reducedUnits (fpUnits src) (immM imm) rm ≠ 0) :
    reduceFp16 src imm rm = ⟨(roundFp16 (reducedUnits (fpUnits src) (immM imm) rm) rm).1, false,
      !immSpe imm && (roundFp16 (reducedUnits (fpUnits src) (immM imm) rm) rm).2⟩ := by
  rw [reduceFp16_of_finite imm rm hfin, reduceFinite]
  simp [h, precisionSignal, Config.pePolicy]

/-- A multiple of `2^-M` gives the zero of the mode. -/
theorem reduceFp16_of_gridUnits_dvd (h : (gridUnits (immM imm) : Int) ∣ fpUnits src) :
    reduceFp16 src imm rm = ⟨zeroResult rm, false, false⟩ :=
  reduceFp16_of_reducedUnits_eq_zero imm rm hfin (reducedUnits_eq_zero_of_dvd h)

theorem reduceFp16_ie_of_finite : (reduceFp16 src imm rm).ie = false := by
  rw [reduceFp16_of_finite imm rm hfin]
  rfl

/-- Precision is signalled when it is not suppressed and the result is not the difference itself. -/
theorem reduceFp16_pe_iff : (reduceFp16 src imm rm).pe = true ↔ immSpe imm = false ∧
    fpUnits (reduceFp16 src imm rm).value ≠ reducedUnits (fpUnits src) (immM imm) rm := by
  by_cases h : reducedUnits (fpUnits src) (immM imm) rm = 0
  · simp [reduceFp16_of_reducedUnits_eq_zero imm rm hfin h, h, fpUnits_zeroResult]
  · rw [reduceFp16_of_reducedUnits_ne_zero imm rm hfin h]
    simp only [Bool.and_eq_true, Bool.not_eq_true', roundFp16_inexact_iff (natAbs_reducedUnits_le _ _ _)]

theorem fpIsFinite_reduceFp16 : fpIsFinite (reduceFp16 src imm rm).value = true := by
  by_cases h : reducedUnits (fpUnits src) (immM imm) rm = 0
  · rw [reduceFp16_of_reducedUnits_eq_zero imm rm hfin h]
    exact fpIsFinite_zeroResult rm
  · rw [reduceFp16_of_reducedUnits_ne_zero imm rm hfin h]
    exact (roundFp16_spec (natAbs_reducedUnits_le _ _ _) rm).1

/-- A zero result has no difference: no rounding passes the least FP16 magnitude. -/
theorem reducedUnits_eq_zero_of_value (h : fpUnits (reduceFp16 src imm rm).value = 0) :
    reducedUnits (fpUnits src) (immM imm) rm = 0 := by
  by_contra hne
  have hone : fpMagnitude 1#16 = 1 := by decide
  have hge := fpMagnitude_le_roundFp16 (natAbs_reducedUnits_le (fpUnits src) (immM imm) rm) rm (h := 1#16) (by omega)
  rw [reduceFp16_of_reducedUnits_ne_zero imm rm hfin hne] at h
  rw [← natAbs_fpUnits (roundFp16 _ rm).1, h, hone] at hge
  exact absurd hge (by decide)

variable {rm}

/-- But under RU of a positive source and RD of a negative one, the result is the difference itself (R63). -/
theorem fpUnits_reduceFp16_eq (hru : rm = .ru → fpUnits src ≤ 0) (hrd : rm = .rd → 0 ≤ fpUnits src) :
    fpUnits (reduceFp16 src imm rm).value = reducedUnits (fpUnits src) (immM imm) rm := by
  by_cases h : reducedUnits (fpUnits src) (immM imm) rm = 0
  · rw [reduceFp16_of_reducedUnits_eq_zero imm rm hfin h, h]
    exact fpUnits_zeroResult rm
  · rw [reduceFp16_of_reducedUnits_ne_zero imm rm hfin h]
    exact fpUnits_roundFp16_of_dvd (natAbs_reducedUnits_le _ _ _) rm
      (two_pow_spacingExp_dvd_reducedUnits (natAbs_reducedUnits_le_natAbs hru hrd))

/-- Where the result is the difference itself, Precision is not signalled. -/
theorem reduceFp16_pe_eq_false (hru : rm = .ru → fpUnits src ≤ 0) (hrd : rm = .rd → 0 ≤ fpUnits src) :
    (reduceFp16 src imm rm).pe = false := by
  rw [← Bool.not_eq_true, reduceFp16_pe_iff imm rm hfin]
  exact fun h => h.2 (fpUnits_reduceFp16_eq imm hfin hru hrd)

/-- A non-zero source that is its own difference is its own result. -/
theorem reduceFp16_value_eq_src (h0 : fpUnits src ≠ 0) (hru : rm = .ru → fpUnits src ≤ 0)
    (hrd : rm = .rd → 0 ≤ fpUnits src) (h : reducedUnits (fpUnits src) (immM imm) rm = fpUnits src) :
    (reduceFp16 src imm rm).value = src :=
  eq_of_fpUnits_eq ((fpUnits_reduceFp16_eq imm hfin hru hrd).trans h) h0

variable (rm)

/-- The result is no larger than the difference: RD leaves it at or above zero and RU at or below, so that every
directed mode rounds its magnitude down. -/
theorem fpMagnitude_reduceFp16_le :
    fpMagnitude (reduceFp16 src imm rm).value ≤ (reducedUnits (fpUnits src) (immM imm) rm).natAbs := by
  by_cases h : reducedUnits (fpUnits src) (immM imm) rm = 0
  · rw [reduceFp16_of_reducedUnits_eq_zero imm rm hfin h, ← natAbs_fpUnits, fpUnits_zeroResult]
    simp
  · cases rm with
    | rne => rw [← fpUnits_reduceFp16_eq imm hfin (by simp) (by simp), natAbs_fpUnits]
    | rd =>
      have hnonneg := reducedUnits_rd_nonneg (fpUnits src) (immM imm)
      rw [reduceFp16_of_reducedUnits_ne_zero imm _ hfin h]
      exact fpMagnitude_roundFp16_le (natAbs_reducedUnits_le _ _ _) (.inl (if_neg (by omega)))
    | ru =>
      have hnonpos := reducedUnits_ru_nonpos (fpUnits src) (immM imm)
      rw [reduceFp16_of_reducedUnits_ne_zero imm _ hfin h]
      exact fpMagnitude_roundFp16_le (natAbs_reducedUnits_le _ _ _) (.inl (if_pos (by omega)))
    | rz =>
      rw [reduceFp16_of_reducedUnits_ne_zero imm _ hfin h]
      exact roundFp16_rz_natAbs_le (natAbs_reducedUnits_le _ _ _)

end Finite

/-- Settles O47: each such source is a multiple of `2^-M`. -/
theorem zeroResultTakesTheModesSign : Obligations.ZeroResultTakesTheModesSign := by
  intro src imm rm hfin hsrc
  refine reduceFp16_of_gridUnits_dvd imm rm hfin ?_
  rcases hsrc with rfl | rfl | hmod
  · exact dvd_zero _
  · exact dvd_zero _
  · exact Int.dvd_of_emod_eq_zero hmod

/-- Settles O48. -/
theorem precisionSignalIsTheFinalRoundings : Obligations.PrecisionSignalIsTheFinalRoundings :=
  fun _ imm rm hfin => ⟨reduceFp16_pe_iff imm rm hfin, reduceFp16_ie_of_finite imm rm hfin⟩

/-- Settles O49: the difference is no larger than the source, so it is an FP16 value. -/
theorem nearestAndTowardZeroAreExact : Obligations.NearestAndTowardZeroAreExact := by
  intro src imm rm hfin
  refine ⟨?_, ?_, fun hpe => ?_⟩
  · rintro rfl
    obtain ⟨hhalf, heven⟩ := rint_rne_spec (fpUnits src) (gridUnits_pos (immM imm))
    exact ⟨reduceFp16_pe_eq_false imm hfin (by simp) (by simp), _, fpUnits_reduceFp16_eq imm hfin (by simp) (by simp),
      hhalf, heven⟩
  · rintro rfl
    refine ⟨reduceFp16_pe_eq_false imm hfin (by simp) (by simp), roundedMultiple (fpUnits src) (immM imm) .rz,
      fpUnits_reduceFp16_eq imm hfin (by simp) (by simp), ?_, natAbs_reducedUnits_lt _ _ _⟩
    have hbetween := reducedUnits_rz_between (u := fpUnits src) (m := immM imm)
    simp only [reducedUnits, gridUnits] at hbetween
    omega
  · by_contra hne
    rw [reduceFp16_pe_eq_false imm hfin (fun h => not_lt.1 fun hu => hne (.inl ⟨h, hu⟩))
      (fun h => not_lt.1 fun hu => hne (.inr ⟨h, hu⟩))] at hpe
    cases hpe

/-- Settles O50: the result is no larger than the difference. -/
theorem reducedResultIsBounded : Obligations.ReducedResultIsBounded := by
  intro src imm rm hfin
  have hle := fpMagnitude_reduceFp16_le imm rm hfin
  rw [natAbs_fpUnits]
  refine ⟨fpIsFinite_reduceFp16 imm rm hfin, ?_, fun _ => hle.trans_lt (natAbs_reducedUnits_lt _ _ _)⟩
  rintro rfl
  exact (Nat.mul_le_mul_left 2 hle).trans (two_mul_natAbs_reducedUnits_rne_le _ _)

/-- Settles O51: the fraction has 10 bits, so a large magnitude is a multiple of `2^-M`. -/
theorem largeSourcesGiveZero : Obligations.LargeSourcesGiveZero := by
  intro src imm rm hfin hlarge
  refine reduceFp16_of_gridUnits_dvd imm rm hfin (Int.natCast_dvd.2 ?_)
  have hM := immM_lt imm
  rw [natAbs_fpUnits] at hlarge ⊢
  refine (two_pow_dvd_fpMagnitude_or_lt src (24 - immM imm)).resolve_right ?_
  rw [show 24 - immM imm + 10 = 34 - immM imm by omega]
  exact hlarge.not_gt

/-! ## Table 5-30 (R65) -/

section Small
variable {src : Half} (imm : BitVec 8) (hfin : fpIsFinite src = true)
include hfin

/-- The RNE row: less than half of `2^-M` is rounded to `t = 0`. -/
theorem reduceFp16_rne_of_small (h0 : fpUnits src ≠ 0) (hsmall : 2 * (fpUnits src).natAbs < gridUnits (immM imm)) :
    (reduceFp16 src imm .rne).value = src := by
  refine reduceFp16_value_eq_src imm hfin h0 (by simp) (by simp) (reducedUnits_eq_of_close (by simp) ?_)
  have := two_mul_natAbs_reducedUnits_rne_le (fpUnits src) (immM imm)
  omega

variable (hsmall : (fpUnits src).natAbs < gridUnits (immM imm))
include hsmall

/-- The RU row of a positive source: `t = 1`. -/
theorem reduceFp16_ru_of_small_pos (hpos : 0 < fpUnits src) :
    (reduceFp16 src imm .ru).value = (roundFp16 (fpUnits src - gridUnits (immM imm)) .ru).1 := by
  have hlt := natAbs_reducedUnits_lt (fpUnits src) (immM imm) .ru
  have hnonpos := reducedUnits_ru_nonpos (fpUnits src) (immM imm)
  have hr : reducedUnits (fpUnits src) (immM imm) .ru = fpUnits src - gridUnits (immM imm) :=
    reducedUnits_eq_of_close (by simp) (by omega)
  rw [reduceFp16_of_reducedUnits_ne_zero imm _ hfin (by omega), hr]

/-- The RD row of a negative source: `t = -1`. -/
theorem reduceFp16_rd_of_small_neg (hneg : fpUnits src < 0) :
    (reduceFp16 src imm .rd).value = (roundFp16 (fpUnits src + gridUnits (immM imm)) .rd).1 := by
  have hlt := natAbs_reducedUnits_lt (fpUnits src) (immM imm) .rd
  have hnonneg := reducedUnits_rd_nonneg (fpUnits src) (immM imm)
  have hr : reducedUnits (fpUnits src) (immM imm) .rd = fpUnits src + gridUnits (immM imm) :=
    reducedUnits_eq_of_close (by simp) (by omega)
  rw [reduceFp16_of_reducedUnits_ne_zero imm _ hfin (by omega), hr]

/-- The RU row of a negative source: `t = 0`. -/
theorem reduceFp16_ru_of_small_neg (hneg : fpUnits src < 0) : (reduceFp16 src imm .ru).value = src := by
  refine reduceFp16_value_eq_src imm hfin hneg.ne (fun _ => hneg.le) (by simp) (reducedUnits_eq_of_close (by simp) ?_)
  have := reducedUnits_ru_nonpos (fpUnits src) (immM imm)
  have := le_reducedUnits_ru (m := immM imm) hneg.le
  omega

/-- The RD row of a positive source: `t = 0`. -/
theorem reduceFp16_rd_of_small_pos (hpos : 0 < fpUnits src) : (reduceFp16 src imm .rd).value = src := by
  refine reduceFp16_value_eq_src imm hfin hpos.ne' (by simp) (fun _ => hpos.le) (reducedUnits_eq_of_close (by simp) ?_)
  have := reducedUnits_rd_nonneg (fpUnits src) (immM imm)
  have := reducedUnits_rd_le (m := immM imm) hpos.le
  omega

/-- The RZ case: `t = 0`. -/
theorem reduceFp16_rz_of_small (h0 : fpUnits src ≠ 0) : (reduceFp16 src imm .rz).value = src := by
  refine reduceFp16_value_eq_src imm hfin h0 (by simp) (by simp) (reducedUnits_eq_of_close (by simp) ?_)
  have := reducedUnits_rz_between (u := fpUnits src) (m := immM imm)
  omega

end Small

/-- The zero rows: a zero source, and a zero result. -/
theorem reduceFp16_of_zero {src : Half} (imm : BitVec 8) (rm : Rounding) (hfin : fpIsFinite src = true)
    (h : fpUnits src = 0 ∨ fpUnits (reduceFp16 src imm rm).value = 0) :
    (reduceFp16 src imm rm).value = zeroResult rm := by
  have hr : reducedUnits (fpUnits src) (immM imm) rm = 0 :=
    h.elim (fun h => reducedUnits_eq_zero_of_dvd (h ▸ dvd_zero _)) (reducedUnits_eq_zero_of_value imm rm hfin)
  rw [reduceFp16_of_reducedUnits_eq_zero imm rm hfin hr]

/-- Settles O52: row by row. -/
theorem specialCasesTable : Obligations.SpecialCasesTable := by
  intro src imm rm
  refine ⟨fun hfin h0 => ⟨?_, fun hsmall => ⟨?_, ?_, ?_, ?_, ?_⟩⟩, reduceFp16_of_zero imm rm, fun hinf => ?_,
    fun hnan => ?_⟩
  · rintro rfl hhalf
    exact reduceFp16_rne_of_small imm hfin h0 hhalf
  · rintro rfl hpos
    exact reduceFp16_ru_of_small_pos imm hfin hsmall hpos
  · rintro rfl hneg
    exact reduceFp16_ru_of_small_neg imm hfin hsmall hneg
  · rintro rfl hpos
    exact reduceFp16_rd_of_small_pos imm hfin hsmall hpos
  · rintro rfl hneg
    exact reduceFp16_rd_of_small_neg imm hfin hsmall hneg
  · rintro rfl
    exact reduceFp16_rz_of_small imm hfin hsmall h0
  · rw [reduceFp16_of_inf imm rm hinf]
  · rw [reduceFp16_of_nan imm rm hnan]

end Sys2Proof.Machine
end

section
/-! PROOFS. Code that cannot be fetched to its end (R83, U17), and the vector numbers and error codes of the faults
(R76). -/

namespace Sys2Proof.Machine

/-! ## Code that cannot be fetched to its end (R83, U17; log 22) -/

/-- An instruction with good fields, cut before its end and before its fifteenth byte, asks for more bytes. -/
theorem decode_cut {m : Mode} {i : Instr} (ho : (shapeOf i).o.wf m = true)
    (hsrc : (shapeOf i).src.wfIn m (shapeOf i).o.legacy = true) {n : Nat} (hn : n < i.length) (hn15 : n < 15) :
    decode m ((encode i).take n) = .error .truncated := by
  have hbody : decodeBody m (splitLegacy ((encode i).take n)).1 (splitLegacy ((encode i).take n)).2.1
      (splitLegacy ((encode i).take n)).2.2 = .error .truncated := by
    rw [encode_eq, List.take_append, ← List.map_take, List.length_map, splitLegacy_map_code]
    by_cases hcut : n ≤ (shapeOf i).o.legacy.length
    · rw [Nat.sub_eq_zero_of_le hcut]
      rfl
    · obtain ⟨k, rfl⟩ := Nat.exists_eq_add_of_lt (not_le.1 hcut)
      have hbytes := length_eq_tailOf i
      rw [List.take_of_length_le (by omega), Nat.add_assoc, Nat.add_sub_cancel_left, List.take_succ_cons,
        splitLegacy_62, List.append_nil, ← List.take_succ_cons]
      exact decodeBody_cut ho hsrc (by omega)
  have hlen : ((encode i).take n).length < 15 := (List.length_take_le _ _).trans_lt hn15
  rw [decode, Config.maxLength, List.take_of_length_le hlen.le]
  simp only [hbody, if_neg (not_le.2 hlen)]

theorem fetchFrom_of_not_fetchable {s : State} {k : Nat} (h : fetchable s k = false) (fuel : Nat) :
    fetchFrom s fuel k = [] := by
  cases fuel with
  | zero => rfl
  | succ fuel => simp [fetchFrom, h]

/-- The window ends at the first byte that cannot be fetched. -/
theorem fetchWindow_eq_of_not_fetchable {s : State} {bs : List Byte} (hlen : bs.length ≤ 15)
    (h : ∀ k < bs.length, fetchable s k = true ∧ bs[k]? = some (memRead s.mem (fetchAddr s k)))
    (hend : fetchable s bs.length = false) : fetchWindow s = bs := by
  have happ := fetchFrom_eq_append (k := 0) hlen (by simpa using h)
  rwa [Nat.zero_add, fetchFrom_of_not_fetchable hend, List.append_nil] at happ

/-- Settles O14: the window ends at the byte that cannot be fetched, and what it holds asks for more. -/
theorem unfetchableCodeIsRefused : Obligations.UnfetchableCodeIsRefused := by
  constructor
  · intro s h0
    have hwindow : fetchWindow s = [] := fetchFrom_of_not_fetchable h0 15
    exact step_of_decode_error (e := .truncated) (by rw [hwindow]; rfl)
  · intro s i n hwf hn hbytes hend
    obtain ⟨ho, hsrc, hle⟩ := wf_iff_shape.1 hwf
    have hn15 : n < 15 := hn.trans_le hle
    have hlen : ((encode i).take n).length = n := by
      rw [List.length_take, encode_length, Nat.min_eq_left hn.le]
    have hwindow : fetchWindow s = (encode i).take n := by
      refine fetchWindow_eq_of_not_fetchable (hlen.trans_le hn15.le) (fun k hk => ?_) (hlen.symm ▸ hend)
      rw [hlen] at hk
      rw [List.getElem?_take_of_lt hk]
      exact hbytes k hk
    exact step_of_decode_error (e := .truncated) (hwindow ▸ decode_cut ho hsrc hn hn15)

/-! ## Vector numbers and error codes (R76) -/

/-- Settles O58: R76's table, fault by fault. -/
theorem faultVectorsAndErrorCodes : Obligations.FaultVectorsAndErrorCodes :=
  fun _ _ _ _ => ⟨⟨rfl, rfl⟩, ⟨rfl, rfl⟩, ⟨rfl, rfl⟩, ⟨rfl, rfl⟩, ⟨rfl, rfl⟩, ⟨rfl, rfl⟩, ⟨rfl, rfl⟩⟩

end Sys2Proof.Machine
end

section
/-! PROOFS. A word loaded where the next step fetches (R92; log 4), and the part of the destination register above the
vector length (R14, R94). -/

namespace Sys2Proof.Machine

/-! ## Bytes stored at distinct addresses (R20) -/

/-- A store of bytes at addresses that are all distinct from `a` leaves the byte at `a`. -/
theorem memRead_memWriteList_of_ne {m : Memory} {addr : Nat → Quad} {k : Nat} {bs : List Byte} {a : Quad}
    (hm : Memory.wf m = true) (h : ∀ j < bs.length, addr (k + j) ≠ a) :
    memRead (memWriteList m addr k bs) a = memRead m a := by
  induction bs generalizing m k with
  | nil => rfl
  | cons b bs ih =>
    have htail : ∀ j < bs.length, addr (k + 1 + j) ≠ a := fun j hj => by
      simpa [Nat.add_assoc, Nat.add_comm 1] using h (j + 1) (by simpa using hj)
    rw [memWriteList, ih (memWrite_wf _ _ hm) htail, memRead_memWrite _ _ _ hm]
    exact if_neg (h 0 (by simp))

/-- Bytes stored at distinct addresses are read back. -/
theorem memRead_memWriteList {m : Memory} {addr : Nat → Quad} {k : Nat} {bs : List Byte} (hm : Memory.wf m = true)
    (hinj : ∀ i j, i < bs.length → j < bs.length → addr (k + i) = addr (k + j) → i = j) {j : Nat}
    (hj : j < bs.length) : memRead (memWriteList m addr k bs) (addr (k + j)) = bs[j] := by
  induction bs generalizing m k j with
  | nil => cases hj
  | cons b bs ih =>
    have hshift : ∀ i, k + (i + 1) = k + 1 + i := fun i => by omega
    rw [memWriteList]
    cases j with
    | zero =>
      have hne : ∀ i < bs.length, addr (k + 1 + i) ≠ addr (k + 0) := fun i hi he => by
        simpa using hinj (i + 1) 0 (by simpa using hi) (by simp) (by rwa [hshift i])
      rw [memRead_memWriteList_of_ne (memWrite_wf _ _ hm) hne, memRead_memWrite _ _ _ hm]
      exact if_pos rfl
    | succ j =>
      have hinj' : ∀ i j, i < bs.length → j < bs.length → addr (k + 1 + i) = addr (k + 1 + j) → i = j :=
        fun i j hi hj he => Nat.succ_injective <|
          hinj (i + 1) (j + 1) (by simpa using hi) (by simpa using hj) (by rwa [hshift i, hshift j])
      rw [hshift j]
      exact ih (memWrite_wf _ _ hm) hinj' (by simpa using hj)

/-! ## The loaded instruction (R92; log 4) -/

/-- Loading moves no fetch address: the mode is that of the launched control state, and `rip` and CS stay. -/
theorem fetchAddr_loadInstruction (s : State) (bs : List Byte) (k : Nat) :
    fetchAddr (loadInstruction s bs) k = fetchAddr { s with ctl := launchControl s.ctl } k := rfl

theorem loadInstruction_rip (s : State) (bs : List Byte) : (loadInstruction s bs).rip = s.rip := rfl

theorem fetchAddr_of_mode64 {s : State} (h : modeOf s = .mode64) (k : Nat) :
    fetchAddr s k = s.rip + BitVec.ofNat 64 k := by
  simp only [fetchAddr, h]

theorem fetchable_of_mode64 {s : State} (h : modeOf s = .mode64) (k : Nat) :
    fetchable s k = (canonical (fetchAddr s k) && (verdictOf s (fetchAddr s k)).isNone) := by
  simp only [fetchable, h]

/-- The 15 bytes that a step may fetch in 64-bit mode lie at distinct addresses, whether or not they wrap. -/
theorem fetchAddr_inj_of_mode64 {s : State} (h : modeOf s = .mode64) {i j : Nat} (hi : i < 15) (hj : j < 15)
    (he : fetchAddr s i = fetchAddr s j) : i = j := by
  rw [fetchAddr_of_mode64 h, fetchAddr_of_mode64 h, BitVec.add_right_inj] at he
  have hnat := congrArg BitVec.toNat he
  simp only [BitVec.toNat_ofNat] at hnat
  omega

/-- No region denies a byte at which the loaded instruction is fetched. -/
theorem verdictOf_loadInstruction {s : State} {bs : List Byte} {k : Nat} (hk : k < bs.length) :
    verdictOf (loadInstruction s bs) (fetchAddr (loadInstruction s bs) k) = none := by
  rw [verdictOf, Option.map_eq_none_iff, List.find?_eq_none]
  intro r hr
  have hoff := List.of_mem_filter hr
  rw [fetchAddr_loadInstruction]
  simpa using List.all_eq_true.1 hoff _ (List.mem_map_of_mem (List.mem_range.2 hk))

section Loaded
variable {s : State} {bs : List Byte} (hmode : modeOf (loadInstruction s bs) = .mode64)
include hmode

/-- In 64-bit mode a loaded byte at a canonical address can be fetched. -/
theorem fetchable_loadInstruction {k : Nat} (hk : k < bs.length)
    (hcan : canonical (s.rip + BitVec.ofNat 64 k) = true) : fetchable (loadInstruction s bs) k = true := by
  rw [fetchable_of_mode64 hmode, verdictOf_loadInstruction hk, fetchAddr_of_mode64 hmode, loadInstruction_rip, hcan]
  rfl

/-- In 64-bit mode byte `k` of at most 15 loaded bytes stands where instruction byte `k` is fetched. -/
theorem memRead_loadInstruction (hm : Memory.wf s.mem = true) (hlen : bs.length ≤ 15) {k : Nat} (hk : k < bs.length) :
    memRead (loadInstruction s bs).mem (fetchAddr (loadInstruction s bs) k) = bs[k] := by
  have hinj : ∀ i j, i < bs.length → j < bs.length →
      fetchAddr (loadInstruction s bs) (0 + i) = fetchAddr (loadInstruction s bs) (0 + j) → i = j := by
    intro i j hi hj he
    rw [Nat.zero_add, Nat.zero_add] at he
    exact fetchAddr_inj_of_mode64 hmode (hi.trans_le hlen) (hj.trans_le hlen) he
  have hread := memRead_memWriteList hm hinj hk
  rwa [Nat.zero_add] at hread

/-- In 64-bit mode 15 loaded bytes at canonical addresses are the window of the next step. -/
theorem fetchWindow_loadInstruction (hm : Memory.wf s.mem = true) (hlen : bs.length = 15)
    (hcan : ∀ k < 15, canonical (s.rip + BitVec.ofNat 64 k) = true) :
    fetchWindow (loadInstruction s bs) = bs := by
  have hwindow : fetchWindow (loadInstruction s bs) =
      bs ++ fetchFrom (loadInstruction s bs) (15 - bs.length) (0 + bs.length) := by
    refine fetchFrom_eq_append hlen.le fun j hj => ?_
    rw [Nat.zero_add, memRead_loadInstruction hmode hm hlen.le hj]
    exact ⟨fetchable_loadInstruction hmode hj (hcan j (hj.trans_eq hlen)), List.getElem?_eq_getElem hj⟩
  rw [hwindow, hlen]
  exact List.append_nil bs

end Loaded

theorem tableBytes_length (nbits w : Nat) : (tableBytes nbits w).length = 15 := by
  simp [tableBytes, Config.maxLength]

theorem decodeTableWord_eq_some_iff {nbits w : Nat} {i : Instr} :
    decodeTableWord nbits w = some i ↔ decode .mode64 (tableBytes nbits w) = .ok i := by
  unfold decodeTableWord
  split <;> simp [*]

/-- Settles O13: the window is the 15 bytes of the word. -/
theorem loadedWordRunsNext : Obligations.LoadedWordRunsNext := by
  intro s nbits w i hm hmode hcan hdec
  refine step_of_decode_ok ?_
  rw [hmode, State.withFetchWord, fetchWindow_loadInstruction hmode hm (tableBytes_length nbits w) hcan]
  exact decodeTableWord_eq_some_iff.1 hdec

/-! ## The destination above the vector length (R14, R94) -/

/-- Elements that are zero add nothing to a register's number. -/
theorem lanesBits_eq_of_lane_eq_zero {v : Lanes} {m n : Nat} (hmn : m ≤ n)
    (h : ∀ j, m ≤ j → j < n → lane v j = 0#16) : lanesBits v n = lanesBits v m := by
  induction n, hmn using Nat.le_induction with
  | base => rfl
  | succ n hmn ih =>
    rw [lanesBits_succ, h n hmn n.lt_succ_self, ih fun j hj hjn => h j hj (hjn.trans n.lt_succ_self)]
    simp

/-- A completed form leaves zero in every element from `KL` up, whatever the mask. -/
theorem lane_dst_eq_zero_of_exec_next {i : Instr} {s t : State} (h : exec i s = .next t) {j : Nat}
    (hkl : lenKL (shapeOf i).vl ≤ j) (hj : j < 32) : lane (zmmRead t (shapeOf i).o.dst) j = 0#16 := by
  rw [lane_dst_of_exec_next h hj, elemResult, if_neg (Nat.not_lt.2 hkl)]

/-- The number a completed form leaves in its destination is that of its first `KL` elements. -/
theorem lanesBits_dst_of_exec_next {i : Instr} {s t : State} (h : exec i s = .next t) :
    lanesBits (zmmRead t (shapeOf i).o.dst) 32 = lanesBits (zmmRead t (shapeOf i).o.dst) (lenKL (shapeOf i).vl) :=
  lanesBits_eq_of_lane_eq_zero (lenKL_le _) fun _ => lane_dst_eq_zero_of_exec_next h

theorem toNat_xmmRead (s : State) (n : BitVec 5) : (xmmRead s n).toNat = lanesBits (zmmRead s n) 8 := by
  rw [xmmRead, BitVec.toNat_ofNat, Nat.mod_eq_of_lt (lanesBits_lt _ 8)]

theorem toNat_ymmRead (s : State) (n : BitVec 5) : (ymmRead s n).toNat = lanesBits (zmmRead s n) 16 := by
  rw [ymmRead, BitVec.toNat_ofNat, Nat.mod_eq_of_lt (lanesBits_lt _ 16)]

/-- Settles O25: `KL` is 8 and 16. -/
theorem narrowFormsClearTheUpperBits : Obligations.NarrowFormsClearTheUpperBits :=
  ⟨fun _ t o _ h => (lanesBits_dst_of_exec_next h).trans (toNat_xmmRead t o.dst).symm,
    fun _ t o _ h => (lanesBits_dst_of_exec_next h).trans (toNat_ymmRead t o.dst).symm⟩

end Sys2Proof.Machine
end
